-- ==== Sys2Proof/Word.lean ====
section
/-! DEFINITION. The word types of the block (spec 00_scope.md R9): every value is an unsigned integer of a stated
width. -/

namespace Sys2Proof

/-- A byte: the only size the host bus moves (20_memory.md R64). -/
abbrev Byte := BitVec 8

/-- A 16-bit register pair, a length or a CRC-16 (20_memory.md R66). -/
abbrev Half := BitVec 16

/-- A 32-bit address or value inside a wire command's payload (44_wire_commands.md R211, R212). -/
abbrev Word := BitVec 32

end Sys2Proof
end

