-- ==== Sys2Proof/Config.lean ====
section
/-! DEFINITION. What one instance of the block fixes (00_scope.md R7), what the wire commands leave open
(93_implementation_defined.md U13), and the free values: the transport's answers (20_memory.md R77). -/

namespace Sys2Proof

/-- HDR_CHK_VARIANT, the header-checksum formula (00_scope.md R7, 40_checksums.md R122). -/
inductive HdrVariant where
  | twos
  | ones
deriving DecidableEq, Repr

/-- The instance parameters that change what the block does (00_scope.md R7; log 1). -/
structure Config where
  /-- BUF_DEPTH: bytes in each of IN_BUF and OUT_BUF. -/
  bufDepth : Nat
  /-- HDR_CHK_VARIANT. -/
  hdrVariant : HdrVariant
  /-- HS_FLUSH_ACK: whether AckReceived-phase attempts also reset the transport input. -/
  hsFlushAck : Bool
deriving DecidableEq, Repr

/-- The default instance (00_scope.md R7). -/
def Config.standard : Config := { bufDepth := 2048, hdrVariant := .twos, hsFlushAck := false }

/-- 16 ≤ BUF_DEPTH ≤ 16384 (00_scope.md R8). -/
abbrev Config.wf (c : Config) : Prop := 16 ≤ c.bufDepth ∧ c.bufDepth ≤ 16384

/-- Which fields of an OTP command its address checksum covers: open, "the offset alone, or the option byte too"
(91_not_in_source.md N11, 93_implementation_defined.md U13). That a field is covered whole or not at all is the model's
choice (log 11). -/
structure ChkCoverage where
  /-- The opcode byte. -/
  opcode : Bool
  /-- The option byte. -/
  option : Bool
  /-- The offset's bytes. -/
  offset : Bool
  /-- The value's or the key's bytes. -/
  data : Bool
deriving DecidableEq, Repr, Inhabited

/-- What an OTP command leaves open (93_implementation_defined.md U13). -/
structure OtpLayout where
  /-- Bytes of the little-endian OTP offset. -/
  offsetBytes : Nat
  /-- What the address checksum covers. -/
  covers : ChkCoverage
deriving DecidableEq, Repr, Inhabited

/-- The host-side wire fields that the spec leaves to a host model (93_implementation_defined.md U13). -/
structure WireLayout where
  /-- Bytes of a legacy key write before its key/value bytes (44_wire_commands.md R215). -/
  legacyBefore : Nat
  /-- The layout of a write-OTP-register command (44_wire_commands.md R219). -/
  otpRegister : OtpLayout
  /-- The layout of a write-OTP-key command (44_wire_commands.md R220): the model does not assume that it is R219's
  (log 11). -/
  otpKey : OtpLayout
deriving DecidableEq, Repr, Inhabited

/-- The layout of the device at hand: not in the spec, so it has no body (93_implementation_defined.md U13; log 11).
The block does not depend on it. -/
opaque Config.wireLayout : WireLayout

/-- One answer of the transport to a primitive call (20_memory.md R75). For a write or a buffer reset, `bytes _` is
OK; for a read of n bytes, `bytes bs` delivers the first n bytes of `bs` (log 3). -/
inductive Answer where
  | fail
  | bytes (bs : List Byte)
deriving DecidableEq, Repr, Inhabited

/-- FREE VALUE: the transport's k-th answer after those that State lists (20_memory.md R77,
93_implementation_defined.md U2; log 3). Nothing constrains it. -/
opaque Config.draw : Nat → Answer

end Sys2Proof
end

