-- ==== Sys2Proof/Syntax.lean ====
section
/-! DEFINITION. The syntax: one constructor per row of spec/opcode_table.json, and the formats of its rows
(30_encoding.md, opening paragraph). -/

namespace Sys2Proof

/-- The formats of rows that are data for IN_BUF: a raw frame (30_encoding.md R95), a wire symbol (R97), a command
payload (R102). -/
inductive DataFormat where
  | rawHdr
  | wireSym
  | wireCmd
deriving DecidableEq, Repr

/-- The formats of the opcode table's rows: an operation code written to CMD (30_encoding.md R90), a handshake byte
(R100), and the data formats. -/
inductive Format where
  | cmd8
  | hsByte
  | data (d : DataFormat)
deriving DecidableEq, Repr

/-- One constructor per row of spec/opcode_table.json. -/
inductive Instr where
  -- CMD8: the operations (30_encoding.md R91); every operand is a register or a buffer
  | nop
  | build
  | encode
  | frame
  | decode
  | verify
  | sum8
  | hchk
  | crc8
  | crc16
  | send
  | recv
  | flushRx
  | flushTx
  | flushAll
  | hsStart
  | hsSkip
  /-- RAW_HDR: a raw frame with its header byte 0x52 (30_encoding.md R95); the check fields are carried as they stand. -/
  | frameHeader (seq : Byte) (len : Half) (chk : Byte) (payload : List Byte) (crc : Half)
  -- WIRE_SYM: the stuffing codes (30_encoding.md R97)
  | delim
  | esc
  | escDelim
  | escEsc
  -- HS_BYTE: the handshake bytes (30_encoding.md R100)
  | start
  | ack
  | ispStart
  | ispReady
  -- WIRE_CMD: the host-built command payloads (44_wire_commands.md R211 to R220)
  | readRegister (address : Word)
  | writeRegister (address value : Word)
  | getFlashId
  | eraseSecureOtpPage
  | legacyKeyWrite (before kv : List Byte)
  | verifyBootloaderSignature
  | requestSecureDebug
  | sendChallengeResponse (r s : List Byte)
  /-- The offset is a number, sent little-endian; WellFormed ties the address checksum to the bytes it covers
  (44_wire_commands.md R219). -/
  | writeOtpRegister (option addrChk : Byte) (offset : Nat) (value : List Byte)
  /-- As R219, with 64 key bytes for the value and no CRC-8 (44_wire_commands.md R220). -/
  | writeOtpKey (option addrChk : Byte) (offset : Nat) (key : List Byte)
deriving DecidableEq, Repr

/-- The format of an instruction's row. -/
def Instr.format : Instr → Format
  | .nop | .build | .encode | .frame | .decode | .verify | .sum8 | .hchk | .crc8 | .crc16 => .cmd8
  | .send | .recv | .flushRx | .flushTx | .flushAll | .hsStart | .hsSkip => .cmd8
  | .frameHeader _ _ _ _ _ => .data .rawHdr
  | .delim | .esc | .escDelim | .escEsc => .data .wireSym
  | .start | .ack | .ispStart | .ispReady => .hsByte
  | .readRegister _ | .writeRegister _ _ | .getFlashId | .eraseSecureOtpPage | .legacyKeyWrite _ _ => .data .wireCmd
  | .verifyBootloaderSignature | .requestSecureDebug | .sendChallengeResponse _ _ => .data .wireCmd
  | .writeOtpRegister _ _ _ _ | .writeOtpKey _ _ _ _ => .data .wireCmd

end Sys2Proof
end

