-- ==== Sys2Proof/Machine/State.lean ====
section
/-! DEFINITION. The machine's state (10_state.md), plain data; what is observed of it (00_scope.md R6); its pending
inputs; and the reasons a step can stop. -/

namespace Sys2Proof.Machine

/-- STATE, the handshake state machine's state (10_state.md R29). -/
inductive HsState where
  | idle
  | ackReceived
  | ispReady
  | failed
deriving DecidableEq, Repr

/-- `phase`, where the operation in flight stands (10_state.md R46). -/
inductive Phase where
  | ready
  | exec
  | hsCheck
  | hsResetIn
  | hsWrite
  | hsRead
  | tCall
deriving DecidableEq, Repr

/-- The error codes (60_exceptions.md R230); their numbers are `ErrCode.code`. -/
inductive ErrCode where
  | none
  | badOp
  | inLen
  | outOvf
  | rxReq
  | decDelim
  | decRawFend
  | decBadEsc
  | decTruncEsc
  | verify
  | notReady
  | hsState
  | hsTimeout
  | transport
deriving DecidableEq, Repr

/-- VFLAGS, the results of the last frame verification (10_state.md R38). -/
structure VFlags where
  hdrOk : Bool
  hchkOk : Bool
  lenOk : Bool
  crcOk : Bool
  allOk : Bool
  sizeOk : Bool
deriving DecidableEq, Repr

/-- VFLAGS = 0x00. -/
def VFlags.zero : VFlags :=
  { hdrOk := false, hchkOk := false, lenOk := false, crcOk := false, allOk := false, sizeOk := false }

/-- A buffer's bytes with their written marks: an index is listed exactly when its byte is written (10_state.md R44). -/
abbrev Memory := List Host.Cell

/-- The canonical form: indices strictly rising. An unlisted index holds no value, so every listed one differs from
it. -/
abbrev Memory.wf (m : Memory) : Prop := m.Pairwise (fun x y => x.1 < y.1)

/-- One event of the transport history: a primitive call, its argument and its answer (20_memory.md R75, R76). -/
inductive Call where
  /-- `T.write(bs)`, answered OK or FAIL. -/
  | write (bs : List Byte) (ok : Bool)
  /-- `T.read(n, tmo)`, answered a byte string, or FAIL (`none`). -/
  | read (n : Nat) (tmo : Half) (answer : Option (List Byte))
  /-- `T.reset_in()`. -/
  | resetIn (ok : Bool)
  /-- `T.reset_out()`. -/
  | resetOut (ok : Bool)
deriving DecidableEq, Repr

/-- What happens next at the host's side of the block: the pending inputs of the machine, each one step
(10_state.md R48, 20_memory.md R71; log 2). -/
inductive Event where
  /-- The block's turn: one block step, if an operation is in flight. -/
  | block
  /-- MemRead(addr, size) (20_memory.md R62); a size other than 1 is BAD_ACCESS (R64). -/
  | read (addr : Half) (size : Nat)
  /-- MemWrite(addr, 1, v) for `data = [v]` (20_memory.md R62); another number of bytes is BAD_ACCESS (R64). -/
  | write (addr : Half) (data : List Byte)
  /-- LDIN of the bytes of a data row (30_encoding.md R105; log 8, log 12). -/
  | load (format : DataFormat) (bytes : List Byte)
  /-- WAIT: read STATUS until BUSY = 0, the block taking a turn after each poll (30_encoding.md R105; log 13). -/
  | wait
  /-- The reset input is asserted (70_reset_and_hazards.md R260). -/
  | reset
deriving DecidableEq, Repr

/-- The state: the block's own (10_state.md R20), the instance's constants, the two observed histories
(00_scope.md R6), and the machine's pending inputs. -/
structure State where
  /-- The instance parameters, constant (00_scope.md R7, 10_state.md R20(d); log 1). -/
  cfg : Config
  /-- STATUS.BUSY (10_state.md R25). -/
  busy : Bool
  /-- STATUS.DONE. -/
  done : Bool
  /-- STATUS.ERR. -/
  err : Bool
  /-- STATUS.OVR. -/
  ovr : Bool
  /-- ERRCODE (10_state.md R26). -/
  errcode : ErrCode
  /-- CTRL.VERIFY_EN (10_state.md R27). -/
  verifyEn : Bool
  /-- SEQ (10_state.md R28). -/
  seq : Byte
  /-- HS_STATE.STATE (10_state.md R29). -/
  hsState : HsState
  /-- HS_ATT (10_state.md R30). -/
  hsAtt : Half
  /-- HS_MAX (10_state.md R31). -/
  hsMax : Half
  /-- HS_TMO (10_state.md R32). -/
  hsTmo : Byte
  /-- RX_TMO (10_state.md R33). -/
  rxTmo : Half
  /-- RX_REQ (10_state.md R34). -/
  rxReq : Half
  /-- IN_LEN (10_state.md R35). -/
  inLen : Half
  /-- OUT_LEN (10_state.md R36). -/
  outLen : Half
  /-- RESULT (10_state.md R37). -/
  result : Half
  /-- VFLAGS (10_state.md R38). -/
  vflags : VFlags
  /-- The CMD value latched at acceptance (10_state.md R46). -/
  op : Byte
  /-- Where the operation in flight stands (10_state.md R46). -/
  phase : Phase
  /-- IN_BUF: bytes by index, host address 0x4000 + index (10_state.md R42, R44). -/
  inBuf : Memory
  /-- OUT_BUF: bytes by index, host address 0x8000 + index (10_state.md R43, R44). -/
  outBuf : Memory
  /-- The transport history, oldest first (20_memory.md R76). -/
  history : List Call
  /-- The host's reads, address and value, oldest first (00_scope.md R6; log 4). -/
  reads : List (Half × Byte)
  /-- Pending events, next first; when there is none, the block takes its turns (log 2). -/
  events : List Event
  /-- Pending transport answers, next first; after them come free values (20_memory.md R77; log 3). -/
  answers : List Answer
  /-- How many free transport answers have been taken (log 3). -/
  drawn : Nat
deriving DecidableEq, Repr

/-- Why the model stops. Neither is a behaviour of the hardware (60_exceptions.md R242). -/
inductive Fault where
  /-- UNINIT_READ: raised by a host read of an unwritten buffer byte, and by an operation that consumes one
  (10_state.md R44, 60_exceptions.md R242). Safe: real hardware goes on with an unspecified byte (log 5). -/
  | uninitRead
  /-- BAD_ACCESS: raised by a host access of a size other than one byte (20_memory.md R64, 60_exceptions.md R242).
  Safe: no such access exists on the 8-bit bus (log 6). -/
  | badAccess
deriving DecidableEq, Repr

/-- Why an instruction has no meaning. -/
inductive Refusal where
  /-- Raised by `exec` for an instruction not modelled yet; safe. No arm raises it. -/
  | notModelled (mnemonic : String)
deriving DecidableEq, Repr

/-- The machine right after reset (10_state.md R51, 70_reset_and_hazards.md R260), in the default instance (log 1),
with empty histories and no pending input (log 2, log 3, log 4). -/
def State.reset : State where
  cfg := Config.standard
  busy := false
  done := false
  err := false
  ovr := false
  errcode := .none
  verifyEn := false
  seq := 0x00#8
  hsState := .idle
  hsAtt := 0x0000#16
  hsMax := 0x00FA#16
  hsTmo := 0x14#8
  rxTmo := 0x01F4#16
  rxReq := 0x0000#16
  inLen := 0x0000#16
  outLen := 0x0000#16
  result := 0x0000#16
  vflags := VFlags.zero
  op := 0x00#8
  phase := .ready
  inBuf := []
  outBuf := []
  history := []
  reads := []
  events := []
  answers := []
  drawn := 0

end Sys2Proof.Machine
end

