-- ==== Sys2Proof/Machine/Memory.lean ====
section
/-! DEFINITION. The named operations over a buffer: read or write one byte, load or store a byte string
(10_state.md R42 to R44). -/

namespace Sys2Proof.Machine

/-- The byte at an index, or nothing if it is unwritten (10_state.md R44). -/
def memGet : Memory → Nat → Option Byte
  | [], _ => none
  | (k, b) :: m, a => if k = a then some b else memGet m a

/-- Write one byte and set its mark (10_state.md R44), keeping the canonical form. -/
def memSet : Memory → Nat → Byte → Memory
  | [], a, v => [(a, v)]
  | (k, b) :: m, a, v =>
    if a < k then (a, v) :: (k, b) :: m else if a = k then (a, v) :: m else (k, b) :: memSet m a v

/-- The `n` bytes from index `a` on, or nothing if any of them is unwritten. -/
def loadBytes (m : Memory) : Nat → Nat → Option (List Byte)
  | _, 0 => some []
  | a, n + 1 =>
    match memGet m a, loadBytes m (a + 1) n with
    | some b, some bs => some (b :: bs)
    | _, _ => none

/-- Store a byte string from index `a` on, setting the marks. -/
def storeBytes (m : Memory) : Nat → List Byte → Memory
  | _, [] => m
  | a, b :: bs => storeBytes (memSet m a b) (a + 1) bs

end Sys2Proof.Machine
end

