-- ==== Sys2Proof/Machine/Ops.lean ====
section
/-! DEFINITION. The shared operations: acceptance and completion of an operation (60_exceptions.md R239, R240), which
stand where another machine takes and leaves an exception (R243: there are no traps); the commit of an output
(41_frame_codec.md R141); the transport's four primitives (20_memory.md R75); reset (70_reset_and_hazards.md R260). -/

namespace Sys2Proof.Machine

/-- What a meaning answers. -/
abbrev Result := Host.Outcome State Fault Refusal

/-- `accept(v)`: start operation `v` (60_exceptions.md R239). -/
def accept (v : Byte) (s : State) : State :=
  { s with op := v, phase := .exec, busy := true, done := false, err := false, errcode := .none }

/-- `complete(code)`: end the operation in flight (60_exceptions.md R240). -/
def complete (code : ErrCode) (s : State) : State :=
  { s with errcode := code, err := decide (code ≠ .none), done := true, busy := false, phase := .ready }

/-- `commit(o)` and then `complete(code)`; an output longer than OUT_BUF is not committed and completes with
ERR_OUT_OVF (41_frame_codec.md R141). -/
def commit (code : ErrCode) (o : List Byte) (s : State) : State :=
  if s.cfg.bufDepth < o.length then complete .outOvf s
  else complete code { s with outBuf := storeBytes s.outBuf 0 o, outLen := BitVec.ofNat 16 o.length }

/-- A FAIL answer: HS_STATE becomes FAILED, and the operation completes with ERR_TRANSPORT (60_exceptions.md R236). -/
def transportFail (s : State) : State := complete .transport { s with hsState := .failed }

/-- The transport's next answer: the first one pending, or else a free value (20_memory.md R77; log 3). -/
def nextAnswer (s : State) : Answer :=
  match s.answers with
  | a :: _ => a
  | [] => Config.draw s.drawn

/-- The state after the transport's next answer is taken. -/
def dropAnswer (s : State) : State :=
  match s.answers with
  | _ :: rest => { s with answers := rest }
  | [] => { s with drawn := s.drawn + 1 }

/-- Whether a write or a buffer reset was answered OK (20_memory.md R75). -/
def answerOk : Answer → Bool
  | .fail => false
  | .bytes _ => true

/-- The answer to a read of `n` bytes: FAIL, or a byte string no longer than `n` (20_memory.md R75). -/
def readReply (n : Nat) : Answer → Option (List Byte)
  | .fail => none
  | .bytes bs => some (bs.take n)

/-- Record a primitive call with its answer (20_memory.md R76). -/
def record (c : Call) (s : State) : State := { s with history := s.history ++ [c] }

/-- The call `c` of a write or a buffer reset: its answer is taken and recorded in the same step, and a FAIL ends the
operation (20_memory.md R76, 60_exceptions.md R236). -/
def callThen (c : Bool → Call) (k : State → State) (s : State) : State :=
  let ok := answerOk (nextAnswer s)
  let t := record (c ok) (dropAnswer s)
  if ok then k t else transportFail t

/-- `T.write(bs)`. -/
def tWrite (bs : List Byte) (k : State → State) (s : State) : State := callThen (.write bs) k s
/-- `T.reset_in()`. -/
def tResetIn (k : State → State) (s : State) : State := callThen .resetIn k s
/-- `T.reset_out()`. -/
def tResetOut (k : State → State) (s : State) : State := callThen .resetOut k s

/-- `T.read(n, tmo)` once its answer is known: it is recorded, and FAIL ends the operation. -/
def tReply (n : Nat) (tmo : Half) (r : Option (List Byte)) (k : List Byte → State → State) (s : State) : State :=
  match r with
  | none => transportFail (record (.read n tmo none) s)
  | some bs => k bs (record (.read n tmo (some bs)) s)

/-- `T.read(n, tmo)`. -/
def tRead (n : Nat) (tmo : Half) (k : List Byte → State → State) (s : State) : State :=
  tReply n tmo (readReply n (nextAnswer s)) k (dropAnswer s)

/-- The one step of a reserved CMD value: ERR_BAD_OP, no operand read, nothing else written (60_exceptions.md R231). -/
def execReserved (s : State) : Result := .next (complete .badOp s)

/-- Reset: every piece of block state takes its reset value (70_reset_and_hazards.md R260). The instance's constants,
the histories and the pending inputs stay (R260, R263; log 14). -/
def resetBlock (s : State) : State :=
  { State.reset with
    cfg := s.cfg, history := s.history, reads := s.reads, events := s.events, answers := s.answers, drawn := s.drawn }

end Sys2Proof.Machine
end

