-- ==== Sys2Proof/Machine/Operands.lean ====
section
/-! DEFINITION. The operand forms: the implicit input IN[0..IN_LEN) of the codec and checksum operations, and the
output OUT[0..OUT_LEN) of SEND (30_encoding.md R91, R92; 60_exceptions.md R241 items 3 and 4). -/

namespace Sys2Proof.Machine

/-- The common opening of an operation that consumes IN[0..IN_LEN): ERR_IN_LEN if IN_LEN > BUF_DEPTH, the model fault
UNINIT_READ if a byte is unwritten, else the operation on the bytes (40_checksums.md R129, 41_frame_codec.md R140,
60_exceptions.md R232, R242). -/
def withInput (k : List Byte → State → State) (s : State) : Result :=
  if s.cfg.bufDepth < s.inLen.toNat then .next (complete .inLen s)
  else
    match loadBytes s.inBuf 0 s.inLen.toNat with
    | none => .fault .uninitRead
    | some xs => .next (k xs s)

/-- OUT[0..OUT_LEN), the bytes SEND transmits (43_transport_ops.md R191). -/
def outBytes (s : State) : Option (List Byte) := loadBytes s.outBuf 0 s.outLen.toNat

end Sys2Proof.Machine
end

