-- ==== Sys2Proof/Machine/Sums.lean ====
section
/-! DEFINITION. The four checksum functions (40_checksums.md R120 to R123) and the address checksum of the OTP commands
(44_wire_commands.md R219), pure functions on byte strings. -/

namespace Sys2Proof.Machine

/-- The exact integer sum of a byte string (00_scope.md R9). -/
def byteSum (xs : List Byte) : Nat := (xs.map BitVec.toNat).sum

/-- Sum8, the one's complement of the byte sum mod 256 (40_checksums.md R121). -/
def sum8 (xs : List Byte) : Byte := BitVec.ofNat 8 (0xFF - byteSum xs % 256)

/-- HeaderChecksum: the two's complement of the byte sum under TWOS, Sum8 under ONES (40_checksums.md R122,
90_conflicts.md C1). -/
def headerChecksum (v : HdrVariant) (xs : List Byte) : Byte :=
  match v with
  | .twos => BitVec.ofNat 8 ((0x100 - byteSum xs % 256) % 256)
  | .ones => BitVec.ofNat 8 (0xFF - byteSum xs % 256)

/-- One bit of the CRC-16 register: shift left, and XOR the polynomial 0x1021 if bit 15 was 1 (40_checksums.md R120). -/
def crc16Bit (c : Half) : Half := if c.getLsbD 15 then (c <<< 1) ^^^ 0x1021#16 else c <<< 1

/-- `n` bits of the CRC-16 register. -/
def crc16Bits : Nat → Half → Half
  | 0, c => c
  | n + 1, c => crc16Bits n (crc16Bit c)

/-- One byte of CRC-16: XOR it into bits 15:8, then eight shifts (40_checksums.md R120). -/
def crc16Byte (c : Half) (b : Byte) : Half := crc16Bits 8 (c ^^^ (b.setWidth 16 <<< 8))

/-- CRC-16/CCITT-FALSE: initial value 0xFFFF, index 0 first, no final XOR (40_checksums.md R120). -/
def crc16 (xs : List Byte) : Half := xs.foldl crc16Byte 0xFFFF#16

/-- One bit of the CRC-8 register: shift left, and XOR the polynomial 0xD5 if bit 7 was 1 (40_checksums.md R123). -/
def crc8Bit (c : Byte) : Byte := if c.getLsbD 7 then (c <<< 1) ^^^ 0xD5#8 else c <<< 1

/-- `n` bits of the CRC-8 register. -/
def crc8Bits : Nat → Byte → Byte
  | 0, c => c
  | n + 1, c => crc8Bits n (crc8Bit c)

/-- One byte of CRC-8 (40_checksums.md R123). -/
def crc8Byte (c b : Byte) : Byte := crc8Bits 8 (c ^^^ b)

/-- CRC-8 with polynomial 0xD5: initial value 0, no final XOR (40_checksums.md R123, 92_eei_decisions.md D53). -/
def crc8 (xs : List Byte) : Byte := xs.foldl crc8Byte 0x00#8

/-- `le(v)` in `n` bytes: the first `n` bytes of a number, bits 7:0 first. -/
def bytesOfNat : Nat → Nat → List Byte
  | 0, _ => []
  | n + 1, w => BitVec.ofNat 8 w :: bytesOfNat n (w / 256)

/-- A field if the address checksum covers it, and nothing otherwise. -/
def coveredField (covered : Bool) (bs : List Byte) : List Byte := if covered then bs else []

/-- The address checksum of an OTP command: Sum8 of the bytes it covers (44_wire_commands.md R219, 40_checksums.md R121).
Which those are is the layout's (93_implementation_defined.md U13); Sum8 does not depend on their order. -/
def otpAddrChk (O : OtpLayout) (opcode option : Byte) (offset data : List Byte) : Byte :=
  sum8
    (coveredField O.covers.opcode [opcode] ++ coveredField O.covers.option [option] ++
      coveredField O.covers.offset offset ++ coveredField O.covers.data data)

end Sys2Proof.Machine
end

