-- ==== Sys2Proof/Machine/Checksum.lean ====
section
/-! DEFINITION. The checksum family: SUM8, HCHK, CRC8, CRC16 (40_checksums.md R125 to R129). -/

namespace Sys2Proof.Machine

/-- The common rule: RESULT gets the function's value of IN[0..IN_LEN) (40_checksums.md R129). -/
def checksumOp (f : Config → List Byte → Half) (s : State) : Result :=
  withInput (fun xs t => complete .none { t with result := f t.cfg xs }) s

/-- SUM8 (40_checksums.md R125). -/
def execSum8 (s : State) : Result := checksumOp (fun _ xs => (sum8 xs).setWidth 16) s

/-- HCHK, with the instance's HDR_CHK_VARIANT (40_checksums.md R126). -/
def execHchk (s : State) : Result := checksumOp (fun c xs => (headerChecksum c.hdrVariant xs).setWidth 16) s

/-- CRC8 (40_checksums.md R127). -/
def execCrc8 (s : State) : Result := checksumOp (fun _ xs => (crc8 xs).setWidth 16) s

/-- CRC16 (40_checksums.md R128). -/
def execCrc16 (s : State) : Result := checksumOp (fun _ xs => crc16 xs) s

end Sys2Proof.Machine
end

