-- ==== Sys2Proof/WellFormed.lean ====
section
/-! DEFINITION. The checks that the operands of an instruction must meet. The operations of CMD8 have no operand
fields (30_encoding.md R90), so only the data rows have checks. -/

namespace Sys2Proof

open Machine (bytesOfNat otpAddrChk)

/-- The largest payload a frame's 16-bit length field admits (30_encoding.md R95). -/
def maxPayload : Nat := 65535

/-- The well-formed instructions under a wire layout: a raw frame's length field is its payload's length
(30_encoding.md R96), the fields of a command fit their widths (44_wire_commands.md R215 to R220), an address
checksum is that of the bytes it covers (R219), and a payload fits the length field (30_encoding.md R95). -/
def Instr.wf (L : WireLayout) : Instr → Bool
  | .frameHeader _ len _ payload _ => payload.length == len.toNat
  | .legacyKeyWrite before kv => before.length == L.legacyBefore && decide (before.length + kv.length + 2 ≤ maxPayload)
  | .sendChallengeResponse r s => r.length == 32 && s.length == 32
  | .writeOtpRegister option addrChk offset value =>
    decide (offset < 256 ^ L.otpRegister.offsetBytes) &&
      addrChk == otpAddrChk L.otpRegister 0x11 option (bytesOfNat L.otpRegister.offsetBytes offset) value &&
      decide (L.otpRegister.offsetBytes + value.length + 4 ≤ maxPayload)
  | .writeOtpKey option addrChk offset key =>
    decide (offset < 256 ^ L.otpKey.offsetBytes) && key.length == 64 &&
      addrChk == otpAddrChk L.otpKey 0x12 option (bytesOfNat L.otpKey.offsetBytes offset) key &&
      decide (L.otpKey.offsetBytes + key.length + 3 ≤ maxPayload)
  | .nop | .build | .encode | .frame | .decode | .verify | .sum8 | .hchk | .crc8 | .crc16 => true
  | .send | .recv | .flushRx | .flushTx | .flushAll | .hsStart | .hsSkip => true
  | .delim | .esc | .escDelim | .escEsc | .start | .ack | .ispStart | .ispReady => true
  | .readRegister _ | .writeRegister _ _ | .getFlashId | .eraseSecureOtpPage => true
  | .verifyBootloaderSignature | .requestSecureDebug => true

end Sys2Proof
end

