-- ==== Sys2Proof/Decode.lean ====
section
/-! DEFINITION. The decoder, total on any bytes and rejecting by name, the encoder written from the same tables
(30_encoding.md R91, R95, R97, R100; 44_wire_commands.md R210 to R220), and the notation of a bus access as a
transaction word (30_encoding.md R106). -/

namespace Sys2Proof

open Machine (crc8 bytesOfNat otpAddrChk)

/-- Bits 15:8 of a 16-bit value (00_scope.md R9). -/
def hi8 (v : Half) : Byte := v.extractLsb' 8 8

/-- Bits 7:0 of a 16-bit value. -/
def lo8 (v : Half) : Byte := v.extractLsb' 0 8

/-- The 16-bit value of a high and a low byte, `HI·256 + LO` (30_encoding.md R92). -/
def ofHiLo (hi lo : Byte) : Half := hi ++ lo

/-- `be16(v)`: big-endian, high byte first (00_scope.md R9). -/
def be16 (v : Half) : List Byte := [hi8 v, lo8 v]

/-- `le32(v)`: little-endian (44_wire_commands.md, opening paragraph). -/
def le32 (v : Word) : List Byte := [v.extractLsb' 0 8, v.extractLsb' 8 8, v.extractLsb' 16 8, v.extractLsb' 24 8]

/-- The number of little-endian bytes. -/
def natOfBytes : List Byte → Nat
  | [] => 0
  | b :: bs => b.toNat + 256 * natOfBytes bs

/-- Why bytes are not an instruction of a format. -/
inductive Reject where
  /-- No byte is there. -/
  | empty
  /-- A CMD value outside 30_encoding.md R91 (R93): the block answers it with ERR_BAD_OP. -/
  | reservedOp (v : Byte)
  /-- Not one handshake byte of 30_encoding.md R100. -/
  | notHandshakeByte
  /-- Not one stuffing code of 30_encoding.md R97. -/
  | notWireSymbol
  /-- A raw frame that does not begin with 0x52 (30_encoding.md R95). -/
  | notHeader
  /-- A wire opcode outside 30_encoding.md R102; the block carries its payload all the same (44_wire_commands.md R223). -/
  | unlistedWireOp (v : Byte)
  /-- The bytes are not as many as the format's fields take. -/
  | badLength
  /-- A fixed field does not hold its value (44_wire_commands.md R218), or a payload's CRC-8 (R215, R219) or address
  checksum (R219, R220) is wrong. -/
  | badField
deriving DecidableEq, Repr

/-- The operation codes (30_encoding.md R91); every other value is reserved (R93). -/
def decodeCmd (v : Byte) : Except Reject Instr :=
  match v with
  | 0x00 => .ok .nop
  | 0x01 => .ok .build
  | 0x02 => .ok .encode
  | 0x03 => .ok .frame
  | 0x04 => .ok .decode
  | 0x05 => .ok .verify
  | 0x08 => .ok .sum8
  | 0x09 => .ok .hchk
  | 0x0A => .ok .crc8
  | 0x0B => .ok .crc16
  | 0x10 => .ok .send
  | 0x11 => .ok .recv
  | 0x12 => .ok .flushRx
  | 0x13 => .ok .flushTx
  | 0x14 => .ok .flushAll
  | 0x20 => .ok .hsStart
  | 0x21 => .ok .hsSkip
  | v => .error (.reservedOp v)

/-- The handshake bytes (30_encoding.md R100). -/
def decodeHsByte (v : Byte) : Except Reject Instr :=
  match v with
  | 0xAA => .ok .start
  | 0x55 => .ok .ack
  | 0x69 => .ok .ispStart
  | 0x6A => .ok .ispReady
  | _ => .error .notHandshakeByte

/-- The stuffing codes (30_encoding.md R97). -/
def decodeWireSym (v : Byte) : Except Reject Instr :=
  match v with
  | 0xC0 => .ok .delim
  | 0xDB => .ok .esc
  | 0xDC => .ok .escDelim
  | 0xDD => .ok .escEsc
  | _ => .error .notWireSymbol

/-- A raw frame (30_encoding.md R95): its length field must be its payload's length (R96). The checksum and the CRC
are read as they stand (R103). -/
def decodeRaw : List Byte → Except Reject Instr
  | h :: seq :: lenHi :: lenLo :: chk :: rest =>
    if h = 0x52 then
      let len := ofHiLo lenHi lenLo
      match rest.drop len.toNat with
      | [crcHi, crcLo] => .ok (.frameHeader seq len chk (rest.take len.toNat) (ofHiLo crcHi crcLo))
      | _ => .error .badLength
    else .error .notHeader
  | h :: _ => if h = 0x52 then .error .badLength else .error .notHeader
  | [] => .error .empty

/-- The four bytes of a little-endian 32-bit value. -/
def ofLe32 (b0 b1 b2 b3 : Byte) : Word := b3 ++ b2 ++ b1 ++ b0

/-- "4 fixed bytes identifying this exchange" (44_wire_commands.md R218). -/
def clientData : List Byte := [0x52, 0x00, 0x00, 0x01]

/-- 0x01 read register (44_wire_commands.md R211). -/
def decodeReadRegister : List Byte → Except Reject Instr
  | [a0, a1, a2, a3] => .ok (.readRegister (ofLe32 a0 a1 a2 a3))
  | _ => .error .badLength

/-- 0x02 write register (44_wire_commands.md R212). -/
def decodeWriteRegister : List Byte → Except Reject Instr
  | [a0, a1, a2, a3, v0, v1, v2, v3] => .ok (.writeRegister (ofLe32 a0 a1 a2 a3) (ofLe32 v0 v1 v2 v3))
  | _ => .error .badLength

/-- A command with no parameter bytes (44_wire_commands.md R213, R214, R216, R217). -/
def decodeBare (i : Instr) : List Byte → Except Reject Instr
  | [] => .ok i
  | _ => .error .badLength

/-- 0x09 legacy key write (44_wire_commands.md R215): bytes before, key/value bytes, CRC8 of the key/value bytes. -/
def decodeLegacy (L : WireLayout) (ps : List Byte) : Except Reject Instr :=
  if ps.length ≤ L.legacyBefore ∨ maxPayload < ps.length + 1 then .error .badLength
  else
    let rest := ps.drop L.legacyBefore
    if rest.getLast? = some (crc8 rest.dropLast) then .ok (.legacyKeyWrite (ps.take L.legacyBefore) rest.dropLast)
    else .error .badField

/-- 0x10 send challenge response (44_wire_commands.md R218). -/
def decodeChallenge (ps : List Byte) : Except Reject Instr :=
  if ps.length ≠ 68 then .error .badLength
  else if ps.take 4 = clientData then .ok (.sendChallengeResponse ((ps.drop 4).take 32) (ps.drop 36))
  else .error .badField

/-- 0x11 write OTP register (44_wire_commands.md R219): option, address checksum, offset, value, CRC8 of the value. -/
def decodeOtpRegister (L : WireLayout) : List Byte → Except Reject Instr
  | option :: chk :: ps =>
    if ps.length ≤ L.otpRegister.offsetBytes ∨ maxPayload < ps.length + 3 then .error .badLength
    else
      let offset := ps.take L.otpRegister.offsetBytes
      let rest := ps.drop L.otpRegister.offsetBytes
      if rest.getLast? = some (crc8 rest.dropLast) ∧ chk = otpAddrChk L.otpRegister 0x11 option offset rest.dropLast then
        .ok (.writeOtpRegister option chk (natOfBytes offset) rest.dropLast)
      else .error .badField
  | _ => .error .badLength

/-- 0x12 write OTP key (44_wire_commands.md R220): option, address checksum, offset, 64 key bytes. -/
def decodeOtpKey (L : WireLayout) : List Byte → Except Reject Instr
  | option :: chk :: ps =>
    if ps.length ≠ L.otpKey.offsetBytes + 64 ∨ maxPayload < ps.length + 3 then .error .badLength
    else
      let offset := ps.take L.otpKey.offsetBytes
      let key := ps.drop L.otpKey.offsetBytes
      if chk = otpAddrChk L.otpKey 0x12 option offset key then .ok (.writeOtpKey option chk (natOfBytes offset) key)
      else .error .badField
  | _ => .error .badLength

/-- A command payload (44_wire_commands.md R210): the opcode byte, then the parameters. -/
def decodeWireCmd (L : WireLayout) : List Byte → Except Reject Instr
  | [] => .error .empty
  | v :: ps =>
    match v with
    | 0x01 => decodeReadRegister ps
    | 0x02 => decodeWriteRegister ps
    | 0x04 => decodeBare .getFlashId ps
    | 0x08 => decodeBare .eraseSecureOtpPage ps
    | 0x09 => decodeLegacy L ps
    | 0x0E => decodeBare .verifyBootloaderSignature ps
    | 0x0F => decodeBare .requestSecureDebug ps
    | 0x10 => decodeChallenge ps
    | 0x11 => decodeOtpRegister L ps
    | 0x12 => decodeOtpKey L ps
    | v => .error (.unlistedWireOp v)

/-- A decoder of one byte, applied to a byte string. -/
def decodeSingle (f : Byte → Except Reject Instr) : List Byte → Except Reject Instr
  | [] => .error .empty
  | [b] => f b
  | _ => .error .badLength

/-- The decoder: the instruction that a byte string is in a format. -/
def decode (L : WireLayout) (f : Format) (bs : List Byte) : Except Reject Instr :=
  match f with
  | .cmd8 => decodeSingle decodeCmd bs
  | .hsByte => decodeSingle decodeHsByte bs
  | .data .wireSym => decodeSingle decodeWireSym bs
  | .data .rawHdr => decodeRaw bs
  | .data .wireCmd => decodeWireCmd L bs

/-- The encoder: the bytes of an instruction (30_encoding.md R91, R95, R97, R100; 44_wire_commands.md R211 to R220). Only
the OTP commands depend on the layout. -/
def encode (L : WireLayout) : Instr → List Byte
  | .nop => [0x00]
  | .build => [0x01]
  | .encode => [0x02]
  | .frame => [0x03]
  | .decode => [0x04]
  | .verify => [0x05]
  | .sum8 => [0x08]
  | .hchk => [0x09]
  | .crc8 => [0x0A]
  | .crc16 => [0x0B]
  | .send => [0x10]
  | .recv => [0x11]
  | .flushRx => [0x12]
  | .flushTx => [0x13]
  | .flushAll => [0x14]
  | .hsStart => [0x20]
  | .hsSkip => [0x21]
  | .frameHeader seq len chk payload crc => [0x52, seq] ++ be16 len ++ [chk] ++ payload ++ be16 crc
  | .delim => [0xC0]
  | .esc => [0xDB]
  | .escDelim => [0xDC]
  | .escEsc => [0xDD]
  | .start => [0xAA]
  | .ack => [0x55]
  | .ispStart => [0x69]
  | .ispReady => [0x6A]
  | .readRegister address => 0x01 :: le32 address
  | .writeRegister address value => 0x02 :: (le32 address ++ le32 value)
  | .getFlashId => [0x04]
  | .eraseSecureOtpPage => [0x08]
  | .legacyKeyWrite before kv => 0x09 :: (before ++ (kv ++ [crc8 kv]))
  | .verifyBootloaderSignature => [0x0E]
  | .requestSecureDebug => [0x0F]
  | .sendChallengeResponse r s => 0x10 :: (clientData ++ r ++ s)
  | .writeOtpRegister option addrChk offset value =>
    0x11 :: option :: addrChk :: (bytesOfNat L.otpRegister.offsetBytes offset ++ (value ++ [crc8 value]))
  | .writeOtpKey option addrChk offset key =>
    0x12 :: option :: addrChk :: (bytesOfNat L.otpKey.offsetBytes offset ++ key)

/-- How many bytes the shortest instruction has that begins with this byte, in a format: the bits the opcode table
does not give are zero bytes up to here. -/
def shortest (f : Format) (v : Byte) : Nat :=
  match f with
  | .data .rawHdr => 7
  | .data .wireCmd => if v = 0x01 then 5 else if v = 0x02 then 9 else 1
  | _ => 1

/-- A byte string filled up with zero bytes to a length. -/
def padTo (n : Nat) (bs : List Byte) : List Byte := bs ++ List.replicate (n - bs.length) 0x00

/-- The instruction that a table word is in one format. -/
def decodePadded (f : Format) (bs : List Byte) : Option Instr :=
  match decode Config.wireLayout f (padTo (shortest f (bs.headD 0x00)) bs) with
  | .ok i => some i
  | .error _ => none

/-- The instruction the decoder reads from a table word. The formats are separate code spaces (30_encoding.md, opening
paragraph), and a word names none: the first format that accepts it is taken, CMD8 before all others (log 10). -/
def decodeTableWord (nbits w : Nat) : Option Instr :=
  let bs := bytesOfNat (nbits / 8) w
  (decodePadded .cmd8 bs).or <| (decodePadded (.data .rawHdr) bs).or <| (decodePadded (.data .wireSym) bs).or <|
    (decodePadded .hsByte bs).or <| decodePadded (.data .wireCmd) bs

/-- One bus access of a host program (30_encoding.md R104). -/
inductive Access where
  | rd (addr : Half)
  | wr (addr : Half) (v : Byte)
deriving DecidableEq, Repr

/-- The 25-bit transaction word `we[24] | addr[23:8] | data[7:0]` (30_encoding.md R106). -/
def encodeAccess : Access → BitVec 25
  | .rd addr => 0#1 ++ addr ++ 0#8
  | .wr addr v => 1#1 ++ addr ++ v

/-- The access a transaction word writes down (30_encoding.md R106): data is 0 for a read. -/
def decodeAccess (t : BitVec 25) : Option Access :=
  if t.getLsbD 24 then some (.wr (t.extractLsb' 8 16) (t.extractLsb' 0 8))
  else if t.extractLsb' 0 8 = 0#8 then some (.rd (t.extractLsb' 8 16))
  else none

end Sys2Proof
end

