-- ==== Sys2Proof/Machine/Frame.lean ====
section
/-! DEFINITION. The frame codec as pure functions on byte strings: BuildRaw, Encode, Decode and Verify
(41_frame_codec.md R142, R144, R148, R155). -/

namespace Sys2Proof.Machine

/-- The header byte of every raw frame (30_encoding.md R95). -/
def headerByte : Byte := 0x52
/-- DELIM (30_encoding.md R97). -/
def delimByte : Byte := 0xC0
/-- ESC (30_encoding.md R97). -/
def escByte : Byte := 0xDB
/-- ESC_DELIM (30_encoding.md R97). -/
def escDelimByte : Byte := 0xDC
/-- ESC_ESC (30_encoding.md R97). -/
def escEscByte : Byte := 0xDD

/-- `pre || [h] || p`: the raw frame less its CRC (41_frame_codec.md R142). -/
def frameHead (v : HdrVariant) (seq : Byte) (p : List Byte) : List Byte :=
  let len := be16 (BitVec.ofNat 16 p.length)
  [headerByte, seq] ++ len ++ [headerChecksum v (seq :: len)] ++ p

/-- BuildRaw(seq, p) (41_frame_codec.md R142, 30_encoding.md R95). -/
def buildRaw (v : HdrVariant) (seq : Byte) (p : List Byte) : List Byte :=
  frameHead v seq p ++ be16 (crc16 (frameHead v seq p))

/-- `esc(b)` (30_encoding.md R98). -/
def escapeByte (b : Byte) : List Byte :=
  if b = delimByte then [escByte, escDelimByte] else if b = escByte then [escByte, escEscByte] else [b]

/-- The escaped bytes of a string. -/
def escape (bs : List Byte) : List Byte := bs.flatMap escapeByte

/-- Encode(r): the first byte raw, the others escaped, between two delimiters (41_frame_codec.md R144). -/
def wireEncode : List Byte → List Byte
  | [] => [delimByte, delimByte]
  | b :: bs => delimByte :: b :: (escape bs ++ [delimByte])

/-- Put a byte before a decoded string. -/
def consDecoded (b : Byte) : Except ErrCode (List Byte) → Except ErrCode (List Byte)
  | .ok r => .ok (b :: r)
  | .error e => .error e

/-- The loop of Decode over the body from index 1 on (41_frame_codec.md R148): the error at the lowest position wins
(R150). -/
def unescape : List Byte → Except ErrCode (List Byte)
  | [] => .ok []
  | [b] =>
    if b = delimByte then .error .decRawFend else if b = escByte then .error .decTruncEsc else .ok [b]
  | b :: c :: rest =>
    if b = delimByte then .error .decRawFend
    else if b = escByte then
      if c = escDelimByte then consDecoded delimByte (unescape rest)
      else if c = escEscByte then consDecoded escByte (unescape rest)
      else .error .decBadEsc
    else consDecoded b (unescape (c :: rest))

/-- The body of a wire frame, byte 0 copied raw (41_frame_codec.md R148, 90_conflicts.md C2). -/
def decodeBody : List Byte → Except ErrCode (List Byte)
  | [] => .ok []
  | b :: bs => consDecoded b (unescape bs)

/-- Decode(w) (41_frame_codec.md R148). -/
def wireDecode (w : List Byte) : Except ErrCode (List Byte) :=
  if w.length < 2 ∨ w.head? ≠ some delimByte ∨ w.getLast? ≠ some delimByte then .error .decDelim
  else decodeBody (w.drop 1).dropLast

/-- Verify(f) (41_frame_codec.md R155, 10_state.md R38). -/
def verifyFrame (v : HdrVariant) (f : List Byte) : VFlags :=
  let n := f.length
  if n < 7 then VFlags.zero
  else
    let hdr := decide (f.getD 0 0 = headerByte)
    let hchk := decide (f.getD 4 0 = headerChecksum v ((f.drop 1).take 3))
    let len := decide ((f.getD 2 0).toNat * 256 + (f.getD 3 0).toNat = n - 7)
    let crc := decide ((f.getD (n - 2) 0).toNat * 256 + (f.getD (n - 1) 0).toNat = (crc16 (f.take (n - 2))).toNat)
    { hdrOk := hdr, hchkOk := hchk, lenOk := len, crcOk := crc, allOk := hdr && hchk && len && crc, sizeOk := true }

end Sys2Proof.Machine
end

