-- ==== Sys2Proof/Machine/Codec.lean ====
section
/-! DEFINITION. The frame codec family: NOP, BUILD, ENCODE, FRAME, DECODE, VERIFY (41_frame_codec.md). Each is one
atomic block step (10_state.md R48). -/

namespace Sys2Proof.Machine

/-- NOP: do nothing (41_frame_codec.md R153). -/
def execNop (s : State) : Result := .next (complete .none s)

/-- BUILD: the raw frame of the payload IN[0..IN_LEN) with sequence SEQ (41_frame_codec.md R143). -/
def execBuild (s : State) : Result :=
  withInput (fun xs t => commit .none (buildRaw t.cfg.hdrVariant t.seq xs) t) s

/-- ENCODE: escape and delimit IN[0..IN_LEN) (41_frame_codec.md R145). -/
def execEncode (s : State) : Result := withInput (fun xs t => commit .none (wireEncode xs) t) s

/-- FRAME: build and encode in one operation (41_frame_codec.md R147). -/
def execFrame (s : State) : Result :=
  withInput (fun xs t => commit .none (wireEncode (buildRaw t.cfg.hdrVariant t.seq xs)) t) s

/-- The code of a verification: ERR_VERIFY unless every check passed (41_frame_codec.md R152, R154). -/
def verifyCode (v : VFlags) : ErrCode := if v.allOk then .none else .verify

/-- DECODE's end on the decoded bytes `r` (41_frame_codec.md R151, R152): without VERIFY_EN, VFLAGS is cleared; with it,
VFLAGS gets the verification. The bytes are committed in both cases. -/
def decodeOk (r : List Byte) (s : State) : State :=
  if s.verifyEn then
    let flags := verifyFrame s.cfg.hdrVariant r
    commit (verifyCode flags) r { s with vflags := flags }
  else commit .none r { s with vflags := VFlags.zero }

/-- DECODE: strip delimiters and unescape IN[0..IN_LEN), optionally verifying (41_frame_codec.md R151, R152). -/
def execDecode (s : State) : Result :=
  withInput
    (fun xs t =>
      match wireDecode xs with
      | .error e => complete e t
      | .ok r => decodeOk r t)
    s

/-- VERIFY: check the raw frame IN[0..IN_LEN) (41_frame_codec.md R154). -/
def execVerify (s : State) : Result :=
  withInput
    (fun xs t =>
      let flags := verifyFrame t.cfg.hdrVariant xs
      complete (verifyCode flags) { t with vflags := flags })
    s

end Sys2Proof.Machine
end

