-- ==== Sys2Proof/Machine/Handshake.lean ====
section
/-! DEFINITION. The handshake family: HS_START and HS_SKIP (42_handshake.md), and the four handshake bytes
(30_encoding.md R100, R101) as the steps that send or receive them (log 9). -/

namespace Sys2Proof.Machine

/-- START, "first-phase probe" (30_encoding.md R100). -/
def startByte : Byte := 0xAA
/-- ACK, "first-phase reply" (30_encoding.md R100). -/
def ackByte : Byte := 0x55
/-- ISP_START, "second-phase request" (30_encoding.md R100). -/
def ispStartByte : Byte := 0x69
/-- ISP_READY, "second-phase reply" (30_encoding.md R100). -/
def ispReadyByte : Byte := 0x6A

/-- The EXEC step of HS_START (42_handshake.md R173). -/
def hsBegin (s : State) : State :=
  if s.hsState ≠ .idle then complete .hsState s else { s with hsAtt := 0, phase := .hsCheck }

/-- HS_CHECK: success, budget exhaustion, or the start of an attempt, in this order (42_handshake.md R173, R176, R177). -/
def hsCheck (s : State) : State :=
  if s.hsState = .ispReady then complete .none s
  else if s.hsAtt = s.hsMax then complete .hsTimeout { s with hsState := .failed }
  else
    { s with
      hsAtt := s.hsAtt + 1
      phase := if s.hsState = .idle ∨ s.cfg.hsFlushAck then .hsResetIn else .hsWrite }

/-- HS_RESET_IN (42_handshake.md R173). -/
def hsReset (s : State) : State := tResetIn (fun t => { t with phase := .hsWrite }) s

/-- The sending of one handshake byte: a single-byte `T.write` (30_encoding.md R101, 42_handshake.md R173). -/
def hsSend (b : Byte) (s : State) : State := tWrite [b] (fun t => { t with phase := .hsRead }) s

/-- HS_WRITE: START in IDLE, ISP_START otherwise (42_handshake.md R170, R173). -/
def hsWrite (s : State) : State := hsSend (if s.hsState = .idle then startByte else ispStartByte) s

/-- What a reply does to the handshake state: compared exactly, anything else keeps the state (42_handshake.md R171,
R174, R175). -/
def hsAdvance (st : HsState) (reply : List Byte) : HsState :=
  match st with
  | .idle => if reply = [ackByte] then .ackReceived else .idle
  | .ackReceived => if reply = [ispReadyByte] then .ispReady else .ackReceived
  | .ispReady => .ispReady
  | .failed => .failed

/-- The end of HS_READ once the read is answered (42_handshake.md R173, R178). -/
def hsReceive (r : Option (List Byte)) (s : State) : State :=
  tReply 1 (s.hsTmo.setWidth 16) r (fun bs t => { t with hsState := hsAdvance t.hsState bs, phase := .hsCheck }) s

/-- HS_READ: `T.read(1, HS_TMO)` (42_handshake.md R173). -/
def hsRead (s : State) : State := hsReceive (readReply 1 (nextAnswer s)) (dropAnswer s)

/-- HS_START: run the handshake, one item of its step sequence a block step (42_handshake.md R172, R173). The phases
READY and T_CALL are not reached in flight and take the first step (log 7). -/
def execHsStart (s : State) : Result :=
  match s.phase with
  | .hsCheck => .next (hsCheck s)
  | .hsResetIn => .next (hsReset s)
  | .hsWrite => .next (hsWrite s)
  | .hsRead => .next (hsRead s)
  | .ready | .exec | .tCall => .next (hsBegin s)

/-- HS_SKIP: treat the link as already synchronised (42_handshake.md R180). -/
def execHsSkip (s : State) : Result :=
  if s.hsState ≠ .idle then .next (complete .hsState s)
  else .next (complete .none { s with hsState := .ispReady })

/-- START, block → device: the byte is sent, and the attempt goes on to its read (30_encoding.md R100, 42_handshake.md
R174). -/
def execStart (s : State) : Result := .next (hsSend startByte s)

/-- ACK, device → block: the attempt's read is answered with this byte; IDLE becomes ACK_RECEIVED (30_encoding.md R100,
42_handshake.md R174). -/
def execAck (s : State) : Result := .next (hsReceive (some [ackByte]) s)

/-- ISP_START, block → device (30_encoding.md R100, 42_handshake.md R175). -/
def execIspStart (s : State) : Result := .next (hsSend ispStartByte s)

/-- ISP_READY, device → block: ACK_RECEIVED becomes ISP_READY (30_encoding.md R100, 42_handshake.md R175). -/
def execIspReady (s : State) : Result := .next (hsReceive (some [ispReadyByte]) s)

end Sys2Proof.Machine
end

