-- ==== Sys2Proof/Machine/Transport.lean ====
section
/-! DEFINITION. The transport family: SEND, RECV, FLUSH_RX, FLUSH_TX, FLUSH_ALL (43_transport_ops.md). The first block
step completes or moves to T_CALL; the step from T_CALL makes the call (10_state.md R48). A phase that is neither EXEC
nor T_CALL is not reached in flight and takes the first step (log 7). -/

namespace Sys2Proof.Machine

/-- The first step of SEND (43_transport_ops.md R190, R191). -/
def sendFirst (s : State) : State :=
  if s.hsState ≠ .ispReady then complete .notReady s
  else if s.outLen = 0 then complete .none s
  else { s with phase := .tCall }

/-- The call step of SEND: `T.write(OUT[0..OUT_LEN))` (43_transport_ops.md R191). An unwritten byte there is not
reached (R191); it would be the model fault UNINIT_READ (log 15). -/
def sendCall (s : State) : Result :=
  match outBytes s with
  | none => .fault .uninitRead
  | some bs => .next (tWrite bs (complete .none) s)

/-- SEND: transmit the wire frame in OUT_BUF (43_transport_ops.md R191). -/
def execSend (s : State) : Result :=
  match s.phase with
  | .tCall => sendCall s
  | .ready | .exec | .hsCheck | .hsResetIn | .hsWrite | .hsRead => .next (sendFirst s)

/-- The first step of RECV (43_transport_ops.md R190, R193). -/
def recvFirst (s : State) : State :=
  if s.hsState ≠ .ispReady then complete .notReady s
  else if s.cfg.bufDepth < s.rxReq.toNat then complete .rxReq s
  else if s.rxReq = 0 then complete .none { s with inLen := 0 }
  else { s with phase := .tCall }

/-- The received bytes go to IN_BUF and their number to IN_LEN (43_transport_ops.md R193). -/
def recvStore (bs : List Byte) (s : State) : State :=
  complete .none { s with inBuf := storeBytes s.inBuf 0 bs, inLen := BitVec.ofNat 16 bs.length }

/-- The call step of RECV: `T.read(RX_REQ, RX_TMO)` (43_transport_ops.md R193). -/
def recvCall (s : State) : State := tRead s.rxReq.toNat s.rxTmo recvStore s

/-- RECV: read up to RX_REQ bytes into IN_BUF (43_transport_ops.md R193). -/
def execRecv (s : State) : Result :=
  match s.phase with
  | .tCall => .next (recvCall s)
  | .ready | .exec | .hsCheck | .hsResetIn | .hsWrite | .hsRead => .next (recvFirst s)

/-- The two steps of a FLUSH operation: to T_CALL, then its call (43_transport_ops.md R194 to R196). -/
def flushOp (call : State → State) (s : State) : Result :=
  match s.phase with
  | .tCall => .next (call s)
  | .ready | .exec | .hsCheck | .hsResetIn | .hsWrite | .hsRead => .next { s with phase := .tCall }

/-- FLUSH_RX: reset the transport's input buffer (43_transport_ops.md R194). -/
def execFlushRx (s : State) : Result := flushOp (tResetIn (complete .none)) s

/-- FLUSH_TX: reset the transport's output buffer (43_transport_ops.md R195). -/
def execFlushTx (s : State) : Result := flushOp (tResetOut (complete .none)) s

/-- FLUSH_ALL: reset both transport buffers, input first, in one block step (43_transport_ops.md R196). -/
def execFlushAll (s : State) : Result := flushOp (tResetIn (tResetOut (complete .none))) s

end Sys2Proof.Machine
end

