-- ==== Sys2Proof/Machine/Flags.lean ====
section
/-! DEFINITION. The numbers of the named codes and states, and the bytes the host reads of STATUS, VFLAGS and CFG
(10_state.md R25, R29, R38, R39; 60_exceptions.md R230). -/

namespace Sys2Proof.Machine

/-- The error codes' numbers (60_exceptions.md R230). -/
def ErrCode.code : ErrCode → Byte
  | .none => 0x00
  | .badOp => 0x01
  | .inLen => 0x02
  | .outOvf => 0x03
  | .rxReq => 0x04
  | .decDelim => 0x10
  | .decRawFend => 0x11
  | .decBadEsc => 0x12
  | .decTruncEsc => 0x13
  | .verify => 0x14
  | .notReady => 0x20
  | .hsState => 0x21
  | .hsTimeout => 0x22
  | .transport => 0x30

/-- The handshake states' numbers (10_state.md R29). -/
def HsState.code : HsState → Byte
  | .idle => 0x00
  | .ackReceived => 0x01
  | .ispReady => 0x02
  | .failed => 0x03

/-- A flag as a byte with bit `n` set or clear. -/
def flagBit (b : Bool) (n : Nat) : Byte := if b then 1#8 <<< n else 0#8

/-- STATUS as the host reads it: BUSY, DONE, ERR, OVR and the view HS_READY (10_state.md R25). -/
def statusByte (s : State) : Byte :=
  flagBit s.busy 0 ||| flagBit s.done 1 ||| flagBit s.err 2 ||| flagBit s.ovr 3 |||
    flagBit (s.hsState = .ispReady) 4

/-- VFLAGS as the host reads it (10_state.md R38, 41_frame_codec.md R155). -/
def VFlags.toByte (v : VFlags) : Byte :=
  flagBit v.hdrOk 0 ||| flagBit v.hchkOk 1 ||| flagBit v.lenOk 2 ||| flagBit v.crcOk 3 ||| flagBit v.allOk 4 |||
    flagBit v.sizeOk 5

/-- CFG as the host reads it: HDR_CHK_VARIANT (0 = TWOS, 1 = ONES) and HS_FLUSH_ACK (10_state.md R39). -/
def cfgByte (c : Config) : Byte := flagBit (c.hdrVariant = .ones) 0 ||| flagBit c.hsFlushAck 1

/-- DEPTH: BUF_DEPTH as a 16-bit value (10_state.md R40). -/
def depthHalf (c : Config) : Half := BitVec.ofNat 16 c.bufDepth

end Sys2Proof.Machine
end

