-- ==== Sys2Proof/Machine/Registers.lean ====
section
/-! DEFINITION. The host address space: the register map (10_state.md R23 to R41), the buffers' windows
(20_memory.md R61), one-byte reads and writes (R62), and LDIN (30_encoding.md R105). -/

namespace Sys2Proof.Machine

/-- The registers of the map (10_state.md R23). -/
inductive Reg where
  | cmd
  | status
  | errcode
  | ctrl
  | seq
  | hsState
  | hsAttLo
  | hsAttHi
  | hsMaxLo
  | hsMaxHi
  | hsTmo
  | rxTmoLo
  | rxTmoHi
  | rxReqLo
  | rxReqHi
  | inLenLo
  | inLenHi
  | outLenLo
  | outLenHi
  | resultLo
  | resultHi
  | vflags
  | cfg
  | depthLo
  | depthHi
deriving DecidableEq, Repr

/-- A register's host address (10_state.md R23). -/
def Reg.addr : Reg → Half
  | .cmd => 0x0000
  | .status => 0x0001
  | .errcode => 0x0002
  | .ctrl => 0x0003
  | .seq => 0x0004
  | .hsState => 0x0005
  | .hsAttLo => 0x0006
  | .hsAttHi => 0x0007
  | .hsMaxLo => 0x0008
  | .hsMaxHi => 0x0009
  | .hsTmo => 0x000A
  | .rxTmoLo => 0x000C
  | .rxTmoHi => 0x000D
  | .rxReqLo => 0x000E
  | .rxReqHi => 0x000F
  | .inLenLo => 0x0010
  | .inLenHi => 0x0011
  | .outLenLo => 0x0012
  | .outLenHi => 0x0013
  | .resultLo => 0x0014
  | .resultHi => 0x0015
  | .vflags => 0x0016
  | .cfg => 0x0017
  | .depthLo => 0x0018
  | .depthHi => 0x0019

/-- The register at an address of 0x0000..0x00FF, or none where it is reserved (10_state.md R23, R41). -/
def regAt (a : Half) : Option Reg :=
  match a with
  | 0x0000 => some .cmd
  | 0x0001 => some .status
  | 0x0002 => some .errcode
  | 0x0003 => some .ctrl
  | 0x0004 => some .seq
  | 0x0005 => some .hsState
  | 0x0006 => some .hsAttLo
  | 0x0007 => some .hsAttHi
  | 0x0008 => some .hsMaxLo
  | 0x0009 => some .hsMaxHi
  | 0x000A => some .hsTmo
  | 0x000C => some .rxTmoLo
  | 0x000D => some .rxTmoHi
  | 0x000E => some .rxReqLo
  | 0x000F => some .rxReqHi
  | 0x0010 => some .inLenLo
  | 0x0011 => some .inLenHi
  | 0x0012 => some .outLenLo
  | 0x0013 => some .outLenHi
  | 0x0014 => some .resultLo
  | 0x0015 => some .resultHi
  | 0x0016 => some .vflags
  | 0x0017 => some .cfg
  | 0x0018 => some .depthLo
  | 0x0019 => some .depthHi
  | _ => none

/-- The busy-guarded registers: a host write while BUSY = 1 is dropped and sets OVR (10_state.md R23). -/
def Reg.busyGuarded : Reg → Bool
  | .cmd | .ctrl | .seq | .hsMaxLo | .hsMaxHi | .hsTmo | .rxTmoLo | .rxTmoHi | .rxReqLo | .rxReqHi => true
  | .inLenLo | .inLenHi => true
  | .status | .errcode | .hsState | .hsAttLo | .hsAttHi | .outLenLo | .outLenHi | .resultLo | .resultHi => false
  | .vflags | .cfg | .depthLo | .depthHi => false

/-- A 16-bit register with its low byte replaced (20_memory.md R66). -/
def setLo (w : Half) (v : Byte) : Half := ofHiLo (hi8 w) v
/-- A 16-bit register with its high byte replaced (20_memory.md R66). -/
def setHi (w : Half) (v : Byte) : Half := ofHiLo v (lo8 w)

/-- What the host reads of a register (10_state.md R24 to R40). -/
def readReg (r : Reg) (s : State) : Byte :=
  match r with
  | .cmd => 0x00
  | .status => statusByte s
  | .errcode => s.errcode.code
  | .ctrl => flagBit s.verifyEn 0
  | .seq => s.seq
  | .hsState => s.hsState.code
  | .hsAttLo => lo8 s.hsAtt
  | .hsAttHi => hi8 s.hsAtt
  | .hsMaxLo => lo8 s.hsMax
  | .hsMaxHi => hi8 s.hsMax
  | .hsTmo => s.hsTmo
  | .rxTmoLo => lo8 s.rxTmo
  | .rxTmoHi => hi8 s.rxTmo
  | .rxReqLo => lo8 s.rxReq
  | .rxReqHi => hi8 s.rxReq
  | .inLenLo => lo8 s.inLen
  | .inLenHi => hi8 s.inLen
  | .outLenLo => lo8 s.outLen
  | .outLenHi => hi8 s.outLen
  | .resultLo => lo8 s.result
  | .resultHi => hi8 s.result
  | .vflags => s.vflags.toByte
  | .cfg => cfgByte s.cfg
  | .depthLo => lo8 (depthHalf s.cfg)
  | .depthHi => hi8 (depthHalf s.cfg)

/-- A host write that is not dropped (10_state.md R24 to R41): writes to RO registers are ignored, STATUS bit 3 is
W1C, reserved bits are ignored. -/
def writeRegNow (r : Reg) (v : Byte) (s : State) : State :=
  match r with
  | .cmd => accept v s
  | .status => if v.getLsbD 3 then { s with ovr := false } else s
  | .ctrl => { s with verifyEn := v.getLsbD 0 }
  | .seq => { s with seq := v }
  | .hsMaxLo => { s with hsMax := setLo s.hsMax v }
  | .hsMaxHi => { s with hsMax := setHi s.hsMax v }
  | .hsTmo => { s with hsTmo := v }
  | .rxTmoLo => { s with rxTmo := setLo s.rxTmo v }
  | .rxTmoHi => { s with rxTmo := setHi s.rxTmo v }
  | .rxReqLo => { s with rxReq := setLo s.rxReq v }
  | .rxReqHi => { s with rxReq := setHi s.rxReq v }
  | .inLenLo => { s with inLen := setLo s.inLen v }
  | .inLenHi => { s with inLen := setHi s.inLen v }
  | .errcode | .hsState | .hsAttLo | .hsAttHi | .outLenLo | .outLenHi | .resultLo | .resultHi => s
  | .vflags | .cfg | .depthLo | .depthHi => s

/-- A dropped write: no effect but OVR (10_state.md R47). -/
def dropWrite (s : State) : State := { s with ovr := true }

/-- A host write to a register: dropped if the register is busy-guarded and BUSY = 1 (10_state.md R23, R47). -/
def writeReg (r : Reg) (v : Byte) (s : State) : State :=
  if r.busyGuarded && s.busy then dropWrite s else writeRegNow r v s

/-- What a host address stands for (20_memory.md R61). -/
inductive Place where
  /-- A register. -/
  | reg (r : Reg)
  /-- Byte `i` of IN_BUF. -/
  | inByte (i : Nat)
  /-- Byte `i` of OUT_BUF. -/
  | outByte (i : Nat)
  /-- A reserved register address, or an unmapped one: reads 0x00, writes ignored (20_memory.md R63). -/
  | none
deriving DecidableEq, Repr

/-- The host address map (20_memory.md R61). -/
def placeOf (c : Config) (a : Half) : Place :=
  let n := a.toNat
  if n < 0x4000 then
    match regAt a with
    | some r => .reg r
    | Option.none => .none
  else if n < 0x8000 then (if n - 0x4000 < c.bufDepth then .inByte (n - 0x4000) else .none)
  else if n - 0x8000 < c.bufDepth then .outByte (n - 0x8000) else .none

/-- MemRead(a, 1): the byte, or nothing if it is an unwritten buffer byte (20_memory.md R62, R63). -/
def hostRead (a : Half) (s : State) : Option Byte :=
  match placeOf s.cfg a with
  | .reg r => some (readReg r s)
  | .inByte i => memGet s.inBuf i
  | .outByte i => memGet s.outBuf i
  | .none => some 0x00

/-- A host write to byte `i` of IN_BUF (10_state.md R42). -/
def writeIn (i : Nat) (v : Byte) (s : State) : State :=
  if s.busy then dropWrite s else { s with inBuf := memSet s.inBuf i v }

/-- MemWrite(a, 1, v) (20_memory.md R62): OUT_BUF and unmapped addresses ignore writes (10_state.md R41, R43). -/
def hostWrite (a : Half) (v : Byte) (s : State) : State :=
  match placeOf s.cfg a with
  | .reg r => writeReg r v s
  | .inByte i => writeIn i v s
  | .outByte _ => s
  | .none => s

/-- LDIN bs: the host writes the bytes to IN+0, IN+1, ..., then their number to IN_LEN (30_encoding.md R105). While
BUSY = 1 every one of these writes is dropped (10_state.md R47); a byte beyond IN_BUF falls on an address that ignores
it (20_memory.md R61; log 12). -/
def ldin (bs : List Byte) (s : State) : State :=
  if s.busy then dropWrite s
  else { s with inBuf := storeBytes s.inBuf 0 (bs.take s.cfg.bufDepth), inLen := BitVec.ofNat 16 bs.length }

end Sys2Proof.Machine
end

