-- ==== Sys2Proof/Machine/WireData.lean ====
section
/-! DEFINITION. The rows that are data: the raw frame, the wire symbols and the host-built command payloads
(30_encoding.md R94, R95, R97, R102; 44_wire_commands.md). The block gives them no step of its own; they act by being in
IN_BUF, where the host loads them with LDIN (30_encoding.md R105, 10_state.md R42, 70_reset_and_hazards.md R265 step 4;
log 8), in the layout of the device at hand (log 11). -/

namespace Sys2Proof.Machine

/-- FRAME_HEADER: a raw frame, the input of ENCODE and VERIFY (30_encoding.md R95, 10_state.md R42). -/
def execFrameHeader (seq : Byte) (len : Half) (chk : Byte) (payload : List Byte) (crc : Half) (s : State) : Result :=
  .next (ldin (encode Config.wireLayout (.frameHeader seq len chk payload crc)) s)

/-- DELIM (30_encoding.md R97). -/
def execDelim (s : State) : Result := .next (ldin (encode Config.wireLayout .delim) s)

/-- ESC (30_encoding.md R97). -/
def execEsc (s : State) : Result := .next (ldin (encode Config.wireLayout .esc) s)

/-- ESC_DELIM (30_encoding.md R97). -/
def execEscDelim (s : State) : Result := .next (ldin (encode Config.wireLayout .escDelim) s)

/-- ESC_ESC (30_encoding.md R97). -/
def execEscEsc (s : State) : Result := .next (ldin (encode Config.wireLayout .escEsc) s)

/-- 0x01 read register (44_wire_commands.md R211). -/
def execReadRegister (address : Word) (s : State) : Result := .next (ldin (encode Config.wireLayout (.readRegister address)) s)

/-- 0x02 write register (44_wire_commands.md R212). -/
def execWriteRegister (address value : Word) (s : State) : Result :=
  .next (ldin (encode Config.wireLayout (.writeRegister address value)) s)

/-- 0x04 get flash ID (44_wire_commands.md R213). -/
def execGetFlashId (s : State) : Result := .next (ldin (encode Config.wireLayout .getFlashId) s)

/-- 0x08 erase secure OTP page (44_wire_commands.md R214). -/
def execEraseSecureOtpPage (s : State) : Result := .next (ldin (encode Config.wireLayout .eraseSecureOtpPage) s)

/-- 0x09 legacy key write (44_wire_commands.md R215). -/
def execLegacyKeyWrite (before kv : List Byte) (s : State) : Result :=
  .next (ldin (encode Config.wireLayout (.legacyKeyWrite before kv)) s)

/-- 0x0E verify bootloader signature (44_wire_commands.md R216). -/
def execVerifyBootloaderSignature (s : State) : Result := .next (ldin (encode Config.wireLayout .verifyBootloaderSignature) s)

/-- 0x0F request secure debug (44_wire_commands.md R217). -/
def execRequestSecureDebug (s : State) : Result := .next (ldin (encode Config.wireLayout .requestSecureDebug) s)

/-- 0x10 send challenge response (44_wire_commands.md R218). -/
def execSendChallengeResponse (r sig : List Byte) (s : State) : Result :=
  .next (ldin (encode Config.wireLayout (.sendChallengeResponse r sig)) s)

/-- 0x11 write OTP register (44_wire_commands.md R219). -/
def execWriteOtpRegister (option addrChk : Byte) (offset : Nat) (value : List Byte) (s : State) : Result :=
  .next (ldin (encode Config.wireLayout (.writeOtpRegister option addrChk offset value)) s)

/-- 0x12 write OTP key (44_wire_commands.md R220). -/
def execWriteOtpKey (option addrChk : Byte) (offset : Nat) (key : List Byte) (s : State) : Result :=
  .next (ldin (encode Config.wireLayout (.writeOtpKey option addrChk offset key)) s)

end Sys2Proof.Machine
end

