-- ==== Sys2Proof/Machine/Dispatch.lean ====
section
/-! DEFINITION. The meaning of every instruction: one arm per row of spec/opcode_table.json. -/

namespace Sys2Proof.Machine

def exec (i : Instr) (s : State) : Host.Outcome State Fault Refusal :=
  match i with
  -- CMD8: the frame codec
  | .nop => Sys2Proof.Machine.execNop s
  | .build => Sys2Proof.Machine.execBuild s
  | .encode => Sys2Proof.Machine.execEncode s
  | .frame => Sys2Proof.Machine.execFrame s
  | .decode => Sys2Proof.Machine.execDecode s
  | .verify => Sys2Proof.Machine.execVerify s
  -- CMD8: the checksums
  | .sum8 => Sys2Proof.Machine.execSum8 s
  | .hchk => Sys2Proof.Machine.execHchk s
  | .crc8 => Sys2Proof.Machine.execCrc8 s
  | .crc16 => Sys2Proof.Machine.execCrc16 s
  -- CMD8: the transport
  | .send => Sys2Proof.Machine.execSend s
  | .recv => Sys2Proof.Machine.execRecv s
  | .flushRx => Sys2Proof.Machine.execFlushRx s
  | .flushTx => Sys2Proof.Machine.execFlushTx s
  | .flushAll => Sys2Proof.Machine.execFlushAll s
  -- CMD8: the handshake
  | .hsStart => Sys2Proof.Machine.execHsStart s
  | .hsSkip => Sys2Proof.Machine.execHsSkip s
  -- RAW_HDR and WIRE_SYM
  | .frameHeader seq len chk payload crc => Sys2Proof.Machine.execFrameHeader seq len chk payload crc s
  | .delim => Sys2Proof.Machine.execDelim s
  | .esc => Sys2Proof.Machine.execEsc s
  | .escDelim => Sys2Proof.Machine.execEscDelim s
  | .escEsc => Sys2Proof.Machine.execEscEsc s
  -- HS_BYTE
  | .start => Sys2Proof.Machine.execStart s
  | .ack => Sys2Proof.Machine.execAck s
  | .ispStart => Sys2Proof.Machine.execIspStart s
  | .ispReady => Sys2Proof.Machine.execIspReady s
  -- WIRE_CMD
  | .readRegister address => Sys2Proof.Machine.execReadRegister address s
  | .writeRegister address value => Sys2Proof.Machine.execWriteRegister address value s
  | .getFlashId => Sys2Proof.Machine.execGetFlashId s
  | .eraseSecureOtpPage => Sys2Proof.Machine.execEraseSecureOtpPage s
  | .legacyKeyWrite before kv => Sys2Proof.Machine.execLegacyKeyWrite before kv s
  | .verifyBootloaderSignature => Sys2Proof.Machine.execVerifyBootloaderSignature s
  | .requestSecureDebug => Sys2Proof.Machine.execRequestSecureDebug s
  | .sendChallengeResponse r sig => Sys2Proof.Machine.execSendChallengeResponse r sig s
  | .writeOtpRegister option addrChk offset value => Sys2Proof.Machine.execWriteOtpRegister option addrChk offset value s
  | .writeOtpKey option addrChk offset key => Sys2Proof.Machine.execWriteOtpKey option addrChk offset key s

end Sys2Proof.Machine
end

