-- ==== Sys2Proof/Machine/Agents.lean ====
section
/-! DEFINITION. One step of each agent: the block's turn (10_state.md R48) and the host's accesses (20_memory.md R62,
R71); and where an instruction is placed so that the next step runs it (log 14). -/

namespace Sys2Proof.Machine

/-- One block step: nothing if no operation is in flight (10_state.md R46); else a step of the operation in `op`, or
the one step of a reserved code (30_encoding.md R93). -/
def blockStep (s : State) : Result :=
  if s.phase = .ready then .next s
  else
    match decodeCmd s.op with
    | .ok i => exec i s
    | .error _ => execReserved s

/-- A value the host has read (00_scope.md R6). -/
def logRead (a : Half) (v : Byte) (s : State) : State := { s with reads := s.reads ++ [(a, v)] }

/-- MemRead(a, size) (20_memory.md R62, R64). -/
def readStep (a : Half) (size : Nat) (s : State) : Result :=
  if size = 1 then
    match hostRead a s with
    | some v => .next (logRead a v s)
    | none => .fault .uninitRead
  else .fault .badAccess

/-- MemWrite(a, 1, v) (20_memory.md R62, R64). -/
def writeStep (a : Half) (data : List Byte) (s : State) : Result :=
  match data with
  | [v] => .next (hostWrite a v s)
  | _ => .fault .badAccess

/-- The host loads data: the row its bytes are, or the bytes as they stand, since the block carries any payload byte
unchanged (44_wire_commands.md R223). -/
def loadStep (d : DataFormat) (bs : List Byte) (s : State) : Result :=
  match decode Config.wireLayout (.data d) bs with
  | .ok i => exec i s
  | .error _ => .next (ldin bs s)

/-- One iteration of WAIT: read STATUS; while BUSY = 1, the block takes a turn and the poll is repeated
(30_encoding.md R105; log 13). -/
def waitStep (s : State) : State :=
  let t := logRead Reg.status.addr (readReg .status s) s
  if s.busy then { t with events := .block :: .wait :: s.events } else t

/-- The step of one event. -/
def eventStep (e : Event) (s : State) : Result :=
  match e with
  | .block => blockStep s
  | .read a size => readStep a size s
  | .write a data => writeStep a data s
  | .load d bs => loadStep d bs s
  | .wait => .next (waitStep s)
  | .reset => .next (resetBlock s)

/-- One step of the machine: the next pending event, or the block's turn when none is pending (log 2). -/
def machineStep (s : State) : Result :=
  match s.events with
  | [] => blockStep s
  | e :: rest => eventStep e { s with events := rest }

/-- HS_START in flight at a step of its sequence, the block's turn next. -/
def placeHandshake (p : Phase) (st : HsState) (answers : List Answer) (s : State) : State :=
  { accept 0x20#8 s with
    phase := p, hsState := st, answers := answers ++ s.answers, events := .block :: s.events }

/-- A state whose next step runs the instruction `i` (log 14): an operation is latched as accepted, data is the host's
next load, a handshake byte is the next one HS_START sends or receives. -/
def placeInstr (i : Instr) (s : State) : State :=
  match i.format with
  | .cmd8 => { accept ((encode Config.wireLayout i).headD 0x00) s with events := .block :: s.events }
  | .data d => { s with events := .load d (encode Config.wireLayout i) :: s.events }
  | .hsByte =>
    match i with
    | .start => placeHandshake .hsWrite .idle [] s
    | .ack => placeHandshake .hsRead .idle [.bytes [ackByte]] s
    | .ispStart => placeHandshake .hsWrite .ackReceived [] s
    | _ => placeHandshake .hsRead .ackReceived [.bytes [ispReadyByte]] s

/-- A state whose next step runs the instruction of a table word; a word of no row is latched as the CMD value it is
(30_encoding.md R93). -/
def placeWord (nbits w : Nat) (s : State) : State :=
  match decodeTableWord nbits w with
  | some i => placeInstr i s
  | none => { accept (BitVec.ofNat 8 w) s with events := .block :: s.events }

end Sys2Proof.Machine
end

