-- ==== Sys2Proof/Machine/HostProgram.lean ====
section
/-! DEFINITION. Host-side notation and duties, outside the block: the pseudo-instructions of host programs
(30_encoding.md R104, R105), the fields of a device's response (44_wire_commands.md R211, R213, R217, R221), and the
executor's loop as a function of the responses (70_reset_and_hazards.md R276; log 16). -/

namespace Sys2Proof.Machine

/-- A bus access as an event (30_encoding.md R104). -/
def accessEvent : Access → Event
  | .rd a => .read a 1
  | .wr a v => .write a [v]

/-- The address IN+i (30_encoding.md R104). -/
def inAddr (i : Nat) : Half := BitVec.ofNat 16 (0x4000 + i)

/-- The address OUT+i (30_encoding.md R104). -/
def outAddr (i : Nat) : Half := BitVec.ofNat 16 (0x8000 + i)

/-- `WR16 lo, v` (30_encoding.md R105). -/
def wr16 (lo : Half) (v : Half) : List Access := [.wr lo (lo8 v), .wr (lo + 1) (hi8 v)]

/-- `RD16 lo` (30_encoding.md R105). -/
def rd16 (lo : Half) : List Access := [.rd lo, .rd (lo + 1)]

/-- The writes of a byte string to IN+i, IN+(i+1), .... -/
def wrIn : Nat → List Byte → List Access
  | _, [] => []
  | i, b :: bs => .wr (inAddr i) b :: wrIn (i + 1) bs

/-- `LDIN bs` access by access (30_encoding.md R105). -/
def ldinAccesses (bs : List Byte) : List Access :=
  wrIn 0 bs ++ wr16 Reg.inLenLo.addr (BitVec.ofNat 16 bs.length)

/-- `RDOUT n` (30_encoding.md R105). -/
def rdOut (n : Nat) : List Access := (List.range n).map fun i => .rd (outAddr i)

/-- `RUN v`: `CMD v` then `WAIT` (30_encoding.md R105). -/
def runOp (v : Byte) : List Event := [.write Reg.cmd.addr [v], .wait]

/-- The state after a list of host writes; reads leave the block's state as it is (20_memory.md R67). -/
def hostWrites : List Access → State → State
  | [], s => s
  | .rd _ :: rest, s => hostWrites rest s
  | .wr a v :: rest, s => hostWrites rest (hostWrite a v s)

/-- The status byte of a response: received byte 7, the leading delimiter counted (44_wire_commands.md R221). -/
def responseStatus (resp : List Byte) : Option Byte := resp[7]?

/-- Received bytes `k .. k+n`. None when the response is too short for them: the spec states no result there, and that
none is given is the model's choice (log 19). -/
def responseField (k n : Nat) (resp : List Byte) : Option (List Byte) :=
  if k + n ≤ resp.length then some ((resp.drop k).take n) else none

/-- The data of a register read: received bytes 8..11 (44_wire_commands.md R211, R221; a response under 12 bytes: log 19). -/
def responseData (resp : List Byte) : Option (List Byte) := responseField 8 4 resp

/-- The flash ID, big-endian at received bytes 8..11 (44_wire_commands.md R213; a response under 12 bytes: log 19). -/
def responseFlashId (resp : List Byte) : Option Nat :=
  (responseField 8 4 resp).map fun id => id.foldl (fun n b => n * 256 + b.toNat) 0

/-- The secure-debug challenge: received bytes 10..73 (44_wire_commands.md R217; a response under 74 bytes: log 19). -/
def responseChallenge (resp : List Byte) : Option (List Byte) := responseField 10 64 resp

/-- Whether an attempt succeeds: the expected status at offset 7, or any response if none is expected
(70_reset_and_hazards.md R276). -/
def attemptOk (expected : Option Byte) (resp : List Byte) : Bool :=
  match expected with
  | none => true
  | some e => decide (responseStatus resp = some e)

/-- The operations the executor runs, as host duties (70_reset_and_hazards.md R276). -/
inductive ExecutorOp where
  | send
  | recv
  | flushAll
deriving DecidableEq, Repr

/-- What the executor does after the responses of its attempts, with `left` attempts left: the operations it runs, and
what it returns (70_reset_and_hazards.md R276): FLUSH_ALL after every mismatch and after every response when no status
is expected. `none` while a response is still to come. -/
def executor (expected : Option Byte) : Nat → List (List Byte) → List ExecutorOp × Option (Bool × List Byte)
  | 0, _ => ([], none)
  | _ + 1, [] => ([.send, .recv], none)
  | left + 1, resp :: rest =>
    if attemptOk expected resp then
      ([.send, .recv] ++ (if expected = none then [.flushAll] else []), some (true, resp))
    else if left = 0 then ([.send, .recv, .flushAll], some (false, resp))
    else
      let later := executor expected left rest
      ([.send, .recv, .flushAll] ++ later.1, later.2)

end Sys2Proof.Machine
end

