-- ==== Sys2Proof/Safety.lean ====
section
/-! DEFINITION. The terms that claims use: what a buffer holds, which step a state takes next, and the invariant of the
block (10_state.md R43, R45 to R47; 42_handshake.md R173, R180; 43_transport_ops.md R191, R193). -/

namespace Sys2Proof.Machine

/-- IN[0..IN_LEN) is `xs`, all written, and IN_LEN ≤ BUF_DEPTH. -/
def HoldsInput (s : State) (xs : List Byte) : Prop :=
  s.inLen.toNat = xs.length ∧ xs.length ≤ s.cfg.bufDepth ∧ ∀ j, j < xs.length → memGet s.inBuf j = xs[j]?

/-- OUT[0..OUT_LEN) is `xs`, all written. -/
def HoldsOutput (s : State) (xs : List Byte) : Prop :=
  s.outLen.toNat = xs.length ∧ ∀ j, j < xs.length → memGet s.outBuf j = xs[j]?

/-- `m'` is `m` with the bytes `bs` stored from index 0 on, and every other byte as before. -/
def Stored (m m' : Memory) (bs : List Byte) : Prop :=
  ∀ j, memGet m' j = if j < bs.length then bs[j]? else memGet m j

/-- The block takes the next step of the machine. -/
def BlockTurn (s : State) : Prop := s.events = [] ∨ ∃ rest, s.events = .block :: rest

/-- The next step of the machine is a reset. -/
def ResetNext (s : State) : Prop := ∃ rest, s.events = .reset :: rest

/-- The state with its next event taken. -/
def afterEvent (s : State) : State := { s with events := s.events.tail }

/-- A handshake attempt is under way (42_handshake.md R170). -/
def inAttempt (p : Phase) : Bool :=
  match p with
  | .hsResetIn | .hsWrite | .hsRead => true
  | .ready | .exec | .hsCheck | .tCall => false

/-- HS_START is in flight past its first step (42_handshake.md R173). -/
def inHandshake (p : Phase) : Bool :=
  match p with
  | .hsCheck | .hsResetIn | .hsWrite | .hsRead => true
  | .ready | .exec | .tCall => false

/-- The codes of the transport family (30_encoding.md R91). -/
def transportCodes : List Byte := [0x10, 0x11, 0x12, 0x13, 0x14]

/-- The CMD values that are operations (30_encoding.md R91). -/
def operationCodes : List Byte :=
  [0x00, 0x01, 0x02, 0x03, 0x04, 0x05, 0x08, 0x09, 0x0A, 0x0B, 0x10, 0x11, 0x12, 0x13, 0x14, 0x20, 0x21]

/-- The most block steps an operation takes (70_reset_and_hazards.md R282). -/
def stepBound (op : Byte) (hsMax : Half) : Nat :=
  if op ∈ transportCodes then 2 else if op = 0x20 then 2 + 4 * hsMax.toNat else 1

/-- Whether a call was answered FAIL (20_memory.md R75). -/
def Call.failed : Call → Bool
  | .write _ ok => !ok
  | .read _ _ answer => answer.isNone
  | .resetIn ok => !ok
  | .resetOut ok => !ok

/-- The calls the port admits: no empty write, no read of zero bytes, no answer longer than was asked
(20_memory.md R75). -/
def Call.legal : Call → Bool
  | .write bs _ => bs ≠ []
  | .read n _ answer =>
    decide (1 ≤ n) &&
      match answer with
      | none => true
      | some bs => decide (bs.length ≤ n)
  | .resetIn _ => true
  | .resetOut _ => true

/-- The invariant of the block. -/
structure Inv (s : State) : Prop where
  /-- 16 ≤ BUF_DEPTH ≤ 16384 (00_scope.md R8). -/
  cfgWf : s.cfg.wf
  /-- BUSY = 1 exactly when an operation is in flight (10_state.md R46). -/
  busyPhase : s.busy = decide (s.phase ≠ .ready)
  /-- The buffers keep their canonical form. -/
  inWf : s.inBuf.wf
  outWf : s.outBuf.wf
  /-- The buffers hold BUF_DEPTH bytes (10_state.md R42, R43). -/
  inBound : ∀ c ∈ s.inBuf, c.1 < s.cfg.bufDepth
  outBound : ∀ c ∈ s.outBuf, c.1 < s.cfg.bufDepth
  /-- OUT_LEN ≤ BUF_DEPTH (10_state.md R36). -/
  outLenLe : s.outLen.toNat ≤ s.cfg.bufDepth
  /-- OUT[0..OUT_LEN) is always written (43_transport_ops.md R191). -/
  outWritten : ∀ j, j < s.outLen.toNat → (memGet s.outBuf j).isSome
  /-- In flight, DONE and ERR are 0 and ERRCODE is 0x00 (60_exceptions.md R239). -/
  running : s.busy = true → s.done = false ∧ s.err = false ∧ s.errcode = .none
  /-- At rest, ERR = 1 exactly when ERRCODE ≠ 0x00 (60_exceptions.md R230). -/
  rested : s.busy = false → s.err = decide (s.errcode ≠ .none)
  /-- VFLAGS.ALL_OK is 1 exactly when every other check passed (10_state.md R38). -/
  allOk : s.vflags.allOk =
    (s.vflags.hdrOk && s.vflags.hchkOk && s.vflags.lenOk && s.vflags.crcOk && s.vflags.sizeOk)
  /-- T_CALL is a phase of the transport family only, the HS phases of HS_START only (10_state.md R46). -/
  callOp : s.phase = .tCall → s.op ∈ transportCodes
  hsOp : inHandshake s.phase = true → s.op = 0x20
  /-- SEND and RECV reach their call only when it is admitted (43_transport_ops.md R190, R191, R193). -/
  sendCallOk : s.phase = .tCall → s.op = 0x10 → s.hsState = .ispReady ∧ s.outLen ≠ 0
  recvCallOk : s.phase = .tCall → s.op = 0x11 →
    s.hsState = .ispReady ∧ s.rxReq ≠ 0 ∧ s.rxReq.toNat ≤ s.cfg.bufDepth
  /-- ACK_RECEIVED exists only while HS_START is in flight (42_handshake.md R180), after an attempt. -/
  ackInFlight : s.hsState = .ackReceived → inHandshake s.phase = true ∧ s.hsAtt ≠ 0
  /-- HS_ATT never exceeds HS_MAX in a handshake (42_handshake.md R173). -/
  attemptsLe : inHandshake s.phase = true → s.hsAtt.toNat ≤ s.hsMax.toNat
  /-- An attempt runs in IDLE or ACK_RECEIVED only, and is counted (42_handshake.md R170, R173). -/
  attempting : inAttempt s.phase = true →
    (s.hsState = .idle ∧ 1 ≤ s.hsAtt.toNat) ∨ (s.hsState = .ackReceived ∧ 2 ≤ s.hsAtt.toNat)
  /-- HS_CHECK never sees FAILED, and sees ISP_READY only after two attempts (42_handshake.md R179(c)). -/
  checking : s.phase = .hsCheck → s.hsState ≠ .failed ∧ (s.hsState = .ispReady → 2 ≤ s.hsAtt.toNat)

end Sys2Proof.Machine
end

