-- ==== Sys2Proof/Certificates/Slice0/Obligations.lean ====
section
/-! DEFINITION. The statements for the provers. Each docstring names the rule of the spec it formalises; the terms are
those of Sys2Proof/Safety.lean. -/

open Sys2Proof Sys2Proof.Machine

/-! ### Encoding -/

/-- Decode and encode agree on every well-formed instruction, in every wire layout (30_encoding.md R90, R91, R95, R97,
R100, R102; the layouts are the model's, log 11). -/
def Obligations.DecodeOfEncodeIsTheInstruction : Prop :=
  ∀ (L : WireLayout) (i : Instr), i.wf L = true → Sys2Proof.decode L i.format (Sys2Proof.encode L i) = .ok i

/-- What the decoder accepts is well-formed, in the format asked for, and encodes to exactly the bytes decoded: no bit is
dropped, and no two byte strings are one instruction (30_encoding.md R90 to R103). Of an OTP command it says field by field
what was read: a little-endian offset of the layout's width, and an address checksum that is Sum8 of the bytes the layout
says it covers (44_wire_commands.md R219, R220; the layout is the model's parameter, log 11). -/
def Obligations.DecodedBytesAreTheEncoding : Prop :=
  (∀ (L : WireLayout) (f : Format) (bs : List Byte) (i : Instr),
    Sys2Proof.decode L f bs = .ok i → Sys2Proof.encode L i = bs ∧ i.format = f ∧ i.wf L = true) ∧
    (∀ (L : WireLayout) (bs : List Byte) (option chk : Byte) (offset : Nat) (value : List Byte),
      Sys2Proof.decode L (.data .wireCmd) bs = .ok (.writeOtpRegister option chk offset value) →
        ∃ off : List Byte, bs = [0x11, option, chk] ++ off ++ value ++ [crc8 value] ∧
          off.length = L.otpRegister.offsetBytes ∧ natOfBytes off = offset ∧
          chk = sum8
            ((if L.otpRegister.covers.opcode then [0x11] else []) ++
              (if L.otpRegister.covers.option then [option] else []) ++
              (if L.otpRegister.covers.offset then off else []) ++
              (if L.otpRegister.covers.data then value else []))) ∧
    ∀ (L : WireLayout) (bs : List Byte) (option chk : Byte) (offset : Nat) (key : List Byte),
      Sys2Proof.decode L (.data .wireCmd) bs = .ok (.writeOtpKey option chk offset key) →
        ∃ off : List Byte, bs = [0x12, option, chk] ++ off ++ key ∧ off.length = L.otpKey.offsetBytes ∧
          natOfBytes off = offset ∧ key.length = 64 ∧
          chk = sum8
            ((if L.otpKey.covers.opcode then [0x12] else []) ++ (if L.otpKey.covers.option then [option] else []) ++
              (if L.otpKey.covers.offset then off else []) ++ (if L.otpKey.covers.data then key else []))

/-- The decoder rejects exactly the CMD values that 30_encoding.md R93 reserves. -/
def Obligations.ReservedCodesAreExactlyTheUnlisted : Prop :=
  ∀ v : Byte,
    (decodeCmd v = .error (.reservedOp v) ↔
      v = 0x06 ∨ v = 0x07 ∨ (0x0C ≤ v.toNat ∧ v.toNat ≤ 0x0F) ∨ (0x15 ≤ v.toNat ∧ v.toNat ≤ 0x1F) ∨
        (0x22 ≤ v.toNat ∧ v.toNat ≤ 0xFF)) ∧
      (v ∉ operationCodes ↔ decodeCmd v = .error (.reservedOp v))

/-- Words written out from the spec's tables decode to their instructions (30_encoding.md R91, R95, R97, R100;
44_wire_commands.md R211, R212). -/
def Obligations.SampleWordsDecode : Prop :=
  decodeTableWord 8 0x03 = some .frame ∧ decodeTableWord 8 0x0B = some .crc16 ∧ decodeTableWord 8 0x14 = some .flushAll ∧
    decodeTableWord 8 0x20 = some .hsStart ∧ decodeTableWord 8 0xC0 = some .delim ∧ decodeTableWord 8 0x55 = some .ack ∧
    decodeTableWord 8 0x06 = none ∧
    Sys2Proof.decode Config.wireLayout (.data .wireCmd) [0x02, 0x00, 0x30, 0x00, 0x40, 0xEF, 0xBE, 0xAD, 0xDE] =
      .ok (.writeRegister 0x40003000 0xDEADBEEF) ∧
    Sys2Proof.decode Config.wireLayout (.data .rawHdr) [0x52, 0x01, 0x00, 0x01, 0xFE, 0x04, 0x18, 0xEF] =
      .ok (.frameHeader 0x01 0x0001 0xFE [0x04] 0x18EF)

/-- The 25-bit transaction words write bus accesses down without loss (30_encoding.md R106): both directions, and the
three words the rule works out. -/
def Obligations.TransactionWordsRoundTrip : Prop :=
  (∀ a : Access, decodeAccess (encodeAccess a) = some a) ∧
    (∀ (t : BitVec 25) (a : Access), decodeAccess t = some a → encodeAccess a = t) ∧
    (∀ (addr : Half) (v : Byte),
      (encodeAccess (.wr addr v)).toNat = 2 ^ 24 + addr.toNat * 256 + v.toNat ∧
        (encodeAccess (.rd addr)).toNat = addr.toNat * 256) ∧
    encodeAccess (.wr 0x0000 0x01) = 0x1000001 ∧ encodeAccess (.rd 0x0001) = 0x0000100 ∧
    encodeAccess (.wr 0x4002 0xC0) = 0x14002C0

/-! ### The step -/

/-- On the block's turn, with an operation in flight, the step is the meaning of the operation that `op` decodes to, on
the state with that turn taken; a reserved code takes the one step of 60_exceptions.md R231. A host load of data runs
the row its bytes decode to (log 8). With no operation in flight the block's turn changes nothing else
(10_state.md R46). -/
def Obligations.StepRunsTheDecodedInstruction : Prop :=
  (∀ (s : State) (i : Instr), BlockTurn s → s.phase ≠ .ready → decodeCmd s.op = .ok i →
    step s = exec i (afterEvent s)) ∧
    (∀ s : State, BlockTurn s → s.phase ≠ .ready → s.op ∉ operationCodes →
      step s = .next (complete .badOp (afterEvent s))) ∧
    (∀ s : State, BlockTurn s → s.phase = .ready → step s = .next (afterEvent s)) ∧
    ∀ (s : State) (d : DataFormat) (bs : List Byte) (rest : List Event) (i : Instr),
      s.events = .load d bs :: rest → Sys2Proof.decode Config.wireLayout (.data d) bs = .ok i →
        step s = exec i (afterEvent s)

/-- The placed instruction is the one the next step runs, for every CMD8 row (30_encoding.md R90, R91) and for the
handshake bytes in their attempt steps (30_encoding.md R100, R101; log 14). -/
def Obligations.PlacedInstructionRunsNext : Prop :=
  (∀ (s : State) (i : Instr), i.format = .cmd8 →
    step (placeInstr i s) = exec i { accept ((Sys2Proof.encode Config.wireLayout i).headD 0x00) s with events := s.events }) ∧
    (∀ s : State, BlockTurn s → s.op = 0x20 → s.phase = .hsWrite →
      step s = if s.hsState = .idle then exec .start (afterEvent s) else exec .ispStart (afterEvent s)) ∧
    (∀ (s : State) (bs : List Byte), BlockTurn s → s.op = 0x20 → s.phase = .hsRead → nextAnswer s = .bytes bs →
      (bs.take 1 = [0x55] → step s = exec .ack (dropAnswer (afterEvent s))) ∧
        (bs.take 1 = [0x6A] → step s = exec .ispReady (dropAnswer (afterEvent s)))) ∧
    ∀ (s : State) (i : Instr) (d : DataFormat), i.format = .data d → i.wf Config.wireLayout = true →
      step (placeInstr i s) = exec i s

/-! ### Reset, acceptance, completion -/

/-- Reset (70_reset_and_hazards.md R260 to R263, 10_state.md R51), whatever was in flight: what the host reads of every
register is the reset column of 10_state.md R23, with CFG and DEPTH the instance's; every buffer byte is unwritten; the
operation in flight is abandoned, no transport call is made, and the history stays. The pending inputs stay (the model's
choice, log 14). -/
def Obligations.ResetLeavesTheResetValues : Prop :=
  ∀ s : State, ResetNext s →
    ∃ t, step s = .next t ∧
      ([Reg.cmd, .status, .errcode, .ctrl, .seq, .hsState, .hsAttLo, .hsAttHi, .hsMaxLo, .hsMaxHi, .hsTmo, .rxTmoLo,
          .rxTmoHi, .rxReqLo, .rxReqHi, .inLenLo, .inLenHi, .outLenLo, .outLenHi, .resultLo, .resultHi, .vflags].map
        fun r => hostRead r.addr t) =
        ([0x00, 0x00, 0x00, 0x00, 0x00, 0x00, 0x00, 0x00, 0xFA, 0x00, 0x14, 0xF4, 0x01, 0x00, 0x00, 0x00, 0x00, 0x00,
          0x00, 0x00, 0x00, 0x00] : List Byte).map some ∧
      hostRead Reg.cfg.addr t = hostRead Reg.cfg.addr s ∧ hostRead Reg.depthLo.addr t = hostRead Reg.depthLo.addr s ∧
      hostRead Reg.depthHi.addr t = hostRead Reg.depthHi.addr s ∧ t.op = 0x00 ∧ t.phase = .ready ∧ t.busy = false ∧
      t.done = false ∧ t.errcode = .none ∧ (∀ j, memGet t.inBuf j = none ∧ memGet t.outBuf j = none) ∧
      t.cfg = s.cfg ∧ t.history = s.history ∧ t.reads = s.reads ∧ t.events = s.events.tail ∧ t.answers = s.answers ∧
      t.drawn = s.drawn

/-- Acceptance (60_exceptions.md R239): a CMD write while BUSY = 0 starts the operation in that step, whatever the value;
while BUSY = 1 it is dropped and sets OVR. Everything else is unchanged. -/
def Obligations.CmdWriteAcceptsOrIsDropped : Prop :=
  ∀ (s : State) (v : Byte) (rest : List Event), s.events = .write 0x0000 [v] :: rest →
    (s.busy = false →
      step s = .next { s with
        op := v, phase := .exec, busy := true, done := false, err := false, errcode := .none, events := rest }) ∧
      (s.busy = true → step s = .next { s with ovr := true, events := rest })

/-- Completion (60_exceptions.md R240): what `complete` writes, and that it writes nothing else; and that at rest the
block is idle, STATUS.DONE, ERR and ERRCODE keeping their values, until the next accepted CMD write or a reset. -/
def Obligations.CompletionFields : Prop :=
  (∀ (code : ErrCode) (s : State),
    complete code s = { s with
      errcode := code, err := decide (code ≠ .none), done := true, busy := false, phase := .ready } ∧
      statusByte (complete code s) =
        (if code = .none then 0x02 else 0x06) ||| (if s.ovr then 0x08 else 0x00) |||
          (if s.hsState = .ispReady then 0x10 else 0x00)) ∧
    ∀ s t : State, s.phase = .ready → step s = .next t → ¬ ResetNext s →
      (t.phase = .ready ∧ t.busy = s.busy ∧ t.done = s.done ∧ t.err = s.err ∧ t.errcode = s.errcode) ∨
        ∃ (v : Byte) (rest : List Event), s.events = .write 0x0000 [v] :: rest ∧ s.busy = false ∧
          t = accept v (afterEvent s)

/-- Whatever operation ends in a step, that step leaves BUSY = 0, DONE = 1 and ERR = (ERRCODE ≠ 0x00)
(60_exceptions.md R230, R240). -/
def Obligations.EveryEndSetsDoneAndErr : Prop :=
  ∀ s t : State, step s = .next t → s.phase ≠ .ready → t.phase = .ready → ¬ ResetNext s →
    t.busy = false ∧ t.done = true ∧ t.err = decide (t.errcode ≠ .none) ∧ (t.err = true ↔ t.errcode.code ≠ 0x00)

/-- A reserved CMD value is accepted like any other, completes in its one step with ERR_BAD_OP and writes no state but
STATUS and ERRCODE, so the latched value stays in `op`, which no host read shows (60_exceptions.md R231). -/
def Obligations.ReservedCodeEndsWithBadOp : Prop :=
  (∀ (s : State) (v : Byte) (rest : List Event), v ∉ operationCodes → s.events = .write 0x0000 [v] :: rest →
    s.busy = false → step s = .next (accept v { s with events := rest })) ∧
    (∀ s : State, BlockTurn s → s.phase = .exec → s.op ∉ operationCodes →
      step s = .next { s with
        errcode := .badOp, err := true, done := true, busy := false, phase := .ready, events := s.events.tail }) ∧
    ErrCode.badOp.code = 0x01 ∧ ∀ (s : State) (a : Half) (v : Byte), hostRead a { s with op := v } = hostRead a s

/-! ### The host address space -/

/-- STATUS read by the host is BUSY, DONE, ERR, OVR and the view HS_READY in bits 0 to 4, bits 7:5 zero; a write clears
OVR exactly when its bit 3 is 1, does nothing else, and is never dropped (10_state.md R25). -/
def Obligations.StatusBitsAndItsWrite : Prop :=
  ∀ (s : State) (v : Byte),
    (∀ n, n < 8 →
      (statusByte s).getLsbD n =
        ((n == 0 && s.busy) || (n == 1 && s.done) || (n == 2 && s.err) || (n == 3 && s.ovr) ||
          (n == 4 && decide (s.hsState = .ispReady)))) ∧
      hostRead 0x0001 s = some (statusByte s) ∧
      hostWrite 0x0001 v s = (if v.getLsbD 3 then { s with ovr := false } else s)

/-- OVR is sticky: only reset, or a STATUS write with bit 3 set, clears it (10_state.md R25); and an operation never sets
it (70_reset_and_hazards.md R271). -/
def Obligations.OvrIsStickyAndTheBlockLeavesIt : Prop :=
  (∀ s t : State, step s = .next t → s.ovr = true → t.ovr = false →
    ResetNext s ∨ ∃ (v : Byte) (rest : List Event), s.events = .write 0x0001 [v] :: rest ∧ v.getLsbD 3 = true) ∧
    ∀ s t : State, BlockTurn s → step s = .next t → t.ovr = s.ovr

/-- A write while BUSY = 1 to CMD, to a busy-guarded register or to a byte of IN_BUF has no effect but OVR
(10_state.md R47, 70_reset_and_hazards.md R271). -/
def Obligations.GuardedWritesAreDroppedWhileBusy : Prop :=
  ∀ (s : State) (a : Half) (v : Byte), s.cfg.wf → s.busy = true →
    (a.toNat ∈ [0x00, 0x03, 0x04, 0x08, 0x09, 0x0A, 0x0C, 0x0D, 0x0E, 0x0F, 0x10, 0x11] ∨
      (0x4000 ≤ a.toNat ∧ a.toNat < 0x4000 + s.cfg.bufDepth)) →
    hostWrite a v s = { s with ovr := true }

/-- Register writes while BUSY = 0 store their value, and nothing else changes: CTRL bit 0, SEQ, HS_TMO, and the two bytes
of each 16-bit register, LO in bits 7:0 (10_state.md R23, R27, R28, R31 to R35; 20_memory.md R66). A write to a read-only
register does nothing and sets no flag, whatever BUSY is (10_state.md R23). -/
def Obligations.RegisterWritesStore : Prop :=
  (∀ (s : State) (v : Byte), ∀ a ∈ ([0x0002, 0x0005, 0x0006, 0x0007, 0x0012, 0x0013, 0x0014, 0x0015, 0x0016, 0x0017,
      0x0018, 0x0019] : List Half), hostWrite a v s = s) ∧
  ∀ (s : State) (v : Byte), s.busy = false →
    hostWrite 0x0003 v s = { s with verifyEn := v.getLsbD 0 } ∧ hostWrite 0x0004 v s = { s with seq := v } ∧
      hostWrite 0x000A v s = { s with hsTmo := v } ∧
      hostWrite 0x0008 v s = { s with hsMax := BitVec.ofNat 16 (s.hsMax.toNat / 256 * 256 + v.toNat) } ∧
      hostWrite 0x0009 v s = { s with hsMax := BitVec.ofNat 16 (v.toNat * 256 + s.hsMax.toNat % 256) } ∧
      hostWrite 0x000C v s = { s with rxTmo := BitVec.ofNat 16 (s.rxTmo.toNat / 256 * 256 + v.toNat) } ∧
      hostWrite 0x000D v s = { s with rxTmo := BitVec.ofNat 16 (v.toNat * 256 + s.rxTmo.toNat % 256) } ∧
      hostWrite 0x000E v s = { s with rxReq := BitVec.ofNat 16 (s.rxReq.toNat / 256 * 256 + v.toNat) } ∧
      hostWrite 0x000F v s = { s with rxReq := BitVec.ofNat 16 (v.toNat * 256 + s.rxReq.toNat % 256) } ∧
      hostWrite 0x0010 v s = { s with inLen := BitVec.ofNat 16 (s.inLen.toNat / 256 * 256 + v.toNat) } ∧
      hostWrite 0x0011 v s = { s with inLen := BitVec.ofNat 16 (v.toNat * 256 + s.inLen.toNat % 256) }

/-- The read view of every register that has one: the 16-bit registers little-endian, CTRL bit 0, VFLAGS and CFG bit by
bit, DEPTH (10_state.md R26 to R40; 20_memory.md R66); and the numbers of the error codes (60_exceptions.md R230) and of
the handshake states (10_state.md R29). -/
def Obligations.RegisterReadViews : Prop :=
  ([ErrCode.none, .badOp, .inLen, .outOvf, .rxReq, .decDelim, .decRawFend, .decBadEsc, .decTruncEsc, .verify, .notReady,
      .hsState, .hsTimeout, .transport].map ErrCode.code =
    [0x00, 0x01, 0x02, 0x03, 0x04, 0x10, 0x11, 0x12, 0x13, 0x14, 0x20, 0x21, 0x22, 0x30]) ∧
  ([HsState.idle, .ackReceived, .ispReady, .failed].map HsState.code = [0x00, 0x01, 0x02, 0x03]) ∧
  ∀ s : State,
    (∀ p ∈ [(0x0006, s.hsAtt), (0x0008, s.hsMax), (0x000C, s.rxTmo), (0x000E, s.rxReq), (0x0010, s.inLen),
        (0x0012, s.outLen), (0x0014, s.result), (0x0018, BitVec.ofNat 16 s.cfg.bufDepth)],
      hostRead (BitVec.ofNat 16 p.1) s = some (BitVec.ofNat 8 (p.2.toNat % 256)) ∧
        hostRead (BitVec.ofNat 16 (p.1 + 1)) s = some (BitVec.ofNat 8 (p.2.toNat / 256))) ∧
      hostRead 0x0000 s = some 0x00 ∧ hostRead 0x0002 s = some s.errcode.code ∧
      hostRead 0x0003 s = some (if s.verifyEn then 0x01 else 0x00) ∧ hostRead 0x0004 s = some s.seq ∧
      hostRead 0x0005 s = some s.hsState.code ∧ hostRead 0x000A s = some s.hsTmo ∧
      hostRead 0x0017 s =
        some (BitVec.ofNat 8 ((if s.cfg.hdrVariant = .ones then 1 else 0) + (if s.cfg.hsFlushAck then 2 else 0))) ∧
      ∃ f : Byte, hostRead 0x0016 s = some f ∧
        ∀ n, n < 8 →
          f.getLsbD n =
            ((n == 0 && s.vflags.hdrOk) || (n == 1 && s.vflags.hchkOk) || (n == 2 && s.vflags.lenOk) ||
              (n == 3 && s.vflags.crcOk) || (n == 4 && s.vflags.allOk) || (n == 5 && s.vflags.sizeOk))

/-- An unmapped or reserved address reads 0x00 and ignores writes, and raises nothing; reading an unwritten buffer byte is
UNINIT_READ, and a write to an unmarked IN_BUF byte is legal and sets the mark (20_memory.md R63). -/
def Obligations.UnmappedAddressesReadZero : Prop :=
  ∀ (s : State) (a : Half) (v : Byte), s.cfg.wf →
    ((a.toNat = 0x000B ∨ (0x001A ≤ a.toNat ∧ a.toNat < 0x4000) ∨
        (0x4000 + s.cfg.bufDepth ≤ a.toNat ∧ a.toNat < 0x8000) ∨ 0x8000 + s.cfg.bufDepth ≤ a.toNat) →
      hostRead a s = some 0x00 ∧ hostWrite a v s = s ∧
        (∀ rest, s.events = .read a 1 :: rest →
          step s = .next { s with events := rest, reads := s.reads ++ [(a, 0x00)] }) ∧
        ∀ rest, s.events = .write a [v] :: rest → step s = .next { s with events := rest }) ∧
      (∀ (i : Nat) (rest : List Event), i < s.cfg.bufDepth →
        (s.events = .read (inAddr i) 1 :: rest → memGet s.inBuf i = none → step s = .fault .uninitRead) ∧
          (s.events = .read (outAddr i) 1 :: rest → memGet s.outBuf i = none → step s = .fault .uninitRead)) ∧
      ∀ i, i < s.cfg.bufDepth → s.busy = false → memGet s.inBuf i = none →
        hostRead (inAddr i) (hostWrite (inAddr i) v s) = some v

/-- An IN_BUF byte written by the host reads back, and every other address reads as before; a host write to OUT_BUF
changes nothing (10_state.md R42, R43; 20_memory.md R62). -/
def Obligations.BufferBytesReadBack : Prop :=
  ∀ (s : State) (i : Nat) (v : Byte), s.cfg.wf → i < s.cfg.bufDepth →
    (s.busy = false →
      hostRead (inAddr i) (hostWrite (inAddr i) v s) = some v ∧
        (∀ a, a ≠ inAddr i → hostRead a (hostWrite (inAddr i) v s) = hostRead a s) ∧
        hostWrite (inAddr i) v s = { s with inBuf := (hostWrite (inAddr i) v s).inBuf }) ∧
      hostWrite (outAddr i) v s = s ∧ hostRead (outAddr i) s = memGet s.outBuf i ∧
      hostRead (inAddr i) s = memGet s.inBuf i

/-- A host access of a size other than one byte is BAD_ACCESS; a one-byte read has no effect on the block: it only adds to
what the host has read; and a one-byte write is `hostWrite` (20_memory.md R62, R64, R67). -/
def Obligations.AccessSizeAndReadSideEffects : Prop :=
  ∀ (s : State) (a : Half) (rest : List Event),
    (∀ size, s.events = .read a size :: rest → size ≠ 1 → step s = .fault .badAccess) ∧
      (∀ data, s.events = .write a data :: rest → data.length ≠ 1 → step s = .fault .badAccess) ∧
      (∀ v, s.events = .read a 1 :: rest → hostRead a s = some v →
        step s = .next { s with events := rest, reads := s.reads ++ [(a, v)] }) ∧
      ∀ v, s.events = .write a [v] :: rest → step s = .next (hostWrite a v { s with events := rest })

/-- LDIN in one step is the host's writes of its expansion one by one (30_encoding.md R105; the single step is the model's
choice, log 12). -/
def Obligations.LdinIsItsExpansion : Prop :=
  ∀ (s : State) (bs : List Byte), s.cfg.wf → bs.length ≤ 0x4000 → hostWrites (ldinAccesses bs) s = ldin bs s

/-! ### Checksums -/

/-- Sum8 (40_checksums.md R121). -/
def Obligations.SumChecksumIsComplementOfSum : Prop :=
  (∀ xs : List Byte,
    (sum8 xs).toNat = 0xFF - (xs.map BitVec.toNat).sum % 256 ∧
      sum8 xs = ~~~ BitVec.ofNat 8 (xs.map BitVec.toNat).sum ∧
      (sum8 xs = 0x00 ↔ (xs.map BitVec.toNat).sum % 256 = 0xFF)) ∧
    sum8 [] = 0xFF ∧ sum8 [0x01, 0x02, 0x03] = 0xF9

/-- HeaderChecksum (40_checksums.md R122): the formula of each variant, what sum and checksum add up to, and that the
variants differ by exactly 1. -/
def Obligations.HeaderChecksumVariants : Prop :=
  (∀ xs : List Byte,
    (headerChecksum .twos xs).toNat = (0x100 - (xs.map BitVec.toNat).sum % 256) % 256 ∧
      headerChecksum .ones xs = sum8 xs ∧
      ((xs.map BitVec.toNat).sum + (headerChecksum .twos xs).toNat) % 256 = 0 ∧
      ((xs.map BitVec.toNat).sum + (headerChecksum .ones xs).toNat) % 256 = 0xFF ∧
      headerChecksum .twos xs = headerChecksum .ones xs + 1) ∧
    headerChecksum .twos [0, 0, 0] = 0x00 ∧ headerChecksum .twos [0xFF, 0x00, 0x01] = 0x00

/-- The residues: appending its CRC to a string gives a string whose CRC is 0, so the CRC16 of every built raw frame is 0
(40_checksums.md R127, R128). -/
def Obligations.AppendedCrcGivesZero : Prop :=
  (∀ xs : List Byte, crc16 (xs ++ [hi8 (crc16 xs), lo8 (crc16 xs)]) = 0x0000) ∧
    (∀ xs : List Byte, crc8 (xs ++ [crc8 xs]) = 0x00) ∧
    ∀ (v : HdrVariant) (seq : Byte) (p : List Byte), crc16 (buildRaw v seq p) = 0x0000

/-- The CRC register rule by rule (40_checksums.md R120, R123): the empty-input values, and what one more byte does. -/
def Obligations.CrcRegistersByteByByte : Prop :=
  crc16 [] = 0xFFFF ∧ crc8 [] = 0x00 ∧
    (∀ (xs : List Byte) (b : Byte),
      crc16 (xs ++ [b]) =
        (List.range 8).foldl (fun (c : Half) (_ : Nat) => if 0x8000 ≤ c.toNat then (c <<< 1) ^^^ 0x1021#16 else c <<< 1)
          (crc16 xs ^^^ BitVec.ofNat 16 (b.toNat * 256))) ∧
    ∀ (xs : List Byte) (b : Byte),
      crc8 (xs ++ [b]) =
        (List.range 8).foldl (fun (c : Byte) (_ : Nat) => if 0x80 ≤ c.toNat then (c <<< 1) ^^^ 0xD5#8 else c <<< 1) (crc8 xs ^^^ b)

/-- SUM8, HCHK, CRC8, CRC16 on their input: RESULT gets the function's value, zero-extended, the operation completes with
ERR_NONE, and nothing else changes (40_checksums.md R125 to R129). -/
def Obligations.ChecksumOperationsSetResult : Prop :=
  ∀ (s : State) (xs : List Byte), HoldsInput s xs →
    exec .sum8 s =
        .next (complete .none { s with result := BitVec.ofNat 16 (0xFF - (xs.map BitVec.toNat).sum % 256) }) ∧
      exec .hchk s =
        .next (complete .none { s with result := BitVec.ofNat 16 (headerChecksum s.cfg.hdrVariant xs).toNat }) ∧
      exec .crc8 s = .next (complete .none { s with result := BitVec.ofNat 16 (crc8 xs).toNat }) ∧
      exec .crc16 s = .next (complete .none { s with result := crc16 xs })

/-! ### The frame codec -/

/-- Decode and Encode are inverse (41_frame_codec.md R149). -/
def Obligations.WireDecodeInvertsWireEncode : Prop :=
  (∀ p : List Byte, wireDecode (wireEncode p) = .ok p) ∧
    (∀ (w r : List Byte), wireDecode w = .ok r → wireEncode r = w) ∧
    ∀ w : List Byte, (∃ r, wireDecode w = .ok r) ↔ ∃ p, w = wireEncode p

/-- The length bounds of wire frames (41_frame_codec.md R146). -/
def Obligations.WireFrameLengthBounds : Prop :=
  (∀ r : List Byte, 1 ≤ r.length →
    r.length + 2 ≤ (wireEncode r).length ∧ (wireEncode r).length ≤ 2 * r.length + 1 ∧
      ((wireEncode r).length = 2 * r.length + 1 ↔ ∀ b ∈ r.tail, b = 0xC0 ∨ b = 0xDB)) ∧
    ∀ (v : HdrVariant) (seq : Byte) (p : List Byte),
      p.length + 9 ≤ (wireEncode (buildRaw v seq p)).length ∧
        (wireEncode (buildRaw v seq p)).length ≤ 2 * p.length + 15 ∧
        (p = [] → 9 ≤ (wireEncode (buildRaw v seq p)).length ∧ (wireEncode (buildRaw v seq p)).length ≤ 15) ∧
        (p.length ≤ 1023 → (wireEncode p).length ≤ 2048) ∧
        (p.length ≤ 1016 → (wireEncode (buildRaw v seq p)).length ≤ 2048)

/-- Encode byte by byte: 0xC0 and 0xDB after the first byte become two bytes, every other byte is itself
(41_frame_codec.md R144, 30_encoding.md R97, R98). -/
def Obligations.EncodeAppendsOneToken : Prop :=
  wireEncode [] = [0xC0, 0xC0] ∧ (∀ b : Byte, wireEncode [b] = [0xC0, b, 0xC0]) ∧
    ∀ (r : List Byte) (b : Byte), r ≠ [] →
      wireEncode (r ++ [b]) =
        (wireEncode r).dropLast ++
          (if b = 0xC0 then [0xDB, 0xDC] else if b = 0xDB then [0xDB, 0xDD] else [b]) ++ [0xC0]

/-- The errors of Decode, and that the first one met is reported (41_frame_codec.md R148, R150): delimiters first, then
the lowest body position; `good` is a body that decodes up to there. -/
def Obligations.DecodeErrorsInOrder : Prop :=
  (∀ w : List Byte,
    wireDecode w = .error .decDelim ↔ w.length < 2 ∨ w.head? ≠ some 0xC0 ∨ w.getLast? ≠ some 0xC0) ∧
    ∀ (good r tail : List Byte), good ≠ [] → wireDecode (0xC0 :: (good ++ [0xC0])) = .ok r →
      wireDecode (0xC0 :: (good ++ [0xC0] ++ tail ++ [0xC0])) = .error .decRawFend ∧
        (∀ c : Byte, c ≠ 0xDC → c ≠ 0xDD →
          wireDecode (0xC0 :: (good ++ [0xDB, c] ++ tail ++ [0xC0])) = .error .decBadEsc) ∧
        wireDecode (0xC0 :: (good ++ [0xDB] ++ [0xC0])) = .error .decTruncEsc

/-- Verify check by check, the bits of the flags, and that every built frame passes (41_frame_codec.md R155,
10_state.md R38). -/
def Obligations.VerifyChecksTheFrame : Prop :=
  (∀ (v : HdrVariant) (f : List Byte), f.length < 7 → (verifyFrame v f).toByte = 0x00) ∧
    (∀ (v : HdrVariant) (f : List Byte) (n : Nat), f.length = n + 7 →
      ((verifyFrame v f).hdrOk = true ↔ f[0]? = some 0x52) ∧
        ((verifyFrame v f).hchkOk = true ↔ f[4]? = some (headerChecksum v (f.extract 1 4))) ∧
        ((verifyFrame v f).lenOk = true ↔ f.extract 2 4 = [BitVec.ofNat 8 (n / 256), BitVec.ofNat 8 (n % 256)] ∧ n < 65536) ∧
        ((verifyFrame v f).crcOk = true ↔
          f.drop (n + 5) = [hi8 (crc16 (f.take (n + 5))), lo8 (crc16 (f.take (n + 5)))]) ∧
        (verifyFrame v f).sizeOk = true ∧
        (verifyFrame v f).allOk =
          ((verifyFrame v f).hdrOk && (verifyFrame v f).hchkOk && (verifyFrame v f).lenOk && (verifyFrame v f).crcOk)) ∧
    (∀ (v : HdrVariant) (f : List Byte) (n : Nat), n < 8 →
      (verifyFrame v f).toByte.getLsbD n =
        ((n == 0 && (verifyFrame v f).hdrOk) || (n == 1 && (verifyFrame v f).hchkOk) ||
          (n == 2 && (verifyFrame v f).lenOk) || (n == 3 && (verifyFrame v f).crcOk) ||
          (n == 4 && (verifyFrame v f).allOk) || (n == 5 && (verifyFrame v f).sizeOk))) ∧
    ∀ (v : HdrVariant) (seq : Byte) (p : List Byte), p.length ≤ 65535 →
      (verifyFrame v (buildRaw v seq p)).toByte = 0x3F

/-- NOP completes with ERR_NONE and changes nothing else (41_frame_codec.md R153). -/
def Obligations.NopOnlyCompletes : Prop :=
  ∀ s : State,
    exec .nop s = .next { s with errcode := .none, err := false, done := true, busy := false, phase := .ready }

/-- BUILD writes the raw frame of 30_encoding.md R95 to OUT_BUF, byte by byte, or completes with ERR_OUT_OVF; every other
byte of OUT_BUF and every other field is unchanged (41_frame_codec.md R141, R143). -/
def Obligations.BuildWritesTheRawFrame : Prop :=
  ∀ (s : State) (xs : List Byte), s.cfg.wf → HoldsInput s xs →
    let head : List Byte := [0x52, s.seq, BitVec.ofNat 8 (xs.length / 256), BitVec.ofNat 8 (xs.length % 256),
      headerChecksum s.cfg.hdrVariant [s.seq, BitVec.ofNat 8 (xs.length / 256), BitVec.ofNat 8 (xs.length % 256)]] ++ xs
    (xs.length + 7 ≤ s.cfg.bufDepth →
      ∃ t, exec .build s = .next t ∧ Stored s.outBuf t.outBuf (head ++ [hi8 (crc16 head), lo8 (crc16 head)]) ∧
        t = complete .none { s with outBuf := t.outBuf, outLen := BitVec.ofNat 16 (xs.length + 7) }) ∧
      (s.cfg.bufDepth < xs.length + 7 → exec .build s = .next (complete .outOvf s))

/-- ENCODE writes Encode of its input, FRAME the encoded raw frame, or each completes with ERR_OUT_OVF; every other byte of
OUT_BUF and every other field is unchanged (41_frame_codec.md R141, R145, R147). -/
def Obligations.EncodeAndFrameWriteTheWireFrame : Prop :=
  ∀ (s : State) (xs : List Byte), HoldsInput s xs →
    ∀ (i : Instr) (o : List Byte),
      ((i = .encode ∧ o = wireEncode xs) ∨ (i = .frame ∧ o = wireEncode (buildRaw s.cfg.hdrVariant s.seq xs))) →
      (o.length ≤ s.cfg.bufDepth →
        ∃ t, exec i s = .next t ∧ Stored s.outBuf t.outBuf o ∧
          t = complete .none { s with outBuf := t.outBuf, outLen := BitVec.ofNat 16 o.length }) ∧
        (s.cfg.bufDepth < o.length → exec i s = .next (complete .outOvf s))

/-- DECODE (41_frame_codec.md R151, R152): an error completes with its code and nothing else; else the decoded bytes are
committed, VFLAGS is 0x00 without VERIFY_EN and the verification with it, and a failed verification is ERR_VERIFY. It never
overflows. -/
def Obligations.DecodeCommitsAndOptionallyVerifies : Prop :=
  ∀ (s : State) (xs : List Byte), HoldsInput s xs →
    (∀ e, wireDecode xs = .error e → exec .decode s = .next (complete e s)) ∧
      ∀ r, wireDecode xs = .ok r →
        ∃ t, exec .decode s = .next t ∧ Stored s.outBuf t.outBuf r ∧
          t = complete
            (if s.verifyEn = true ∧ (verifyFrame s.cfg.hdrVariant r).allOk = false then .verify else .none)
            { s with
              outBuf := t.outBuf, outLen := BitVec.ofNat 16 r.length
              vflags := if s.verifyEn then verifyFrame s.cfg.hdrVariant r else VFlags.zero }

/-- VERIFY sets VFLAGS and nothing else, with ERR_VERIFY unless every check passed (41_frame_codec.md R154). -/
def Obligations.VerifySetsVflags : Prop :=
  ∀ (s : State) (xs : List Byte), HoldsInput s xs →
    exec .verify s =
      .next (complete (if (verifyFrame s.cfg.hdrVariant xs).allOk then .none else .verify)
        { s with vflags := verifyFrame s.cfg.hdrVariant xs })

/-- The nine operations that consume IN[0..IN_LEN): ERR_IN_LEN and nothing else when IN_LEN > BUF_DEPTH
(60_exceptions.md R232), and the model fault UNINIT_READ when a byte of the input is unwritten (R242). -/
def Obligations.InputChecksComeFirst : Prop :=
  ∀ (i : Instr), i ∈ [.build, .encode, .frame, .decode, .verify, .sum8, .hchk, .crc8, .crc16] →
    ∀ s : State,
      (s.cfg.bufDepth < s.inLen.toNat → exec i s = .next (complete .inLen s)) ∧
        (s.inLen.toNat ≤ s.cfg.bufDepth → ∀ j, j < s.inLen.toNat → memGet s.inBuf j = none →
          exec i s = .fault .uninitRead)

/-! ### The transport -/

/-- Gating (43_transport_ops.md R190): outside ISP_READY, SEND and RECV complete with ERR_NOT_READY in their first step,
with no call and nothing else changed; the FLUSH operations are not gated. -/
def Obligations.SendAndRecvAreGated : Prop :=
  ∀ s : State, s.phase = .exec →
    (s.hsState ≠ .ispReady →
      exec .send s = .next (complete .notReady s) ∧ exec .recv s = .next (complete .notReady s)) ∧
      (∀ i ∈ [Instr.flushRx, .flushTx, .flushAll], exec i s = .next { s with phase := .tCall }) ∧
      ErrCode.notReady.code = 0x20

/-- SEND in ISP_READY (43_transport_ops.md R191): OUT_LEN = 0 succeeds with no call; else T_CALL makes one
`T.write(OUT[0..OUT_LEN))`, and its answer decides the completion. OUT_BUF and OUT_LEN are unchanged. -/
def Obligations.SendTransmitsTheOutput : Prop :=
  ∀ (s : State) (bs : List Byte), HoldsOutput s bs →
    (s.phase = .exec → s.hsState = .ispReady →
      exec .send s = .next (if bs = [] then complete .none s else { s with phase := .tCall })) ∧
      (s.phase = .tCall → ∀ x, nextAnswer s = .bytes x →
        exec .send s = .next (complete .none { dropAnswer s with history := s.history ++ [.write bs true] })) ∧
      (s.phase = .tCall → nextAnswer s = .fail →
        exec .send s = .next (complete .transport
          { dropAnswer s with history := s.history ++ [.write bs false], hsState := .failed }))

/-- RECV in ISP_READY (43_transport_ops.md R193): the range check, RX_REQ = 0, the call `T.read(RX_REQ, RX_TMO)`, and what
its answer does: the received bytes in IN_BUF from index 0 on, their number in IN_LEN, every other byte of IN_BUF as
before; a FAIL leaves IN_BUF and IN_LEN. -/
def Obligations.RecvStoresTheAnswer : Prop :=
  ∀ s : State, s.cfg.wf →
    (s.phase = .exec → s.hsState = .ispReady →
      (s.cfg.bufDepth < s.rxReq.toNat → exec .recv s = .next (complete .rxReq s)) ∧
        (s.rxReq = 0 → exec .recv s = .next (complete .none { s with inLen := 0 })) ∧
        (s.rxReq ≠ 0 → s.rxReq.toNat ≤ s.cfg.bufDepth → exec .recv s = .next { s with phase := .tCall })) ∧
      (s.phase = .tCall → ∀ x, nextAnswer s = .bytes x →
        ∃ t, exec .recv s = .next t ∧ Stored s.inBuf t.inBuf (x.take s.rxReq.toNat) ∧
          t = complete .none
            { dropAnswer s with
              inBuf := t.inBuf, inLen := BitVec.ofNat 16 (x.take s.rxReq.toNat).length
              history := s.history ++ [.read s.rxReq.toNat s.rxTmo (some (x.take s.rxReq.toNat))] }) ∧
      (s.phase = .tCall → nextAnswer s = .fail →
        exec .recv s = .next (complete .transport
          { dropAnswer s with history := s.history ++ [.read s.rxReq.toNat s.rxTmo none], hsState := .failed }))

/-- The FLUSH operations' call steps (43_transport_ops.md R194, R195, R196): one reset call, or for FLUSH_ALL the input
reset and then the output reset in one step; a FAIL ends the operation with HS_STATE = FAILED and no further call. -/
def Obligations.FlushCallsResetTheBuffers : Prop :=
  ∀ s : State, s.phase = .tCall →
    (∀ x, nextAnswer s = .bytes x →
      exec .flushRx s = .next (complete .none { dropAnswer s with history := s.history ++ [.resetIn true] }) ∧
        exec .flushTx s = .next (complete .none { dropAnswer s with history := s.history ++ [.resetOut true] }) ∧
        (∀ y, nextAnswer (dropAnswer s) = .bytes y →
          exec .flushAll s = .next (complete .none
            { dropAnswer (dropAnswer s) with history := s.history ++ [.resetIn true, .resetOut true] })) ∧
        (nextAnswer (dropAnswer s) = .fail →
          exec .flushAll s = .next (complete .transport
            { dropAnswer (dropAnswer s) with
              history := s.history ++ [.resetIn true, .resetOut false], hsState := .failed }))) ∧
      (nextAnswer s = .fail →
        exec .flushRx s = .next (complete .transport
            { dropAnswer s with history := s.history ++ [.resetIn false], hsState := .failed }) ∧
          exec .flushTx s = .next (complete .transport
            { dropAnswer s with history := s.history ++ [.resetOut false], hsState := .failed }) ∧
          exec .flushAll s = .next (complete .transport
            { dropAnswer s with history := s.history ++ [.resetIn false], hsState := .failed }))

/-- SEND, RECV and the FLUSH operations leave OUT_BUF and OUT_LEN, so SEND transmits the same bytes again
(43_transport_ops.md R192). -/
def Obligations.TransportOperationsKeepTheOutput : Prop :=
  ∀ (i : Instr), i ∈ [.send, .recv, .flushRx, .flushTx, .flushAll] →
    ∀ s t : State, exec i s = .next t →
      t.outBuf = s.outBuf ∧ t.outLen = s.outLen ∧ ∀ bs, HoldsOutput s bs ↔ HoldsOutput t bs

/-! ### The handshake -/

/-- The step sequence of HS_START, label by label (42_handshake.md R173): from EXEC and HS_CHECK in every state, and from
HS_RESET_IN, HS_WRITE and HS_READ for every answer. -/
def Obligations.HsStartStepSequence : Prop :=
  ∀ s : State,
    (s.phase = .exec →
      exec .hsStart s =
        .next (if s.hsState = .idle then { s with hsAtt := 0, phase := .hsCheck } else complete .hsState s)) ∧
      (s.phase = .hsCheck →
        exec .hsStart s =
          .next (if s.hsState = .ispReady then complete .none s
            else if s.hsAtt = s.hsMax then complete .hsTimeout { s with hsState := .failed }
            else { s with
              hsAtt := s.hsAtt + 1
              phase := if s.hsState = .idle ∨ s.cfg.hsFlushAck = true then .hsResetIn else .hsWrite })) ∧
      (s.phase = .hsResetIn →
        exec .hsStart s =
          .next (if nextAnswer s = .fail then
              complete .transport
                { dropAnswer s with history := s.history ++ [.resetIn false], hsState := .failed }
            else { dropAnswer s with history := s.history ++ [.resetIn true], phase := .hsWrite })) ∧
      (s.phase = .hsWrite →
        exec .hsStart s =
          .next (if nextAnswer s = .fail then
              complete .transport
                { dropAnswer s with
                  history := s.history ++ [.write [if s.hsState = .idle then 0xAA else 0x69] false]
                  hsState := .failed }
            else
              { dropAnswer s with
                history := s.history ++ [.write [if s.hsState = .idle then 0xAA else 0x69] true]
                phase := .hsRead })) ∧
      (s.phase = .hsRead →
        (nextAnswer s = .fail →
          exec .hsStart s = .next (complete .transport
            { dropAnswer s with
              history := s.history ++ [.read 1 (BitVec.ofNat 16 s.hsTmo.toNat) none], hsState := .failed })) ∧
          ∀ x, nextAnswer s = .bytes x →
            exec .hsStart s = .next
              { dropAnswer s with
                history := s.history ++ [.read 1 (BitVec.ofNat 16 s.hsTmo.toNat) (some (x.take 1))]
                hsState := if s.hsState = .idle ∧ x.take 1 = [0x55] then .ackReceived
                  else if s.hsState = .ackReceived ∧ x.take 1 = [0x6A] then .ispReady else s.hsState
                phase := .hsCheck })

/-- An IDLE-phase attempt that meets no FAIL (42_handshake.md R174), when only the block moves: its three calls in their
order, and ACK_RECEIVED exactly when the read answers [0x55]. -/
def Obligations.IdleAttemptMakesThreeCalls : Prop :=
  ∀ (s : State) (a1 a2 a3 : List Byte),
    s.events = [] → s.op = 0x20 → s.phase = .hsCheck → s.hsState = .idle → s.hsAtt ≠ s.hsMax →
    nextAnswer s = .bytes a1 → nextAnswer (dropAnswer s) = .bytes a2 →
    nextAnswer (dropAnswer (dropAnswer s)) = .bytes a3 →
      Host.Core.run core 4 s = .next
        { dropAnswer (dropAnswer (dropAnswer s)) with
          hsAtt := s.hsAtt + 1
          hsState := if a3.take 1 = [0x55] then .ackReceived else .idle
          history := s.history ++
            [.resetIn true, .write [0xAA] true, .read 1 (BitVec.ofNat 16 s.hsTmo.toNat) (some (a3.take 1))] }

/-- An ACK_RECEIVED-phase attempt that meets no FAIL (42_handshake.md R175), when only the block moves: a `T.reset_in()`
first only under HS_FLUSH_ACK, then its two calls, and ISP_READY exactly when the read answers [0x6A]; otherwise it stays
ACK_RECEIVED. -/
def Obligations.AckAttemptMakesItsCalls : Prop :=
  ∀ (s : State) (a1 a2 a3 : List Byte),
    s.events = [] → s.op = 0x20 → s.phase = .hsCheck → s.hsState = .ackReceived → s.hsAtt ≠ s.hsMax →
      nextAnswer s = .bytes a1 → nextAnswer (dropAnswer s) = .bytes a2 →
      (s.cfg.hsFlushAck = false →
        Host.Core.run core 3 s = .next
          { dropAnswer (dropAnswer s) with
            hsAtt := s.hsAtt + 1
            hsState := if a2.take 1 = [0x6A] then .ispReady else .ackReceived
            history := s.history ++
              [.write [0x69] true, .read 1 (BitVec.ofNat 16 s.hsTmo.toNat) (some (a2.take 1))] }) ∧
        (s.cfg.hsFlushAck = true → nextAnswer (dropAnswer (dropAnswer s)) = .bytes a3 →
          Host.Core.run core 4 s = .next
            { dropAnswer (dropAnswer (dropAnswer s)) with
              hsAtt := s.hsAtt + 1
              hsState := if a3.take 1 = [0x6A] then .ispReady else .ackReceived
              history := s.history ++
                [.resetIn true, .write [0x69] true,
                  .read 1 (BitVec.ofNat 16 s.hsTmo.toNat) (some (a3.take 1))] })

/-- HS_SKIP from IDLE makes the link ready with no call; HS_START and HS_SKIP from any other state complete with
ERR_HS_STATE and change nothing else (42_handshake.md R180, 60_exceptions.md R238). -/
def Obligations.HandshakeOperationsNeedIdle : Prop :=
  ∀ s : State, s.phase = .exec →
    (s.hsState = .idle → exec .hsSkip s = .next (complete .none { s with hsState := .ispReady })) ∧
      (s.hsState ≠ .idle →
        exec .hsSkip s = .next (complete .hsState s) ∧ exec .hsStart s = .next (complete .hsState s))

/-- The handshake bytes as the steps that send or receive them (30_encoding.md R100, R101; that a byte's execution is this
step is the model's reading, log 9). -/
def Obligations.HandshakeBytesSendAndReceive : Prop :=
  ∀ s : State,
    (∀ x, nextAnswer s = .bytes x →
      exec .start s = .next
          { dropAnswer s with history := s.history ++ [.write [0xAA] true], phase := .hsRead } ∧
        exec .ispStart s = .next
          { dropAnswer s with history := s.history ++ [.write [0x69] true], phase := .hsRead }) ∧
      exec .ack s = .next
        { s with
          history := s.history ++ [.read 1 (BitVec.ofNat 16 s.hsTmo.toNat) (some [0x55])]
          hsState := if s.hsState = .idle then .ackReceived else s.hsState
          phase := .hsCheck } ∧
      exec .ispReady s = .next
        { s with
          history := s.history ++ [.read 1 (BitVec.ofNat 16 s.hsTmo.toNat) (some [0x6A])]
          hsState := if s.hsState = .ackReceived then .ispReady else s.hsState
          phase := .hsCheck }

/-- A handshake that starts ends ISP_READY or FAILED, at rest, within 2 + 4·HS_MAX block steps, whatever the transport
answers, with HS_ATT ≤ HS_MAX; success takes at least two attempts, a timeout exactly HS_MAX (42_handshake.md R176, R177,
R179). -/
def Obligations.HandshakeEndsReadyOrFailed : Prop :=
  ∀ s : State, s.events = [] → s.op = 0x20 → s.phase = .exec → s.hsState = .idle →
    ∃ k t, k ≤ 2 + 4 * s.hsMax.toNat ∧ Host.Core.run core k s = .next t ∧ t.phase = .ready ∧ t.busy = false ∧
      t.hsMax = s.hsMax ∧ t.hsAtt.toNat ≤ s.hsMax.toNat ∧
      ((t.hsState = .ispReady ∧ t.errcode = .none ∧ 2 ≤ t.hsAtt.toNat) ∨
        (t.hsState = .failed ∧ t.errcode = .hsTimeout ∧ t.hsAtt = s.hsMax) ∨
        (t.hsState = .failed ∧ t.errcode = .transport))

/-- The transitions of HS_STATE are exactly those of 10_state.md R45, over every step of the machine: each change has its
cause in that step. -/
def Obligations.HandshakeTransitionsAreExactlyTheListed : Prop :=
  ∀ s t : State, Inv s → step s = .next t → t.hsState ≠ s.hsState →
    (ResetNext s ∧ t.hsState = .idle) ∨
      (BlockTurn s ∧ s.phase ≠ .ready ∧
        ((s.hsState = .idle ∧ t.hsState = .ackReceived ∧ s.op = 0x20 ∧ s.phase = .hsRead ∧
            t.history = s.history ++ [.read 1 (BitVec.ofNat 16 s.hsTmo.toNat) (some [0x55])]) ∨
          (s.hsState = .ackReceived ∧ t.hsState = .ispReady ∧ s.op = 0x20 ∧ s.phase = .hsRead ∧
            t.history = s.history ++ [.read 1 (BitVec.ofNat 16 s.hsTmo.toNat) (some [0x6A])]) ∨
          (s.hsState = .idle ∧ t.hsState = .ispReady ∧ s.op = 0x21 ∧ t.history = s.history) ∨
          ((s.hsState = .idle ∨ s.hsState = .ackReceived) ∧ t.hsState = .failed ∧ s.op = 0x20 ∧
            s.phase = .hsCheck ∧ s.hsAtt = s.hsMax ∧ t.errcode = .hsTimeout) ∨
          (s.hsState ≠ .failed ∧ t.hsState = .failed ∧ t.errcode = .transport ∧
            ∃ calls c, t.history = s.history ++ calls ++ [c] ∧ c.failed = true)))

/-! ### Data rows -/

/-- The load of a data row (30_encoding.md R105, 10_state.md R42): with BUSY = 0 the row's bytes are in IN_BUF from index 0
on, as far as IN_BUF reaches, IN_LEN is their number modulo 2^16, and every other byte and field is unchanged; with
BUSY = 1 the load is dropped and sets OVR. The bytes are those of 30_encoding.md R95 and R97. That the row's execution is
the load is the model's choice (log 8); so are the load in one step, its cut at BUF_DEPTH and its length modulo 2^16, for
payloads of any length (log 12). -/
def Obligations.FrameSymbolsAreLoaded : Prop :=
  ∀ (i : Instr) (bs : List Byte),
    ((i = .delim ∧ bs = [0xC0]) ∨ (i = .esc ∧ bs = [0xDB]) ∨ (i = .escDelim ∧ bs = [0xDC]) ∨
      (i = .escEsc ∧ bs = [0xDD]) ∨
      ∃ (seq chk : Byte) (len crc : Half) (payload : List Byte), i = .frameHeader seq len chk payload crc ∧
        bs = [0x52, seq, BitVec.ofNat 8 (len.toNat / 256), BitVec.ofNat 8 (len.toNat % 256), chk] ++ payload ++
          [BitVec.ofNat 8 (crc.toNat / 256), BitVec.ofNat 8 (crc.toNat % 256)]) →
    ∀ s : State,
      (s.busy = false →
        ∃ t, exec i s = .next t ∧ Stored s.inBuf t.inBuf (bs.take s.cfg.bufDepth) ∧
          t = { s with inBuf := t.inBuf, inLen := BitVec.ofNat 16 bs.length }) ∧
        (s.busy = true → exec i s = .next { s with ovr := true })

/-- The load of a command payload (44_wire_commands.md R210 to R220): the payload's bytes in IN_BUF as far as it reaches,
its length modulo 2^16 in IN_LEN, everything else unchanged; dropped with OVR while BUSY = 1. That the row's execution is
the load is the model's choice (log 8); so are the load in one step, its cut at BUF_DEPTH and its length modulo 2^16, for
operands of any length (log 12). The OTP offset is little-endian, in the width of the device's layout (log 11). -/
def Obligations.WireCommandPayloadsAreLoaded : Prop :=
  ∀ (i : Instr) (p : List Byte),
    ((∃ a : Word, i = .readRegister a ∧ p = 0x01 :: le32 a) ∨
      (∃ a v : Word, i = .writeRegister a v ∧ p = 0x02 :: (le32 a ++ le32 v)) ∨
      (i = .getFlashId ∧ p = [0x04]) ∨ (i = .eraseSecureOtpPage ∧ p = [0x08]) ∨
      (∃ before kv, i = .legacyKeyWrite before kv ∧ p = 0x09 :: (before ++ kv ++ [crc8 kv])) ∨
      (i = .verifyBootloaderSignature ∧ p = [0x0E]) ∨ (i = .requestSecureDebug ∧ p = [0x0F]) ∨
      (∃ r sig, i = .sendChallengeResponse r sig ∧ p = [0x10, 0x52, 0x00, 0x00, 0x01] ++ r ++ sig) ∨
      (∃ option chk off value, off.length = Config.wireLayout.otpRegister.offsetBytes ∧
        i = .writeOtpRegister option chk (natOfBytes off) value ∧
        p = [0x11, option, chk] ++ off ++ value ++ [crc8 value]) ∨
      ∃ option chk off key, off.length = Config.wireLayout.otpKey.offsetBytes ∧
        i = .writeOtpKey option chk (natOfBytes off) key ∧ p = [0x12, option, chk] ++ off ++ key) →
    ∀ s : State,
      (s.busy = false →
        ∃ t, exec i s = .next t ∧ Stored s.inBuf t.inBuf (p.take s.cfg.bufDepth) ∧
          t = { s with inBuf := t.inBuf, inLen := BitVec.ofNat 16 p.length }) ∧
        (s.busy = true → exec i s = .next { s with ovr := true })

/-! ### The whole machine -/

/-- The invariant holds after reset. -/
def Obligations.InvariantHoldsAtReset : Prop := Inv State.reset

/-- Every step keeps the invariant. -/
def Obligations.EveryStepKeepsTheInvariant : Prop := ∀ s t : State, Inv s → step s = .next t → Inv t

/-- The only fault of a block step in a state that meets the invariant is UNINIT_READ of IN_BUF, by an operation that
consumes it; SEND never meets it (60_exceptions.md R242, 43_transport_ops.md R191). -/
def Obligations.BlockFaultsOnlyOnUnwrittenInput : Prop :=
  ∀ s : State, Inv s → BlockTurn s →
    (∃ t, step s = .next t) ∨
      (step s = .fault .uninitRead ∧ s.op ∈ [0x01, 0x02, 0x03, 0x04, 0x05, 0x08, 0x09, 0x0A, 0x0B] ∧
        s.inLen.toNat ≤ s.cfg.bufDepth ∧ ∃ j, j < s.inLen.toNat ∧ memGet s.inBuf j = none)

/-- While an operation is in flight, what it reads holds: the host registers, IN_BUF and IN_LEN keep their values in every
step but reset, except that RECV writes IN_BUF and IN_LEN in the step that completes it (10_state.md R47). -/
def Obligations.OperandsHoldWhileInFlight : Prop :=
  ∀ s t : State, Inv s → s.phase ≠ .ready → step s = .next t → ¬ ResetNext s →
    t.op = s.op ∧ t.verifyEn = s.verifyEn ∧ t.seq = s.seq ∧ t.hsMax = s.hsMax ∧ t.hsTmo = s.hsTmo ∧
      t.rxTmo = s.rxTmo ∧ t.rxReq = s.rxReq ∧ t.cfg = s.cfg ∧
      (t.inBuf = s.inBuf ∧ t.inLen = s.inLen ∨ s.op = 0x11 ∧ BlockTurn s ∧ t.phase = .ready)

/-- OUT_BUF and OUT_LEN are written only by BUILD, ENCODE, FRAME and DECODE, in the step that completes them, and by reset
(10_state.md R43, R50). -/
def Obligations.OutputChangesOnlyAtCodecCompletion : Prop :=
  ∀ s t : State, step s = .next t → ¬ ResetNext s →
    (t.outBuf = s.outBuf ∧ t.outLen = s.outLen) ∨
      (BlockTurn s ∧ s.op ∈ [0x01, 0x02, 0x03, 0x04] ∧ s.phase ≠ .ready ∧ t.phase = .ready ∧
        (t.errcode = .none ∨ s.op = 0x04 ∧ t.errcode = .verify))

/-- RESULT is written only by the checksum operations on success, VFLAGS only by VERIFY and DECODE, HS_ATT only by
HS_START, and each by reset (10_state.md R30, R37, R38, R50). -/
def Obligations.ResultVflagsAndAttemptsHaveTheirWriters : Prop :=
  ∀ s t : State, step s = .next t → ¬ ResetNext s →
    (t.result = s.result ∨ BlockTurn s ∧ s.op ∈ [0x08, 0x09, 0x0A, 0x0B] ∧ t.errcode = .none) ∧
      (t.vflags = s.vflags ∨ BlockTurn s ∧ s.op ∈ [0x04, 0x05] ∧ (t.errcode = .none ∨ t.errcode = .verify)) ∧
      (t.hsAtt = s.hsAtt ∨ BlockTurn s ∧ s.op = 0x20)

/-- The transport history only grows, by at most two calls a step, only on the block's turn in an operation that calls the
transport, and every call added is one the port admits (20_memory.md R75, R76). -/
def Obligations.TransportCallsAreLegalAndOnlyAppended : Prop :=
  ∀ s t : State, Inv s → step s = .next t →
    ∃ calls : List Call, t.history = s.history ++ calls ∧ calls.length ≤ 2 ∧ (∀ c ∈ calls, c.legal = true) ∧
      (calls ≠ [] → BlockTurn s ∧
        ((s.phase = .tCall ∧ s.op ∈ transportCodes) ∨ (inAttempt s.phase = true ∧ s.op = 0x20)))

/-- Every operation completes within the block steps of 70_reset_and_hazards.md R282, when only the block moves, unless it
meets the model fault UNINIT_READ. -/
def Obligations.EveryOperationEndsWithinItsBound : Prop :=
  ∀ s : State, Inv s → s.events = [] → s.phase = .exec →
    ∃ k, k ≤ stepBound s.op s.hsMax ∧
      ((∃ t, Host.Core.run core k s = .next t ∧ t.phase = .ready ∧ t.busy = false ∧ t.done = true) ∨
        Host.Core.run core k s = .fault .uninitRead)

/-- A transport failure is sticky until reset: FAILED stays FAILED in every other step, and in it SEND and RECV make no
call (60_exceptions.md R236). -/
def Obligations.FailedIsStickyUntilReset : Prop :=
  ∀ s t : State, s.hsState = .failed → step s = .next t → ¬ ResetNext s →
    t.hsState = .failed ∧ (Inv s → s.op = 0x10 ∨ s.op = 0x11 → t.history = s.history)
end

