-- ==== Sys2Proof/Laws/Decode.lean ====
section
/-! SUPPORT. The byte-order helpers, and what the decoder can answer. -/

namespace Sys2Proof

open Machine (bytesOfNat)

theorem getLsbD_ofHiLo (h l : Byte) (i : Nat) :
    (ofHiLo h l).getLsbD i = if i < 8 then l.getLsbD i else h.getLsbD (i - 8) :=
  BitVec.getLsbD_append

@[simp] theorem ofHiLo_hi8_lo8 (v : Half) : ofHiLo (hi8 v) (lo8 v) = v := by
  refine BitVec.eq_of_getLsbD_eq fun i hi => ?_
  rw [getLsbD_ofHiLo]
  unfold hi8 lo8
  split
  · simp; omega
  · rw [BitVec.getLsbD_extractLsb', show 8 + (i - 8) = i by omega]; simp; omega

@[simp] theorem hi8_ofHiLo (h l : Byte) : hi8 (ofHiLo h l) = h := by
  refine BitVec.eq_of_getLsbD_eq fun i hi => ?_
  unfold hi8
  rw [BitVec.getLsbD_extractLsb', getLsbD_ofHiLo]
  simp [hi]

@[simp] theorem lo8_ofHiLo (h l : Byte) : lo8 (ofHiLo h l) = l := by
  refine BitVec.eq_of_getLsbD_eq fun i hi => ?_
  unfold lo8
  rw [BitVec.getLsbD_extractLsb', getLsbD_ofHiLo]
  simp [hi]

theorem getLsbD_ofLe32 (b0 b1 b2 b3 : Byte) (i : Nat) :
    (ofLe32 b0 b1 b2 b3).getLsbD i =
      if i < 8 then b0.getLsbD i
      else if i < 16 then b1.getLsbD (i - 8)
      else if i < 24 then b2.getLsbD (i - 16)
      else b3.getLsbD (i - 24) := by
  unfold ofLe32
  refine (BitVec.getLsbD_append (x := b3 ++ b2 ++ b1) (y := b0)).trans ?_
  split
  · rfl
  · refine (BitVec.getLsbD_append (x := b3 ++ b2) (y := b1)).trans ?_
    rw [BitVec.getLsbD_append]
    repeat' split
    all_goals first | rfl | omega

theorem ofLe32_le32 (v : Word) :
    ofLe32 (v.extractLsb' 0 8) (v.extractLsb' 8 8) (v.extractLsb' 16 8) (v.extractLsb' 24 8) = v := by
  refine BitVec.eq_of_getLsbD_eq fun i hi => ?_
  rw [getLsbD_ofLe32]
  simp only [BitVec.getLsbD_extractLsb']
  repeat' split
  · simp [*]
  · rw [show 8 + (i - 8) = i by omega]; simp; omega
  · rw [show 16 + (i - 16) = i by omega]; simp; omega
  · rw [show 24 + (i - 24) = i by omega]; simp; omega

theorem le32_ofLe32 (b0 b1 b2 b3 : Byte) : le32 (ofLe32 b0 b1 b2 b3) = [b0, b1, b2, b3] := by
  have h (k : Nat) (b : Byte) (hb : ∀ i, i < 8 → (ofLe32 b0 b1 b2 b3).getLsbD (k + i) = b.getLsbD i) :
      (ofLe32 b0 b1 b2 b3).extractLsb' k 8 = b := by
    refine BitVec.eq_of_getLsbD_eq fun i hi => ?_
    rw [BitVec.getLsbD_extractLsb', hb i hi]
    simp [hi]
  unfold le32
  rw [h 0 b0, h 8 b1, h 16 b2, h 24 b3]
  all_goals
    intro i hi
    rw [getLsbD_ofLe32]
    repeat' split
    all_goals first | omega | (congr 1; omega)

@[simp] theorem length_bytesOfNat (n v : Nat) : (bytesOfNat n v).length = n := by
  induction n generalizing v with
  | zero => rfl
  | succ n ih => simp [bytesOfNat, ih]

/-- A number that fits `n` little-endian bytes is read back from them. -/
theorem natOfBytes_bytesOfNat {n v : Nat} (h : v < 256 ^ n) : natOfBytes (bytesOfNat n v) = v := by
  induction n generalizing v with
  | zero => simp only [Nat.pow_zero, Nat.lt_one_iff] at h; rw [h]; rfl
  | succ n ih =>
    rw [Nat.pow_succ] at h
    simp only [bytesOfNat, natOfBytes, BitVec.toNat_ofNat, ih (Nat.div_lt_of_lt_mul (by rwa [Nat.mul_comm]))]
    omega

theorem natOfBytes_lt (bs : List Byte) : natOfBytes bs < 256 ^ bs.length := by
  induction bs with
  | nil => decide
  | cons b bs ih =>
    have hb := b.isLt
    simp only [natOfBytes, List.length_cons, Nat.pow_succ]
    omega

/-- Little-endian bytes are those of the number they stand for. -/
theorem bytesOfNat_natOfBytes (bs : List Byte) : bytesOfNat bs.length (natOfBytes bs) = bs := by
  induction bs with
  | nil => rfl
  | cons b bs ih =>
    have hb := b.isLt
    have hd : (b.toNat + 256 * natOfBytes bs) / 256 = natOfBytes bs := by omega
    have hm : BitVec.ofNat 8 (b.toNat + 256 * natOfBytes bs) = b := by
      apply BitVec.eq_of_toNat_eq
      rw [BitVec.toNat_ofNat]
      omega
    simp only [List.length_cons, bytesOfNat, natOfBytes, hd, hm, ih]

@[simp] theorem length_le32 (v : Word) : (le32 v).length = 4 := rfl

@[simp] theorem length_be16 (v : Half) : (be16 v).length = 2 := rfl

end Sys2Proof
end

