-- ==== Sys2Proof/Laws/Frame.lean ====
section
/-! SUPPORT. What Decode and Verify can answer, said once: an output shorter than its input, an error that is one of
Decode's own, and ALL_OK as the conjunction of the other checks. -/

namespace Sys2Proof.Machine

theorem consDecoded_ok {b : Byte} {x : Except ErrCode (List Byte)} {r : List Byte} (h : consDecoded b x = .ok r) :
    ∃ t, x = .ok t ∧ r = b :: t := by
  cases x with
  | error e => cases h
  | ok t => cases h; exact ⟨t, rfl, rfl⟩

theorem consDecoded_error {b : Byte} {x : Except ErrCode (List Byte)} {e : ErrCode}
    (h : consDecoded b x = .error e) : x = .error e := by
  cases x with
  | error e => cases h; rfl
  | ok t => cases h

/-- An ordinary byte is itself (41_frame_codec.md R148). -/
theorem unescape_plain {b : Byte} (h1 : b ≠ delimByte) (h2 : b ≠ escByte) (w : List Byte) :
    unescape (b :: w) = consDecoded b (unescape w) := by
  cases w with
  | nil => simp only [unescape, if_neg h1, if_neg h2, consDecoded]
  | cons c w => simp only [unescape, if_neg h1, if_neg h2]

/-- An unescaped delimiter in the body (41_frame_codec.md R148). -/
theorem unescape_delim (w : List Byte) : unescape (delimByte :: w) = .error .decRawFend := by
  cases w <;> rfl

/-- The escape pair of 0xC0 (30_encoding.md R97). -/
theorem unescape_escDelim (w : List Byte) :
    unescape (escByte :: escDelimByte :: w) = consDecoded delimByte (unescape w) := rfl

/-- The escape pair of 0xDB (30_encoding.md R97). -/
theorem unescape_escEsc (w : List Byte) : unescape (escByte :: escEscByte :: w) = consDecoded escByte (unescape w) := rfl

/-- A bad escape pair (41_frame_codec.md R148). -/
theorem unescape_badEsc {c : Byte} (h1 : c ≠ escDelimByte) (h2 : c ≠ escEscByte) (w : List Byte) :
    unescape (escByte :: c :: w) = .error .decBadEsc := by
  simp only [unescape, if_neg h1, if_neg h2]; rfl

/-- A truncated escape pair (41_frame_codec.md R148). -/
theorem unescape_trunc : unescape [escByte] = .error .decTruncEsc := rfl

/-- The codes of Decode's errors (41_frame_codec.md R148). -/
def decodeErrors : List ErrCode := [.decDelim, .decRawFend, .decBadEsc, .decTruncEsc]

theorem unescape_length (w r : List Byte) (h : unescape w = .ok r) : r.length ≤ w.length := by
  induction w using unescape.induct generalizing r with
  | case1 => cases h; exact Nat.le_refl 0
  | case2 => rw [unescape_delim] at h; cases h
  | case3 => cases h
  | case4 b h1 h2 => rw [unescape_plain h1 h2] at h; cases h; exact Nat.le_refl 1
  | case5 => rw [unescape_delim] at h; cases h
  | case6 w _ ih | case7 w _ _ ih =>
    obtain ⟨t, ht, rfl⟩ := consDecoded_ok h
    have := ih t ht
    simp only [List.length_cons]; omega
  | case8 c w h1 h2 h3 => rw [unescape_badEsc h1 h2] at h; cases h
  | case9 b c w h1 h2 ih =>
    rw [unescape_plain h1 h2] at h
    obtain ⟨t, ht, rfl⟩ := consDecoded_ok h
    have := ih t ht
    simp only [List.length_cons] at *; omega

theorem unescape_error (w : List Byte) (e : ErrCode) (h : unescape w = .error e) : e ∈ decodeErrors := by
  induction w using unescape.induct with
  | case1 => cases h
  | case2 => rw [unescape_delim] at h; cases h; decide
  | case3 => cases h; decide
  | case4 b h1 h2 => rw [unescape_plain h1 h2] at h; cases h
  | case5 => rw [unescape_delim] at h; cases h; decide
  | case6 w _ ih | case7 w _ _ ih => exact ih (consDecoded_error h)
  | case8 c w h1 h2 h3 => rw [unescape_badEsc h1 h2] at h; cases h; decide
  | case9 b c w h1 h2 ih => rw [unescape_plain h1 h2] at h; exact ih (consDecoded_error h)

theorem decodeBody_length (w r : List Byte) (h : decodeBody w = .ok r) : r.length ≤ w.length := by
  cases w with
  | nil => cases h; exact Nat.le_refl 0
  | cons b w =>
    obtain ⟨t, ht, rfl⟩ := consDecoded_ok h
    exact Nat.succ_le_succ (unescape_length w t ht)

theorem decodeBody_error (w : List Byte) (e : ErrCode) (h : decodeBody w = .error e) : e ∈ decodeErrors := by
  cases w with
  | nil => cases h
  | cons b w => exact unescape_error w e (consDecoded_error h)

/-- Decode's output is shorter than its input, so DECODE cannot overflow (41_frame_codec.md R151). -/
theorem wireDecode_length {w r : List Byte} (h : wireDecode w = .ok r) : r.length + 2 ≤ w.length := by
  unfold wireDecode at h
  split at h
  · cases h
  · have := decodeBody_length _ _ h
    simp only [List.length_dropLast, List.length_drop] at this
    omega

theorem wireDecode_error {w : List Byte} {e : ErrCode} (h : wireDecode w = .error e) : e ∈ decodeErrors := by
  unfold wireDecode at h
  split at h
  · cases h; decide
  · exact decodeBody_error _ _ h

/-- ALL_OK is the conjunction of the other checks (10_state.md R38). -/
theorem verifyFrame_allOk (v : HdrVariant) (f : List Byte) :
    (verifyFrame v f).allOk = ((verifyFrame v f).hdrOk && (verifyFrame v f).hchkOk && (verifyFrame v f).lenOk &&
      (verifyFrame v f).crcOk && (verifyFrame v f).sizeOk) := by
  unfold verifyFrame
  dsimp only
  split
  · rfl
  · simp only [Bool.and_true]

end Sys2Proof.Machine
end

