-- ==== Sys2Proof/Laws/Memory.lean ====
section
/-! SUPPORT. What the buffer operations do: read after write, the canonical form is kept, and byte strings are loaded
and stored index by index. -/

namespace Sys2Proof.Machine

theorem memGet_memSet (m : Memory) (a : Nat) (v : Byte) (j : Nat) :
    memGet (memSet m a v) j = if j = a then some v else memGet m j := by
  induction m with
  | nil => simp [memSet, memGet, eq_comm]
  | cons c m ih =>
    obtain ⟨k, b⟩ := c
    unfold memSet
    split
    · simp only [memGet]; split <;> simp_all [eq_comm]
    · split
      · subst_vars; simp only [memGet]; split <;> simp_all [eq_comm]
      · simp only [memGet, ih]
        split
        · rename_i hk hj
          subst hj
          rw [if_neg (fun h => hk h.symm)]
        · rfl

theorem memGet_memSet_self (m : Memory) (a : Nat) (v : Byte) : memGet (memSet m a v) a = some v := by
  simp [memGet_memSet]

theorem mem_memSet {m : Memory} {a : Nat} {v : Byte} {c : Host.Cell} (h : c ∈ memSet m a v) :
    c = (a, v) ∨ c ∈ m := by
  induction m with
  | nil => simpa [memSet] using h
  | cons d m ih =>
    obtain ⟨k, b⟩ := d
    unfold memSet at h
    split at h
    · simpa using h
    · split at h
      · simp only [List.mem_cons] at h ⊢; tauto
      · simp only [List.mem_cons] at h ⊢
        rcases h with h | h
        · exact .inr (.inl h)
        · rcases ih h with h | h <;> tauto

theorem memSet_wf {m : Memory} (hm : m.wf) (a : Nat) (v : Byte) : (memSet m a v).wf := by
  induction m with
  | nil => simp [memSet, Memory.wf]
  | cons d m ih =>
    obtain ⟨k, b⟩ := d
    have hm' := List.pairwise_cons.1 hm
    unfold memSet
    split
    · rename_i hlt
      refine List.pairwise_cons.2 ⟨fun c hc => ?_, hm⟩
      rcases List.mem_cons.1 hc with rfl | hc
      · exact hlt
      · exact Nat.lt_trans hlt (hm'.1 c hc)
    · split
      · rename_i heq
        subst heq
        exact List.pairwise_cons.2 ⟨hm'.1, hm'.2⟩
      · refine List.pairwise_cons.2 ⟨fun c hc => ?_, ih hm'.2⟩
        rcases mem_memSet hc with rfl | hc
        · simp only; omega
        · exact hm'.1 c hc

theorem storeBytes_wf {m : Memory} (hm : m.wf) (a : Nat) (bs : List Byte) : (storeBytes m a bs).wf := by
  induction bs generalizing m a with
  | nil => exact hm
  | cons b bs ih => exact ih (memSet_wf hm a b) (a + 1)

theorem mem_storeBytes {m : Memory} {a : Nat} {bs : List Byte} {c : Host.Cell} (h : c ∈ storeBytes m a bs) :
    c ∈ m ∨ c.1 < a + bs.length := by
  induction bs generalizing m a with
  | nil => exact .inl h
  | cons b bs ih =>
    rcases ih h with h | h
    · rcases mem_memSet h with rfl | h
      · exact .inr (by simp)
      · exact .inl h
    · exact .inr (by simp only [List.length_cons]; omega)

theorem memGet_storeBytes (m : Memory) (a : Nat) (bs : List Byte) (j : Nat) :
    memGet (storeBytes m a bs) j = if a ≤ j ∧ j < a + bs.length then bs[j - a]? else memGet m j := by
  induction bs generalizing m a with
  | nil =>
    rw [if_neg (by simp only [List.length_nil]; omega)]
    rfl
  | cons b bs ih =>
    simp only [storeBytes, ih, memGet_memSet, List.length_cons]
    by_cases h : j = a
    · subst h; simp
    · by_cases h2 : a + 1 ≤ j ∧ j < a + 1 + bs.length
      · have : j - a = (j - (a + 1)) + 1 := by omega
        rw [if_pos h2, if_pos (by omega), this, List.getElem?_cons_succ]
      · rw [if_neg h2, if_neg h, if_neg (by omega)]

theorem loadBytes_length {m : Memory} {a n : Nat} {xs : List Byte} (h : loadBytes m a n = some xs) :
    xs.length = n := by
  induction n generalizing a xs with
  | zero => simp [loadBytes] at h; simp [← h]
  | succ n ih =>
    simp only [loadBytes] at h
    split at h
    · rename_i b bs hb hbs
      have := ih hbs
      simp only [Option.some.injEq] at h
      simp [← h, this]
    · cases h

theorem loadBytes_eq_some {m : Memory} {a n : Nat} {xs : List Byte} :
    loadBytes m a n = some xs ↔ xs.length = n ∧ ∀ j, j < n → memGet m (a + j) = xs[j]? := by
  induction n generalizing a xs with
  | zero =>
    simp only [loadBytes, Option.some.injEq]
    constructor
    · rintro rfl; simp
    · rintro ⟨h, -⟩; exact (List.length_eq_zero_iff.1 h).symm
  | succ n ih =>
    constructor
    · intro h
      have hl := loadBytes_length h
      simp only [loadBytes] at h
      split at h
      · rename_i b bs hb hbs
        simp only [Option.some.injEq] at h
        subst h
        refine ⟨hl, fun j hj => ?_⟩
        cases j with
        | zero => simpa using hb
        | succ j =>
          have := (ih.1 hbs).2 j (by omega)
          rw [List.getElem?_cons_succ, ← this]
          congr 1; omega
      · cases h
    · rintro ⟨hl, h⟩
      cases xs with
      | nil => simp at hl
      | cons b bs =>
        have h0 := h 0 (by omega)
        have hs : loadBytes m (a + 1) n = some bs := by
          refine ih.2 ⟨by simpa using hl, fun j hj => ?_⟩
          have := h (j + 1) (by omega)
          rw [List.getElem?_cons_succ] at this
          rw [← this]; congr 1; omega
        simp only [Nat.add_zero, List.getElem?_cons_zero] at h0
        simp [loadBytes, h0, hs]

end Sys2Proof.Machine
end

