-- ==== Sys2Proof/Laws/State.lean ====
section
/-! SUPPORT. One lemma per field per named update of the state, true by rfl and in the simp set, so that no proof unfolds
an update to read a field of it. -/

namespace Sys2Proof.Machine

/-! `accept`: 60_exceptions.md R239. -/

@[simp] theorem accept_cfg (v : Byte) (s : State) : (accept v s).cfg = s.cfg := rfl
@[simp] theorem accept_busy (v : Byte) (s : State) : (accept v s).busy = true := rfl
@[simp] theorem accept_done (v : Byte) (s : State) : (accept v s).done = false := rfl
@[simp] theorem accept_err (v : Byte) (s : State) : (accept v s).err = false := rfl
@[simp] theorem accept_ovr (v : Byte) (s : State) : (accept v s).ovr = s.ovr := rfl
@[simp] theorem accept_errcode (v : Byte) (s : State) : (accept v s).errcode = .none := rfl
@[simp] theorem accept_verifyEn (v : Byte) (s : State) : (accept v s).verifyEn = s.verifyEn := rfl
@[simp] theorem accept_seq (v : Byte) (s : State) : (accept v s).seq = s.seq := rfl
@[simp] theorem accept_hsState (v : Byte) (s : State) : (accept v s).hsState = s.hsState := rfl
@[simp] theorem accept_hsAtt (v : Byte) (s : State) : (accept v s).hsAtt = s.hsAtt := rfl
@[simp] theorem accept_hsMax (v : Byte) (s : State) : (accept v s).hsMax = s.hsMax := rfl
@[simp] theorem accept_hsTmo (v : Byte) (s : State) : (accept v s).hsTmo = s.hsTmo := rfl
@[simp] theorem accept_rxTmo (v : Byte) (s : State) : (accept v s).rxTmo = s.rxTmo := rfl
@[simp] theorem accept_rxReq (v : Byte) (s : State) : (accept v s).rxReq = s.rxReq := rfl
@[simp] theorem accept_inLen (v : Byte) (s : State) : (accept v s).inLen = s.inLen := rfl
@[simp] theorem accept_outLen (v : Byte) (s : State) : (accept v s).outLen = s.outLen := rfl
@[simp] theorem accept_result (v : Byte) (s : State) : (accept v s).result = s.result := rfl
@[simp] theorem accept_vflags (v : Byte) (s : State) : (accept v s).vflags = s.vflags := rfl
@[simp] theorem accept_op (v : Byte) (s : State) : (accept v s).op = v := rfl
@[simp] theorem accept_phase (v : Byte) (s : State) : (accept v s).phase = .exec := rfl
@[simp] theorem accept_inBuf (v : Byte) (s : State) : (accept v s).inBuf = s.inBuf := rfl
@[simp] theorem accept_outBuf (v : Byte) (s : State) : (accept v s).outBuf = s.outBuf := rfl
@[simp] theorem accept_history (v : Byte) (s : State) : (accept v s).history = s.history := rfl
@[simp] theorem accept_reads (v : Byte) (s : State) : (accept v s).reads = s.reads := rfl
@[simp] theorem accept_events (v : Byte) (s : State) : (accept v s).events = s.events := rfl
@[simp] theorem accept_answers (v : Byte) (s : State) : (accept v s).answers = s.answers := rfl
@[simp] theorem accept_drawn (v : Byte) (s : State) : (accept v s).drawn = s.drawn := rfl

/-! `complete`: 60_exceptions.md R240. -/

@[simp] theorem complete_cfg (c : ErrCode) (s : State) : (complete c s).cfg = s.cfg := rfl
@[simp] theorem complete_busy (c : ErrCode) (s : State) : (complete c s).busy = false := rfl
@[simp] theorem complete_done (c : ErrCode) (s : State) : (complete c s).done = true := rfl
@[simp] theorem complete_err (c : ErrCode) (s : State) : (complete c s).err = decide (c ≠ .none) := rfl
@[simp] theorem complete_ovr (c : ErrCode) (s : State) : (complete c s).ovr = s.ovr := rfl
@[simp] theorem complete_errcode (c : ErrCode) (s : State) : (complete c s).errcode = c := rfl
@[simp] theorem complete_verifyEn (c : ErrCode) (s : State) : (complete c s).verifyEn = s.verifyEn := rfl
@[simp] theorem complete_seq (c : ErrCode) (s : State) : (complete c s).seq = s.seq := rfl
@[simp] theorem complete_hsState (c : ErrCode) (s : State) : (complete c s).hsState = s.hsState := rfl
@[simp] theorem complete_hsAtt (c : ErrCode) (s : State) : (complete c s).hsAtt = s.hsAtt := rfl
@[simp] theorem complete_hsMax (c : ErrCode) (s : State) : (complete c s).hsMax = s.hsMax := rfl
@[simp] theorem complete_hsTmo (c : ErrCode) (s : State) : (complete c s).hsTmo = s.hsTmo := rfl
@[simp] theorem complete_rxTmo (c : ErrCode) (s : State) : (complete c s).rxTmo = s.rxTmo := rfl
@[simp] theorem complete_rxReq (c : ErrCode) (s : State) : (complete c s).rxReq = s.rxReq := rfl
@[simp] theorem complete_inLen (c : ErrCode) (s : State) : (complete c s).inLen = s.inLen := rfl
@[simp] theorem complete_outLen (c : ErrCode) (s : State) : (complete c s).outLen = s.outLen := rfl
@[simp] theorem complete_result (c : ErrCode) (s : State) : (complete c s).result = s.result := rfl
@[simp] theorem complete_vflags (c : ErrCode) (s : State) : (complete c s).vflags = s.vflags := rfl
@[simp] theorem complete_op (c : ErrCode) (s : State) : (complete c s).op = s.op := rfl
@[simp] theorem complete_phase (c : ErrCode) (s : State) : (complete c s).phase = .ready := rfl
@[simp] theorem complete_inBuf (c : ErrCode) (s : State) : (complete c s).inBuf = s.inBuf := rfl
@[simp] theorem complete_outBuf (c : ErrCode) (s : State) : (complete c s).outBuf = s.outBuf := rfl
@[simp] theorem complete_history (c : ErrCode) (s : State) : (complete c s).history = s.history := rfl
@[simp] theorem complete_reads (c : ErrCode) (s : State) : (complete c s).reads = s.reads := rfl
@[simp] theorem complete_events (c : ErrCode) (s : State) : (complete c s).events = s.events := rfl
@[simp] theorem complete_answers (c : ErrCode) (s : State) : (complete c s).answers = s.answers := rfl
@[simp] theorem complete_drawn (c : ErrCode) (s : State) : (complete c s).drawn = s.drawn := rfl

/-! `transportFail`: 60_exceptions.md R236. -/

@[simp] theorem transportFail_cfg (s : State) : (transportFail s).cfg = s.cfg := rfl
@[simp] theorem transportFail_busy (s : State) : (transportFail s).busy = false := rfl
@[simp] theorem transportFail_done (s : State) : (transportFail s).done = true := rfl
@[simp] theorem transportFail_err (s : State) : (transportFail s).err = true := rfl
@[simp] theorem transportFail_ovr (s : State) : (transportFail s).ovr = s.ovr := rfl
@[simp] theorem transportFail_errcode (s : State) : (transportFail s).errcode = .transport := rfl
@[simp] theorem transportFail_verifyEn (s : State) : (transportFail s).verifyEn = s.verifyEn := rfl
@[simp] theorem transportFail_seq (s : State) : (transportFail s).seq = s.seq := rfl
@[simp] theorem transportFail_hsState (s : State) : (transportFail s).hsState = .failed := rfl
@[simp] theorem transportFail_hsAtt (s : State) : (transportFail s).hsAtt = s.hsAtt := rfl
@[simp] theorem transportFail_hsMax (s : State) : (transportFail s).hsMax = s.hsMax := rfl
@[simp] theorem transportFail_hsTmo (s : State) : (transportFail s).hsTmo = s.hsTmo := rfl
@[simp] theorem transportFail_rxTmo (s : State) : (transportFail s).rxTmo = s.rxTmo := rfl
@[simp] theorem transportFail_rxReq (s : State) : (transportFail s).rxReq = s.rxReq := rfl
@[simp] theorem transportFail_inLen (s : State) : (transportFail s).inLen = s.inLen := rfl
@[simp] theorem transportFail_outLen (s : State) : (transportFail s).outLen = s.outLen := rfl
@[simp] theorem transportFail_result (s : State) : (transportFail s).result = s.result := rfl
@[simp] theorem transportFail_vflags (s : State) : (transportFail s).vflags = s.vflags := rfl
@[simp] theorem transportFail_op (s : State) : (transportFail s).op = s.op := rfl
@[simp] theorem transportFail_phase (s : State) : (transportFail s).phase = .ready := rfl
@[simp] theorem transportFail_inBuf (s : State) : (transportFail s).inBuf = s.inBuf := rfl
@[simp] theorem transportFail_outBuf (s : State) : (transportFail s).outBuf = s.outBuf := rfl
@[simp] theorem transportFail_history (s : State) : (transportFail s).history = s.history := rfl
@[simp] theorem transportFail_reads (s : State) : (transportFail s).reads = s.reads := rfl
@[simp] theorem transportFail_events (s : State) : (transportFail s).events = s.events := rfl
@[simp] theorem transportFail_answers (s : State) : (transportFail s).answers = s.answers := rfl
@[simp] theorem transportFail_drawn (s : State) : (transportFail s).drawn = s.drawn := rfl

/-! `record`: 20_memory.md R76. -/

@[simp] theorem record_cfg (c : Call) (s : State) : (record c s).cfg = s.cfg := rfl
@[simp] theorem record_busy (c : Call) (s : State) : (record c s).busy = s.busy := rfl
@[simp] theorem record_done (c : Call) (s : State) : (record c s).done = s.done := rfl
@[simp] theorem record_err (c : Call) (s : State) : (record c s).err = s.err := rfl
@[simp] theorem record_ovr (c : Call) (s : State) : (record c s).ovr = s.ovr := rfl
@[simp] theorem record_errcode (c : Call) (s : State) : (record c s).errcode = s.errcode := rfl
@[simp] theorem record_verifyEn (c : Call) (s : State) : (record c s).verifyEn = s.verifyEn := rfl
@[simp] theorem record_seq (c : Call) (s : State) : (record c s).seq = s.seq := rfl
@[simp] theorem record_hsState (c : Call) (s : State) : (record c s).hsState = s.hsState := rfl
@[simp] theorem record_hsAtt (c : Call) (s : State) : (record c s).hsAtt = s.hsAtt := rfl
@[simp] theorem record_hsMax (c : Call) (s : State) : (record c s).hsMax = s.hsMax := rfl
@[simp] theorem record_hsTmo (c : Call) (s : State) : (record c s).hsTmo = s.hsTmo := rfl
@[simp] theorem record_rxTmo (c : Call) (s : State) : (record c s).rxTmo = s.rxTmo := rfl
@[simp] theorem record_rxReq (c : Call) (s : State) : (record c s).rxReq = s.rxReq := rfl
@[simp] theorem record_inLen (c : Call) (s : State) : (record c s).inLen = s.inLen := rfl
@[simp] theorem record_outLen (c : Call) (s : State) : (record c s).outLen = s.outLen := rfl
@[simp] theorem record_result (c : Call) (s : State) : (record c s).result = s.result := rfl
@[simp] theorem record_vflags (c : Call) (s : State) : (record c s).vflags = s.vflags := rfl
@[simp] theorem record_op (c : Call) (s : State) : (record c s).op = s.op := rfl
@[simp] theorem record_phase (c : Call) (s : State) : (record c s).phase = s.phase := rfl
@[simp] theorem record_inBuf (c : Call) (s : State) : (record c s).inBuf = s.inBuf := rfl
@[simp] theorem record_outBuf (c : Call) (s : State) : (record c s).outBuf = s.outBuf := rfl
@[simp] theorem record_history (c : Call) (s : State) : (record c s).history = s.history ++ [c] := rfl
@[simp] theorem record_reads (c : Call) (s : State) : (record c s).reads = s.reads := rfl
@[simp] theorem record_events (c : Call) (s : State) : (record c s).events = s.events := rfl
@[simp] theorem record_answers (c : Call) (s : State) : (record c s).answers = s.answers := rfl
@[simp] theorem record_drawn (c : Call) (s : State) : (record c s).drawn = s.drawn := rfl

/-! `dropWrite`: 10_state.md R47. -/

@[simp] theorem dropWrite_cfg (s : State) : (dropWrite s).cfg = s.cfg := rfl
@[simp] theorem dropWrite_busy (s : State) : (dropWrite s).busy = s.busy := rfl
@[simp] theorem dropWrite_done (s : State) : (dropWrite s).done = s.done := rfl
@[simp] theorem dropWrite_err (s : State) : (dropWrite s).err = s.err := rfl
@[simp] theorem dropWrite_ovr (s : State) : (dropWrite s).ovr = true := rfl
@[simp] theorem dropWrite_errcode (s : State) : (dropWrite s).errcode = s.errcode := rfl
@[simp] theorem dropWrite_verifyEn (s : State) : (dropWrite s).verifyEn = s.verifyEn := rfl
@[simp] theorem dropWrite_seq (s : State) : (dropWrite s).seq = s.seq := rfl
@[simp] theorem dropWrite_hsState (s : State) : (dropWrite s).hsState = s.hsState := rfl
@[simp] theorem dropWrite_hsAtt (s : State) : (dropWrite s).hsAtt = s.hsAtt := rfl
@[simp] theorem dropWrite_hsMax (s : State) : (dropWrite s).hsMax = s.hsMax := rfl
@[simp] theorem dropWrite_hsTmo (s : State) : (dropWrite s).hsTmo = s.hsTmo := rfl
@[simp] theorem dropWrite_rxTmo (s : State) : (dropWrite s).rxTmo = s.rxTmo := rfl
@[simp] theorem dropWrite_rxReq (s : State) : (dropWrite s).rxReq = s.rxReq := rfl
@[simp] theorem dropWrite_inLen (s : State) : (dropWrite s).inLen = s.inLen := rfl
@[simp] theorem dropWrite_outLen (s : State) : (dropWrite s).outLen = s.outLen := rfl
@[simp] theorem dropWrite_result (s : State) : (dropWrite s).result = s.result := rfl
@[simp] theorem dropWrite_vflags (s : State) : (dropWrite s).vflags = s.vflags := rfl
@[simp] theorem dropWrite_op (s : State) : (dropWrite s).op = s.op := rfl
@[simp] theorem dropWrite_phase (s : State) : (dropWrite s).phase = s.phase := rfl
@[simp] theorem dropWrite_inBuf (s : State) : (dropWrite s).inBuf = s.inBuf := rfl
@[simp] theorem dropWrite_outBuf (s : State) : (dropWrite s).outBuf = s.outBuf := rfl
@[simp] theorem dropWrite_history (s : State) : (dropWrite s).history = s.history := rfl
@[simp] theorem dropWrite_reads (s : State) : (dropWrite s).reads = s.reads := rfl
@[simp] theorem dropWrite_events (s : State) : (dropWrite s).events = s.events := rfl
@[simp] theorem dropWrite_answers (s : State) : (dropWrite s).answers = s.answers := rfl
@[simp] theorem dropWrite_drawn (s : State) : (dropWrite s).drawn = s.drawn := rfl

/-! `logRead`: 00_scope.md R6. -/

@[simp] theorem logRead_cfg (a : Half) (v : Byte) (s : State) : (logRead a v s).cfg = s.cfg := rfl
@[simp] theorem logRead_busy (a : Half) (v : Byte) (s : State) : (logRead a v s).busy = s.busy := rfl
@[simp] theorem logRead_done (a : Half) (v : Byte) (s : State) : (logRead a v s).done = s.done := rfl
@[simp] theorem logRead_err (a : Half) (v : Byte) (s : State) : (logRead a v s).err = s.err := rfl
@[simp] theorem logRead_ovr (a : Half) (v : Byte) (s : State) : (logRead a v s).ovr = s.ovr := rfl
@[simp] theorem logRead_errcode (a : Half) (v : Byte) (s : State) : (logRead a v s).errcode = s.errcode := rfl
@[simp] theorem logRead_verifyEn (a : Half) (v : Byte) (s : State) : (logRead a v s).verifyEn = s.verifyEn := rfl
@[simp] theorem logRead_seq (a : Half) (v : Byte) (s : State) : (logRead a v s).seq = s.seq := rfl
@[simp] theorem logRead_hsState (a : Half) (v : Byte) (s : State) : (logRead a v s).hsState = s.hsState := rfl
@[simp] theorem logRead_hsAtt (a : Half) (v : Byte) (s : State) : (logRead a v s).hsAtt = s.hsAtt := rfl
@[simp] theorem logRead_hsMax (a : Half) (v : Byte) (s : State) : (logRead a v s).hsMax = s.hsMax := rfl
@[simp] theorem logRead_hsTmo (a : Half) (v : Byte) (s : State) : (logRead a v s).hsTmo = s.hsTmo := rfl
@[simp] theorem logRead_rxTmo (a : Half) (v : Byte) (s : State) : (logRead a v s).rxTmo = s.rxTmo := rfl
@[simp] theorem logRead_rxReq (a : Half) (v : Byte) (s : State) : (logRead a v s).rxReq = s.rxReq := rfl
@[simp] theorem logRead_inLen (a : Half) (v : Byte) (s : State) : (logRead a v s).inLen = s.inLen := rfl
@[simp] theorem logRead_outLen (a : Half) (v : Byte) (s : State) : (logRead a v s).outLen = s.outLen := rfl
@[simp] theorem logRead_result (a : Half) (v : Byte) (s : State) : (logRead a v s).result = s.result := rfl
@[simp] theorem logRead_vflags (a : Half) (v : Byte) (s : State) : (logRead a v s).vflags = s.vflags := rfl
@[simp] theorem logRead_op (a : Half) (v : Byte) (s : State) : (logRead a v s).op = s.op := rfl
@[simp] theorem logRead_phase (a : Half) (v : Byte) (s : State) : (logRead a v s).phase = s.phase := rfl
@[simp] theorem logRead_inBuf (a : Half) (v : Byte) (s : State) : (logRead a v s).inBuf = s.inBuf := rfl
@[simp] theorem logRead_outBuf (a : Half) (v : Byte) (s : State) : (logRead a v s).outBuf = s.outBuf := rfl
@[simp] theorem logRead_history (a : Half) (v : Byte) (s : State) : (logRead a v s).history = s.history := rfl
@[simp] theorem logRead_reads (a : Half) (v : Byte) (s : State) : (logRead a v s).reads = s.reads ++ [(a, v)] := rfl
@[simp] theorem logRead_events (a : Half) (v : Byte) (s : State) : (logRead a v s).events = s.events := rfl
@[simp] theorem logRead_answers (a : Half) (v : Byte) (s : State) : (logRead a v s).answers = s.answers := rfl
@[simp] theorem logRead_drawn (a : Half) (v : Byte) (s : State) : (logRead a v s).drawn = s.drawn := rfl

/-! `dropAnswer` changes the pending answers and the free-value counter only (20_memory.md R77). -/

@[simp] theorem dropAnswer_cfg (s : State) : (dropAnswer s).cfg = s.cfg := by unfold dropAnswer; split <;> rfl
@[simp] theorem dropAnswer_busy (s : State) : (dropAnswer s).busy = s.busy := by unfold dropAnswer; split <;> rfl
@[simp] theorem dropAnswer_done (s : State) : (dropAnswer s).done = s.done := by unfold dropAnswer; split <;> rfl
@[simp] theorem dropAnswer_err (s : State) : (dropAnswer s).err = s.err := by unfold dropAnswer; split <;> rfl
@[simp] theorem dropAnswer_ovr (s : State) : (dropAnswer s).ovr = s.ovr := by unfold dropAnswer; split <;> rfl
@[simp] theorem dropAnswer_errcode (s : State) : (dropAnswer s).errcode = s.errcode := by unfold dropAnswer; split <;> rfl
@[simp] theorem dropAnswer_verifyEn (s : State) : (dropAnswer s).verifyEn = s.verifyEn := by unfold dropAnswer; split <;> rfl
@[simp] theorem dropAnswer_seq (s : State) : (dropAnswer s).seq = s.seq := by unfold dropAnswer; split <;> rfl
@[simp] theorem dropAnswer_hsState (s : State) : (dropAnswer s).hsState = s.hsState := by unfold dropAnswer; split <;> rfl
@[simp] theorem dropAnswer_hsAtt (s : State) : (dropAnswer s).hsAtt = s.hsAtt := by unfold dropAnswer; split <;> rfl
@[simp] theorem dropAnswer_hsMax (s : State) : (dropAnswer s).hsMax = s.hsMax := by unfold dropAnswer; split <;> rfl
@[simp] theorem dropAnswer_hsTmo (s : State) : (dropAnswer s).hsTmo = s.hsTmo := by unfold dropAnswer; split <;> rfl
@[simp] theorem dropAnswer_rxTmo (s : State) : (dropAnswer s).rxTmo = s.rxTmo := by unfold dropAnswer; split <;> rfl
@[simp] theorem dropAnswer_rxReq (s : State) : (dropAnswer s).rxReq = s.rxReq := by unfold dropAnswer; split <;> rfl
@[simp] theorem dropAnswer_inLen (s : State) : (dropAnswer s).inLen = s.inLen := by unfold dropAnswer; split <;> rfl
@[simp] theorem dropAnswer_outLen (s : State) : (dropAnswer s).outLen = s.outLen := by unfold dropAnswer; split <;> rfl
@[simp] theorem dropAnswer_result (s : State) : (dropAnswer s).result = s.result := by unfold dropAnswer; split <;> rfl
@[simp] theorem dropAnswer_vflags (s : State) : (dropAnswer s).vflags = s.vflags := by unfold dropAnswer; split <;> rfl
@[simp] theorem dropAnswer_op (s : State) : (dropAnswer s).op = s.op := by unfold dropAnswer; split <;> rfl
@[simp] theorem dropAnswer_phase (s : State) : (dropAnswer s).phase = s.phase := by unfold dropAnswer; split <;> rfl
@[simp] theorem dropAnswer_inBuf (s : State) : (dropAnswer s).inBuf = s.inBuf := by unfold dropAnswer; split <;> rfl
@[simp] theorem dropAnswer_outBuf (s : State) : (dropAnswer s).outBuf = s.outBuf := by unfold dropAnswer; split <;> rfl
@[simp] theorem dropAnswer_history (s : State) : (dropAnswer s).history = s.history := by unfold dropAnswer; split <;> rfl
@[simp] theorem dropAnswer_reads (s : State) : (dropAnswer s).reads = s.reads := by unfold dropAnswer; split <;> rfl
@[simp] theorem dropAnswer_events (s : State) : (dropAnswer s).events = s.events := by unfold dropAnswer; split <;> rfl

end Sys2Proof.Machine
end

