-- ==== Sys2Proof/Laws/Ops.lean ====
section
/-! SUPPORT. Everything the shared operations can do, said once: the input of an operation, the commit of an output, a
call of the transport, LDIN. -/

namespace Sys2Proof.Machine

theorem holdsInput_iff {s : State} {xs : List Byte} :
    HoldsInput s xs ↔ s.inLen.toNat ≤ s.cfg.bufDepth ∧ loadBytes s.inBuf 0 s.inLen.toNat = some xs := by
  simp only [HoldsInput, loadBytes_eq_some, Nat.zero_add]
  constructor
  · rintro ⟨h1, h2, h3⟩; exact ⟨h1 ▸ h2, h1.symm, fun j hj => h3 j (h1 ▸ hj)⟩
  · rintro ⟨h1, h2, h3⟩; exact ⟨h2.symm, h2 ▸ h1, fun j hj => h3 j (h2 ▸ hj)⟩

/-- With its input written and within range, an operation runs on it (40_checksums.md R129, 41_frame_codec.md R140). -/
theorem withInput_of_holds {s : State} {xs : List Byte} (h : HoldsInput s xs) (k : List Byte → State → State) :
    withInput k s = .next (k xs s) := by
  obtain ⟨h1, h2⟩ := holdsInput_iff.1 h
  simp only [withInput, if_neg (Nat.not_lt.2 h1), h2]

/-- IN_LEN > BUF_DEPTH completes with ERR_IN_LEN (60_exceptions.md R232). -/
theorem withInput_of_long {s : State} (h : s.cfg.bufDepth < s.inLen.toNat) (k : List Byte → State → State) :
    withInput k s = .next (complete .inLen s) := by
  simp only [withInput, if_pos h]

/-- The three things the opening of an operation can do (60_exceptions.md R241 items 3 and 4). -/
theorem withInput_cases (k : List Byte → State → State) (s : State) :
    (s.cfg.bufDepth < s.inLen.toNat ∧ withInput k s = .next (complete .inLen s)) ∨
      (s.inLen.toNat ≤ s.cfg.bufDepth ∧ loadBytes s.inBuf 0 s.inLen.toNat = none ∧
        withInput k s = .fault .uninitRead) ∨
      ∃ xs, HoldsInput s xs ∧ withInput k s = .next (k xs s) := by
  by_cases h : s.cfg.bufDepth < s.inLen.toNat
  · exact .inl ⟨h, withInput_of_long h k⟩
  · cases hl : loadBytes s.inBuf 0 s.inLen.toNat with
    | none => exact .inr (.inl ⟨by omega, rfl, by simp only [withInput, if_neg h, hl]⟩)
    | some xs =>
      have hx : HoldsInput s xs := holdsInput_iff.2 ⟨by omega, hl⟩
      exact .inr (.inr ⟨xs, hx, withInput_of_holds hx k⟩)

theorem withInput_next {k : List Byte → State → State} {s t : State} (h : withInput k s = .next t) :
    (s.cfg.bufDepth < s.inLen.toNat ∧ t = complete .inLen s) ∨ ∃ xs, HoldsInput s xs ∧ t = k xs s := by
  rcases withInput_cases k s with ⟨h1, h2⟩ | ⟨-, -, h2⟩ | ⟨xs, h1, h2⟩ <;> rw [h2] at h <;> cases h
  · exact .inl ⟨h1, rfl⟩
  · exact .inr ⟨xs, h1, rfl⟩

theorem holdsOutput_iff {s : State} {xs : List Byte} : HoldsOutput s xs ↔ outBytes s = some xs := by
  simp only [HoldsOutput, outBytes, loadBytes_eq_some, Nat.zero_add]
  constructor
  · rintro ⟨h1, h2⟩; exact ⟨h1.symm, fun j hj => h2 j (h1 ▸ hj)⟩
  · rintro ⟨h1, h2⟩; exact ⟨h1.symm, fun j hj => h2 j (h1 ▸ hj)⟩

theorem storeBytes_stored (m : Memory) (bs : List Byte) : Stored m (storeBytes m 0 bs) bs := by
  intro j
  rw [memGet_storeBytes]
  by_cases h : j < bs.length
  · rw [if_pos ⟨Nat.zero_le j, by omega⟩, if_pos h, Nat.sub_zero]
  · rw [if_neg (by omega), if_neg h]

/-- The two things a commit can do (41_frame_codec.md R141). -/
theorem commit_cases (c : ErrCode) (o : List Byte) (s : State) :
    (s.cfg.bufDepth < o.length ∧ commit c o s = complete .outOvf s) ∨
      (o.length ≤ s.cfg.bufDepth ∧
        commit c o s = complete c { s with outBuf := storeBytes s.outBuf 0 o, outLen := BitVec.ofNat 16 o.length }) := by
  unfold commit
  split
  · exact .inl ⟨‹_›, rfl⟩
  · exact .inr ⟨by omega, rfl⟩

/-- The two things a write or a buffer reset can do (20_memory.md R75, 60_exceptions.md R236). -/
theorem callThen_cases (c : Bool → Call) (k : State → State) (s : State) :
    (nextAnswer s = .fail ∧ callThen c k s = transportFail (record (c false) (dropAnswer s))) ∨
      (∃ bs, nextAnswer s = .bytes bs ∧ callThen c k s = k (record (c true) (dropAnswer s))) := by
  unfold callThen
  cases h : nextAnswer s with
  | fail => exact .inl ⟨rfl, rfl⟩
  | bytes bs => exact .inr ⟨bs, rfl, rfl⟩

/-- The two things a read can do (20_memory.md R75, 60_exceptions.md R236). -/
theorem tRead_cases (n : Nat) (tmo : Half) (k : List Byte → State → State) (s : State) :
    (nextAnswer s = .fail ∧ tRead n tmo k s = transportFail (record (.read n tmo none) (dropAnswer s))) ∨
      (∃ bs, nextAnswer s = .bytes bs ∧
        tRead n tmo k s = k (bs.take n) (record (.read n tmo (some (bs.take n))) (dropAnswer s))) := by
  unfold tRead
  cases h : nextAnswer s with
  | fail => exact .inl ⟨rfl, rfl⟩
  | bytes bs => exact .inr ⟨bs, rfl, rfl⟩

/-- The two things LDIN can do (30_encoding.md R105, 10_state.md R47). -/
theorem ldin_cases (bs : List Byte) (s : State) :
    (s.busy = true ∧ ldin bs s = dropWrite s) ∨
      (s.busy = false ∧
        ldin bs s =
          { s with
            inBuf := storeBytes s.inBuf 0 (bs.take s.cfg.bufDepth), inLen := BitVec.ofNat 16 bs.length }) := by
  unfold ldin
  cases h : s.busy
  · exact .inr ⟨rfl, by simp⟩
  · exact .inl ⟨rfl, by simp⟩

end Sys2Proof.Machine
end

