-- ==== Sys2Proof/Laws/PerInstr.lean ====
section
/-! SUPPORT. Facts about every instruction as syntax, one lemma per constructor: RoundTrip says that the decoder reads
an instruction back from its encoded bytes. -/

namespace Sys2Proof.Laws.RoundTrip

open Sys2Proof Sys2Proof.Machine

/-- In every wire layout in which the instruction is well-formed, its bytes decode to it. -/
def Statement (i : Instr) : Prop := ∀ L : WireLayout, i.wf L = true → Sys2Proof.decode L i.format (Sys2Proof.encode L i) = .ok i

theorem nop : Statement .nop := fun _ _ => rfl
theorem build : Statement .build := fun _ _ => rfl
theorem encode : Statement .encode := fun _ _ => rfl
theorem frame : Statement .frame := fun _ _ => rfl
theorem decode : Statement .decode := fun _ _ => rfl
theorem verify : Statement .verify := fun _ _ => rfl
theorem sum8 : Statement .sum8 := fun _ _ => rfl
theorem hchk : Statement .hchk := fun _ _ => rfl
theorem crc8 : Statement .crc8 := fun _ _ => rfl
theorem crc16 : Statement .crc16 := fun _ _ => rfl
theorem send : Statement .send := fun _ _ => rfl
theorem recv : Statement .recv := fun _ _ => rfl
theorem flushRx : Statement .flushRx := fun _ _ => rfl
theorem flushTx : Statement .flushTx := fun _ _ => rfl
theorem flushAll : Statement .flushAll := fun _ _ => rfl
theorem hsStart : Statement .hsStart := fun _ _ => rfl
theorem hsSkip : Statement .hsSkip := fun _ _ => rfl
theorem delim : Statement .delim := fun _ _ => rfl
theorem esc : Statement .esc := fun _ _ => rfl
theorem escDelim : Statement .escDelim := fun _ _ => rfl
theorem escEsc : Statement .escEsc := fun _ _ => rfl
theorem start : Statement .start := fun _ _ => rfl
theorem ack : Statement .ack := fun _ _ => rfl
theorem ispStart : Statement .ispStart := fun _ _ => rfl
theorem ispReady : Statement .ispReady := fun _ _ => rfl
theorem getFlashId : Statement .getFlashId := fun _ _ => rfl
theorem eraseSecureOtpPage : Statement .eraseSecureOtpPage := fun _ _ => rfl
theorem verifyBootloaderSignature : Statement .verifyBootloaderSignature := fun _ _ => rfl
theorem requestSecureDebug : Statement .requestSecureDebug := fun _ _ => rfl

theorem frameHeader (seq : Byte) (len : Half) (chk : Byte) (payload : List Byte) (crc : Half) :
    Statement (.frameHeader seq len chk payload crc) := by
  intro L h
  have hl : payload.length = len.toNat := by simpa [Instr.wf] using h
  have hd : (payload ++ [hi8 crc, lo8 crc]).drop len.toNat = [hi8 crc, lo8 crc] := by rw [← hl]; simp
  have ht : (payload ++ [hi8 crc, lo8 crc]).take len.toNat = payload := by rw [← hl]; simp
  simp [Instr.format, Sys2Proof.decode, Sys2Proof.encode, decodeRaw, be16, hd, ht]

theorem readRegister (address : Word) : Statement (.readRegister address) := by
  intro L _
  simp [Instr.format, Sys2Proof.decode, Sys2Proof.encode, decodeWireCmd, le32, decodeReadRegister, ofLe32_le32]

theorem writeRegister (address value : Word) : Statement (.writeRegister address value) := by
  intro L _
  simp [Instr.format, Sys2Proof.decode, Sys2Proof.encode, decodeWireCmd, le32, decodeWriteRegister, ofLe32_le32]

theorem legacyKeyWrite (before kv : List Byte) : Statement (.legacyKeyWrite before kv) := by
  intro L h
  obtain ⟨h1, h2⟩ : before.length = L.legacyBefore ∧ before.length + kv.length + 2 ≤ maxPayload := by
    simpa [Instr.wf] using h
  simp only [Instr.format, Sys2Proof.decode, Sys2Proof.encode, decodeWireCmd, decodeLegacy]
  rw [if_neg (by simp only [List.length_append, List.length_singleton]; omega), ← h1]
  simp

theorem sendChallengeResponse (r s : List Byte) : Statement (.sendChallengeResponse r s) := by
  intro L h
  obtain ⟨h1, h2⟩ : r.length = 32 ∧ s.length = 32 := by simpa [Instr.wf] using h
  have ht : (r ++ s).take 32 = r := by rw [← h1]; simp
  have hd : (r ++ s).drop 32 = s := by rw [← h1]; simp
  simp [Instr.format, Sys2Proof.decode, Sys2Proof.encode, decodeWireCmd, decodeChallenge, clientData, h1, h2, ht, hd]

theorem writeOtpRegister (option addrChk : Byte) (offset : Nat) (value : List Byte) :
    Statement (.writeOtpRegister option addrChk offset value) := by
  intro L h
  obtain ⟨⟨h1, h2⟩, h3⟩ : (offset < 256 ^ L.otpRegister.offsetBytes ∧
      addrChk = otpAddrChk L.otpRegister 0x11 option (bytesOfNat L.otpRegister.offsetBytes offset) value) ∧
      L.otpRegister.offsetBytes + value.length + 4 ≤ maxPayload := by simpa [Instr.wf] using h
  simp only [Instr.format, Sys2Proof.decode, Sys2Proof.encode, decodeWireCmd, decodeOtpRegister]
  rw [if_neg (by simp only [List.length_append, List.length_singleton, length_bytesOfNat]; omega)]
  simpa [natOfBytes_bytesOfNat h1] using h2

theorem writeOtpKey (option addrChk : Byte) (offset : Nat) (key : List Byte) :
    Statement (.writeOtpKey option addrChk offset key) := by
  intro L h
  obtain ⟨⟨⟨h1, h2⟩, h3⟩, h4⟩ : ((offset < 256 ^ L.otpKey.offsetBytes ∧ key.length = 64) ∧
      addrChk = otpAddrChk L.otpKey 0x12 option (bytesOfNat L.otpKey.offsetBytes offset) key) ∧
      L.otpKey.offsetBytes + key.length + 3 ≤ maxPayload := by simpa [Instr.wf] using h
  simp only [Instr.format, Sys2Proof.decode, Sys2Proof.encode, decodeWireCmd, decodeOtpKey]
  rw [if_neg (by simp only [List.length_append, length_bytesOfNat]; omega)]
  simpa [natOfBytes_bytesOfNat h1] using h3

end Sys2Proof.Laws.RoundTrip
end

