-- ==== Sys2Proof/Laws/Registers.lean ====
section
/-! SUPPORT. The host address space, said once: where each address leads, and everything one host write can do. -/

namespace Sys2Proof.Machine

@[simp] theorem placeOf_addr (c : Config) (r : Reg) : placeOf c r.addr = .reg r := by cases r <;> rfl

/-- Reading a register's address reads the register. -/
theorem hostRead_addr (r : Reg) (s : State) : hostRead r.addr s = some (readReg r s) := by
  simp only [hostRead, placeOf_addr]

/-- Writing a register's address writes the register. -/
theorem hostWrite_addr (r : Reg) (v : Byte) (s : State) : hostWrite r.addr v s = writeReg r v s := by
  simp only [hostWrite, placeOf_addr]

theorem toNat_inAddr {i : Nat} (h : i < 0x4000) : (inAddr i).toNat = 0x4000 + i := by
  simp only [inAddr, BitVec.toNat_ofNat]; omega

theorem toNat_outAddr {i : Nat} (h : i < 0x4000) : (outAddr i).toNat = 0x8000 + i := by
  simp only [outAddr, BitVec.toNat_ofNat]; omega

theorem placeOf_inAddr {c : Config} {i : Nat} (hc : c.wf) (hi : i < c.bufDepth) : placeOf c (inAddr i) = .inByte i := by
  have h4 : i < 0x4000 := by have := hc.2; omega
  simp only [placeOf, toNat_inAddr h4]
  rw [if_neg (by omega), if_pos (by omega), if_pos (by omega), Nat.add_sub_cancel_left]

theorem placeOf_outAddr {c : Config} {i : Nat} (hc : c.wf) (hi : i < c.bufDepth) :
    placeOf c (outAddr i) = .outByte i := by
  have h4 : i < 0x4000 := by have := hc.2; omega
  simp only [placeOf, toNat_outAddr h4]
  rw [if_neg (by omega), if_neg (by omega), if_pos (by omega), Nat.add_sub_cancel_left]

/-- The address of a byte of IN_BUF is that of its index. -/
theorem eq_inAddr {c : Config} {a : Half} {i : Nat} (h : placeOf c a = .inByte i) : a = inAddr i ∧ i < c.bufDepth := by
  unfold placeOf at h
  dsimp only at h
  split at h
  · split at h <;> cases h
  · split at h
    · split at h
      · have hi := Place.inByte.inj h
        rw [← hi]
        refine ⟨BitVec.eq_of_toNat_eq ?_, ‹_›⟩
        rw [toNat_inAddr (by omega)]; omega
      · cases h
    · split at h <;> cases h

theorem regAt_addr {a : Half} {r : Reg} (h : regAt a = some r) : a = r.addr := by
  unfold regAt at h
  split at h <;> cases h <;> rfl

/-- The address of a register is its own. -/
theorem eq_addr {c : Config} {a : Half} {r : Reg} (h : placeOf c a = .reg r) : a = r.addr := by
  unfold placeOf at h
  dsimp only at h
  split at h
  · split at h <;> cases h
    exact regAt_addr ‹_›
  · split at h <;> split at h <;> cases h

/-- Taking the next event changes nothing the host can read. -/
theorem hostRead_afterEvent (a : Half) (s : State) : hostRead a (afterEvent s) = hostRead a s := by
  unfold hostRead
  show (match placeOf s.cfg a with
    | .reg r => some (readReg r (afterEvent s))
    | .inByte i => memGet s.inBuf i
    | .outByte i => memGet s.outBuf i
    | .none => some 0x00) = _
  cases placeOf s.cfg a with
  | reg r => cases r <;> rfl
  | _ => rfl

/-- Everything one host write can do (10_state.md R23 to R47): nothing; set OVR; accept an operation; clear OVR; change
the host's own registers; store one byte of IN_BUF. -/
theorem hostWrite_cases (a : Half) (v : Byte) (s : State) :
    hostWrite a v s = s ∨ (s.busy = true ∧ hostWrite a v s = dropWrite s) ∨
      (a = 0x0000 ∧ s.busy = false ∧ hostWrite a v s = accept v s) ∨
      (a = 0x0001 ∧ v.getLsbD 3 = true ∧ hostWrite a v s = { s with ovr := false }) ∨
      (s.busy = false ∧ ∃ (b : Bool) (sq tm : Byte) (mx rt rq il : Half),
        hostWrite a v s =
          { s with verifyEn := b, seq := sq, hsTmo := tm, hsMax := mx, rxTmo := rt, rxReq := rq, inLen := il }) ∨
      (s.busy = false ∧ ∃ i, i < s.cfg.bufDepth ∧ hostWrite a v s = { s with inBuf := memSet s.inBuf i v }) := by
  cases hp : placeOf s.cfg a with
  | none => exact .inl (by simp only [hostWrite, hp])
  | outByte i => exact .inl (by simp only [hostWrite, hp])
  | inByte i =>
    have hi := (eq_inAddr hp).2
    cases hb : s.busy
    · exact .inr (.inr (.inr (.inr (.inr ⟨rfl, i, hi, by simp [hostWrite, hp, writeIn, hb]⟩))))
    · exact .inr (.inl ⟨rfl, by simp [hostWrite, hp, writeIn, hb]⟩)
  | reg r =>
    have ha := eq_addr hp
    have hw : hostWrite a v s = writeReg r v s := by simp only [hostWrite, hp]
    rw [hw]
    by_cases hd : (r.busyGuarded && s.busy) = true
    · exact .inr (.inl ⟨by simp_all, by simp only [writeReg, if_pos hd]⟩)
    · have hw' : writeReg r v s = writeRegNow r v s := by simp only [writeReg, if_neg hd]
      rw [hw']
      have hb : r.busyGuarded = true → s.busy = false := fun h => by simpa [h] using hd
      cases r
      case cmd => exact .inr (.inr (.inl ⟨ha, hb rfl, rfl⟩))
      case status =>
        by_cases h3 : v.getLsbD 3 = true
        · exact .inr (.inr (.inr (.inl ⟨ha, h3, by simp only [writeRegNow, h3, if_true]⟩)))
        · exact .inl (by simp only [writeRegNow, if_neg h3])
      all_goals first
        | exact .inl rfl
        | exact .inr (.inr (.inr (.inr (.inl ⟨hb rfl, _, _, _, _, _, _, _, rfl⟩))))

end Sys2Proof.Machine
end

