-- ==== Sys2Proof/Laws/Step.lean ====
section
/-! SUPPORT. Everything a step can do, said once: the moves of the block, and the moves of the machine. Claims about
every step cite `step_moves` and go case by case, without unfolding a meaning. -/

namespace Sys2Proof.Machine

@[simp] theorem afterEvent_cfg (s : State) : (afterEvent s).cfg = s.cfg := rfl
@[simp] theorem afterEvent_busy (s : State) : (afterEvent s).busy = s.busy := rfl
@[simp] theorem afterEvent_done (s : State) : (afterEvent s).done = s.done := rfl
@[simp] theorem afterEvent_err (s : State) : (afterEvent s).err = s.err := rfl
@[simp] theorem afterEvent_ovr (s : State) : (afterEvent s).ovr = s.ovr := rfl
@[simp] theorem afterEvent_errcode (s : State) : (afterEvent s).errcode = s.errcode := rfl
@[simp] theorem afterEvent_verifyEn (s : State) : (afterEvent s).verifyEn = s.verifyEn := rfl
@[simp] theorem afterEvent_seq (s : State) : (afterEvent s).seq = s.seq := rfl
@[simp] theorem afterEvent_hsState (s : State) : (afterEvent s).hsState = s.hsState := rfl
@[simp] theorem afterEvent_hsAtt (s : State) : (afterEvent s).hsAtt = s.hsAtt := rfl
@[simp] theorem afterEvent_hsMax (s : State) : (afterEvent s).hsMax = s.hsMax := rfl
@[simp] theorem afterEvent_hsTmo (s : State) : (afterEvent s).hsTmo = s.hsTmo := rfl
@[simp] theorem afterEvent_rxTmo (s : State) : (afterEvent s).rxTmo = s.rxTmo := rfl
@[simp] theorem afterEvent_rxReq (s : State) : (afterEvent s).rxReq = s.rxReq := rfl
@[simp] theorem afterEvent_inLen (s : State) : (afterEvent s).inLen = s.inLen := rfl
@[simp] theorem afterEvent_outLen (s : State) : (afterEvent s).outLen = s.outLen := rfl
@[simp] theorem afterEvent_result (s : State) : (afterEvent s).result = s.result := rfl
@[simp] theorem afterEvent_vflags (s : State) : (afterEvent s).vflags = s.vflags := rfl
@[simp] theorem afterEvent_op (s : State) : (afterEvent s).op = s.op := rfl
@[simp] theorem afterEvent_phase (s : State) : (afterEvent s).phase = s.phase := rfl
@[simp] theorem afterEvent_inBuf (s : State) : (afterEvent s).inBuf = s.inBuf := rfl
@[simp] theorem afterEvent_outBuf (s : State) : (afterEvent s).outBuf = s.outBuf := rfl
@[simp] theorem afterEvent_history (s : State) : (afterEvent s).history = s.history := rfl
@[simp] theorem afterEvent_reads (s : State) : (afterEvent s).reads = s.reads := rfl
@[simp] theorem afterEvent_answers (s : State) : (afterEvent s).answers = s.answers := rfl
@[simp] theorem afterEvent_drawn (s : State) : (afterEvent s).drawn = s.drawn := rfl

/-- The instruction of every operation code (30_encoding.md R91), and the rejection of every other (R93). -/
theorem decodeCmd_spec (v : Byte) :
    (v ∉ operationCodes ∧ decodeCmd v = .error (.reservedOp v)) ∨
      (v = 0x00 ∧ decodeCmd v = .ok .nop) ∨ (v = 0x01 ∧ decodeCmd v = .ok .build) ∨
      (v = 0x02 ∧ decodeCmd v = .ok .encode) ∨ (v = 0x03 ∧ decodeCmd v = .ok .frame) ∨
      (v = 0x04 ∧ decodeCmd v = .ok .decode) ∨ (v = 0x05 ∧ decodeCmd v = .ok .verify) ∨
      (v = 0x08 ∧ decodeCmd v = .ok .sum8) ∨ (v = 0x09 ∧ decodeCmd v = .ok .hchk) ∨
      (v = 0x0A ∧ decodeCmd v = .ok .crc8) ∨ (v = 0x0B ∧ decodeCmd v = .ok .crc16) ∨
      (v = 0x10 ∧ decodeCmd v = .ok .send) ∨ (v = 0x11 ∧ decodeCmd v = .ok .recv) ∨
      (v = 0x12 ∧ decodeCmd v = .ok .flushRx) ∨ (v = 0x13 ∧ decodeCmd v = .ok .flushTx) ∨
      (v = 0x14 ∧ decodeCmd v = .ok .flushAll) ∨ (v = 0x20 ∧ decodeCmd v = .ok .hsStart) ∨
      (v = 0x21 ∧ decodeCmd v = .ok .hsSkip) := by
  by_cases h : v ∈ operationCodes
  · simp only [operationCodes, List.mem_cons, List.not_mem_nil, or_false] at h
    rcases h with rfl | rfl | rfl | rfl | rfl | rfl | rfl | rfl | rfl | rfl | rfl | rfl | rfl | rfl | rfl | rfl | rfl <;>
      simp [decodeCmd, operationCodes]
  · refine .inl ⟨h, ?_⟩
    unfold decodeCmd
    split <;> first | rfl | exact absurd (by decide) h

theorem step_of_block {s : State} (h : BlockTurn s) : step s = blockStep (afterEvent s) := by
  rcases h with h | ⟨r, h⟩ <;> simp only [step, machineStep, h, afterEvent, eventStep, List.tail_nil, List.tail_cons]
  rw [← h]

theorem step_of_reset {s : State} (h : ResetNext s) : step s = .next (resetBlock (afterEvent s)) := by
  obtain ⟨r, h⟩ := h
  simp only [step, machineStep, h, afterEvent, eventStep, List.tail_cons]

/-- Decoding in a data format answers an instruction of that format. -/
theorem format_of_decode_data {L : WireLayout} {d : DataFormat} {bs : List Byte} {i : Instr}
    (h : decode L (.data d) bs = .ok i) : i.format = .data d := by
  cases d <;>
    simp only [decode, decodeRaw, decodeSingle, decodeWireSym, decodeWireCmd, decodeReadRegister, decodeWriteRegister,
      decodeBare, decodeLegacy, decodeChallenge, decodeOtpRegister, decodeOtpKey] at h <;>
    (repeat' split at h) <;> cases h <;> rfl

/-- The execution of a data row is LDIN of its bytes (log 8). -/
theorem exec_data {i : Instr} {d : DataFormat} (h : i.format = .data d) (s : State) :
    exec i s = .next (ldin (encode Config.wireLayout i) s) := by
  cases i <;> first | rfl | cases h

/-- A load of data is LDIN of some bytes. -/
theorem loadStep_ldin (d : DataFormat) (bs : List Byte) (s : State) : ∃ xs, loadStep d bs s = .next (ldin xs s) := by
  unfold loadStep
  cases h : decode Config.wireLayout (.data d) bs with
  | error e => exact ⟨bs, rfl⟩
  | ok i => exact ⟨_, exec_data (format_of_decode_data h) s⟩

/-- `s` once a transport answer is taken: only the answers change. -/
theorem dropAnswer_eq (s : State) :
    dropAnswer s = { s with answers := (dropAnswer s).answers, drawn := (dropAnswer s).drawn } := by
  unfold dropAnswer
  cases s.answers <;> rfl

/-- The calls a transport operation makes in its call step, all answered without a FAIL (43_transport_ops.md R191 to
R196). -/
def CallsOf (s : State) (calls : List Call) : Prop :=
  (s.op = 0x10 ∧ ∃ bs, outBytes s = some bs ∧ calls = [.write bs true]) ∨
    (s.op = 0x12 ∧ calls = [.resetIn true]) ∨ (s.op = 0x13 ∧ calls = [.resetOut true]) ∨
      (s.op = 0x14 ∧ calls = [.resetIn true, .resetOut true])

/-- The calls of a step that ends in a FAIL (60_exceptions.md R236). -/
def FailsOf (s : State) (calls : List Call) : Prop :=
  (s.phase = .tCall ∧
    ((s.op = 0x10 ∧ ∃ bs, outBytes s = some bs ∧ calls = [.write bs false]) ∨
      (s.op = 0x11 ∧ calls = [.read s.rxReq.toNat s.rxTmo none]) ∨
        (s.op = 0x12 ∧ calls = [.resetIn false]) ∨ (s.op = 0x13 ∧ calls = [.resetOut false]) ∨
          (s.op = 0x14 ∧ (calls = [.resetIn false] ∨ calls = [.resetIn true, .resetOut false])))) ∨
    (s.op = 0x20 ∧
      ((s.phase = .hsResetIn ∧ calls = [.resetIn false]) ∨
        (s.phase = .hsWrite ∧ calls = [.write [if s.hsState = .idle then startByte else ispStartByte] false]) ∨
          (s.phase = .hsRead ∧ calls = [.read 1 (s.hsTmo.setWidth 16) none])))

/-- The moves of the block: what one block step can do to a state, by the operation in flight. -/
inductive BlockMove (s : State) : State → Prop where
  /-- No operation is in flight (10_state.md R46). -/
  | rest (hp : s.phase = .ready) : BlockMove s s
  /-- An operation ends and writes nothing else: NOP, an error of its checks or of Decode, SEND of nothing, a handshake
  that is ready (60_exceptions.md R231 to R238). -/
  | ends (c : ErrCode) (hp : s.phase ≠ .ready)
      (hh : s.op = 0x20 → s.phase = .exec ∨ s.phase = .tCall ∨ s.phase = .hsCheck ∧ s.hsState = .ispReady) :
      BlockMove s (complete c s)
  /-- BUILD, ENCODE, FRAME and DECODE commit an output (41_frame_codec.md R141, R151, R152). -/
  | output (c : ErrCode) (o : List Byte) (f : VFlags) (hp : s.phase ≠ .ready) (hop : s.op ∈ [0x01, 0x02, 0x03, 0x04])
      (ho : o.length ≤ s.cfg.bufDepth)
      (hf : f = s.vflags ∨ s.op = 0x04 ∧ f.allOk = (f.hdrOk && f.hchkOk && f.lenOk && f.crcOk && f.sizeOk))
      (hc : c = .none ∨ s.op = 0x04 ∧ c = .verify) :
      BlockMove s
        (complete c { s with outBuf := storeBytes s.outBuf 0 o, outLen := BitVec.ofNat 16 o.length, vflags := f })
  /-- VERIFY sets VFLAGS (41_frame_codec.md R154). -/
  | flags (c : ErrCode) (f : VFlags) (hp : s.phase ≠ .ready) (hop : s.op = 0x05)
      (hall : f.allOk = (f.hdrOk && f.hchkOk && f.lenOk && f.crcOk && f.sizeOk)) (hc : c = .none ∨ c = .verify) :
      BlockMove s (complete c { s with vflags := f })
  /-- A checksum operation sets RESULT (40_checksums.md R129). -/
  | result (r : Half) (hp : s.phase ≠ .ready) (hop : s.op ∈ [0x08, 0x09, 0x0A, 0x0B]) :
      BlockMove s (complete .none { s with result := r })
  /-- RECV of nothing (43_transport_ops.md R193). -/
  | recvNone (hp : s.phase ≠ .ready) (hop : s.op = 0x11) : BlockMove s (complete .none { s with inLen := 0 })
  /-- A transport operation moves to its call (43_transport_ops.md R191 to R196). -/
  | toCall (hp : s.phase ≠ .ready) (hp' : s.phase ≠ .tCall) (hop : s.op ∈ transportCodes)
      (hsend : s.op = 0x10 → s.hsState = .ispReady ∧ s.outLen ≠ 0)
      (hrecv : s.op = 0x11 → s.hsState = .ispReady ∧ s.rxReq ≠ 0 ∧ s.rxReq.toNat ≤ s.cfg.bufDepth) :
      BlockMove s { s with phase := .tCall }
  /-- A transport operation but RECV makes its calls and ends (43_transport_ops.md R191, R194 to R196). -/
  | called (calls : List Call) (a : List Answer) (d : Nat) (hp : s.phase = .tCall) (hc : CallsOf s calls) :
      BlockMove s (complete .none { s with history := s.history ++ calls, answers := a, drawn := d })
  /-- RECV stores what it is answered and ends (43_transport_ops.md R193). -/
  | received (bs : List Byte) (a : List Answer) (d : Nat) (hp : s.phase = .tCall) (hop : s.op = 0x11)
      (hlen : bs.length ≤ s.rxReq.toNat) :
      BlockMove s
        (complete .none
          { s with
            inBuf := storeBytes s.inBuf 0 bs, inLen := BitVec.ofNat 16 bs.length
            history := s.history ++ [.read s.rxReq.toNat s.rxTmo (some bs)], answers := a, drawn := d })
  /-- A call is answered FAIL (60_exceptions.md R236). -/
  | failed (calls : List Call) (a : List Answer) (d : Nat) (hc : FailsOf s calls) :
      BlockMove s
        (complete .transport
          { s with history := s.history ++ calls, answers := a, drawn := d, hsState := .failed })
  /-- HS_START begins (42_handshake.md R173). -/
  | hsBegin (hp : s.phase = .exec ∨ s.phase = .tCall) (hop : s.op = 0x20) (hs : s.hsState = .idle) :
      BlockMove s { s with hsAtt := 0, phase := .hsCheck }
  /-- The attempts are used up (42_handshake.md R177). -/
  | hsTimeout (hp : s.phase = .hsCheck) (hop : s.op = 0x20) (hs : s.hsState ≠ .ispReady) (hatt : s.hsAtt = s.hsMax) :
      BlockMove s (complete .hsTimeout { s with hsState := .failed })
  /-- An attempt begins (42_handshake.md R173). -/
  | hsAttempt (p : Phase) (hp : s.phase = .hsCheck) (hop : s.op = 0x20) (hs : s.hsState ≠ .ispReady)
      (hatt : s.hsAtt ≠ s.hsMax) (hp' : p = .hsResetIn ∨ p = .hsWrite) :
      BlockMove s { s with hsAtt := s.hsAtt + 1, phase := p }
  /-- The transport input is reset (42_handshake.md R173). -/
  | hsReset (a : List Answer) (d : Nat) (hp : s.phase = .hsResetIn) (hop : s.op = 0x20) :
      BlockMove s { s with history := s.history ++ [.resetIn true], answers := a, drawn := d, phase := .hsWrite }
  /-- The attempt's byte is sent (42_handshake.md R173). -/
  | hsSent (a : List Answer) (d : Nat) (hp : s.phase = .hsWrite) (hop : s.op = 0x20) :
      BlockMove s
        { s with
          history := s.history ++ [.write [if s.hsState = .idle then startByte else ispStartByte] true]
          answers := a, drawn := d, phase := .hsRead }
  /-- The attempt's reply is read (42_handshake.md R173, R174, R175). -/
  | hsReplied (bs : List Byte) (a : List Answer) (d : Nat) (hp : s.phase = .hsRead) (hop : s.op = 0x20)
      (hlen : bs.length ≤ 1) :
      BlockMove s
        { s with
          history := s.history ++ [.read 1 (s.hsTmo.setWidth 16) (some bs)]
          answers := a, drawn := d, hsState := hsAdvance s.hsState bs, phase := .hsCheck }
  /-- HS_SKIP makes the link ready (42_handshake.md R180). -/
  | skip (hp : s.phase ≠ .ready) (hop : s.op = 0x21) (hs : s.hsState = .idle) :
      BlockMove s (complete .none { s with hsState := .ispReady })

theorem withInput_move {k : List Byte → State → State} {s t : State} (hp : s.phase ≠ .ready) (hop : s.op ≠ 0x20)
    (h : withInput k s = .next t) (hk : ∀ xs, HoldsInput s xs → BlockMove s (k xs s)) : BlockMove s t := by
  rcases withInput_next h with ⟨-, rfl⟩ | ⟨xs, hx, rfl⟩
  · exact .ends _ hp fun h => absurd h hop
  · exact hk xs hx

theorem commit_move {c : ErrCode} {o : List Byte} {f : VFlags} {s : State} (hp : s.phase ≠ .ready)
    (hop : s.op ∈ [0x01, 0x02, 0x03, 0x04]) (hc : c = .none ∨ s.op = 0x04 ∧ c = .verify)
    (hf : f = s.vflags ∨ s.op = 0x04 ∧ f.allOk = (f.hdrOk && f.hchkOk && f.lenOk && f.crcOk && f.sizeOk))
    (ho : o.length ≤ s.cfg.bufDepth ∨ f = s.vflags) : BlockMove s (commit c o { s with vflags := f }) := by
  rcases commit_cases c o { s with vflags := f } with ⟨h1, h2⟩ | ⟨h1, h2⟩ <;> rw [h2]
  · rcases ho with ho | rfl
    · exact absurd h1 (Nat.not_lt.2 ho)
    · exact .ends _ hp fun h => by rw [h] at hop; exact absurd hop (by decide)
  · exact .output c o f hp hop h1 hf hc

theorem checksumOp_move {f : Config → List Byte → Half} {s t : State} (hp : s.phase ≠ .ready)
    (hop : s.op ∈ [0x08, 0x09, 0x0A, 0x0B]) (h : checksumOp f s = .next t) : BlockMove s t :=
  withInput_move hp (fun h => by rw [h] at hop; exact absurd hop (by decide)) h fun xs _ => .result (f s.cfg xs) hp hop

theorem decode_move {s t : State} (hp : s.phase ≠ .ready) (hop : s.op = 0x04) (h : execDecode s = .next t) :
    BlockMove s t := by
  refine withInput_move hp (by rw [hop]; decide) h fun xs hx => ?_
  have hop' : s.op ∈ [0x01, 0x02, 0x03, 0x04] := by rw [hop]; decide
  cases hw : wireDecode xs with
  | error e => exact .ends _ hp fun h => by rw [hop] at h; cases h
  | ok r =>
    have hr : r.length ≤ s.cfg.bufDepth := by have := wireDecode_length hw; have := hx.2.1; omega
    simp only [decodeOk]
    split
    · refine commit_move hp hop' ?_ (.inr ⟨hop, verifyFrame_allOk _ _⟩) (.inl hr)
      unfold verifyCode; split
      · exact .inl rfl
      · exact .inr ⟨hop, rfl⟩
    · exact commit_move hp hop' (.inl rfl) (.inr ⟨hop, rfl⟩) (.inl hr)

/-- A call that ends its operation, whatever it is answered. -/
theorem callThen_move {c : Bool → Call} {s : State} (hp : s.phase = .tCall) (hok : CallsOf s [c true])
    (hfail : FailsOf s [c false]) : BlockMove s (callThen c (complete .none) s) := by
  rcases callThen_cases c (complete .none) s with ⟨-, h⟩ | ⟨_, -, h⟩ <;> rw [h, dropAnswer_eq]
  · exact .failed _ _ _ hfail
  · exact .called _ _ _ hp hok

theorem flush_move {s t : State} {call : State → State} (hp : s.phase ≠ .ready)
    (hop : s.op = 0x12 ∨ s.op = 0x13 ∨ s.op = 0x14) (hcall : s.phase = .tCall → BlockMove s (call s))
    (h : flushOp call s = .next t) : BlockMove s t := by
  unfold flushOp at h
  have hto : s.phase ≠ .tCall → BlockMove s { s with phase := .tCall } := fun hp' =>
    .toCall hp hp' (by rcases hop with h | h | h <;> rw [h] <;> decide)
      (fun h => by rcases hop with h' | h' | h' <;> rw [h'] at h <;> cases h)
      (fun h => by rcases hop with h' | h' | h' <;> rw [h'] at h <;> cases h)
  split at h <;> cases h
  · exact hcall ‹_›
  all_goals exact hto (by simp only [*]; decide)

theorem send_move {s t : State} (hp : s.phase ≠ .ready) (hop : s.op = 0x10) (h : execSend s = .next t) :
    BlockMove s t := by
  have hfirst : s.phase ≠ .tCall → BlockMove s (sendFirst s) := by
    intro hp'
    unfold sendFirst
    split
    · exact .ends _ hp fun h => by rw [hop] at h; cases h
    · split
      · exact .ends _ hp fun h => by rw [hop] at h; cases h
      · exact .toCall hp hp' (by rw [hop]; decide) (fun _ => ⟨not_not.1 ‹_›, ‹_›⟩) (fun h => by rw [hop] at h; cases h)
  unfold execSend at h
  split at h
  · unfold sendCall at h
    split at h <;> cases h
    exact callThen_move ‹_› (.inl ⟨hop, _, ‹_›, rfl⟩) (.inl ⟨‹_›, .inl ⟨hop, _, ‹_›, rfl⟩⟩)
  all_goals cases h; exact hfirst (by simp only [*]; decide)

theorem recv_move {s t : State} (hp : s.phase ≠ .ready) (hop : s.op = 0x11) (h : execRecv s = .next t) :
    BlockMove s t := by
  have hfirst : s.phase ≠ .tCall → BlockMove s (recvFirst s) := by
    intro hp'
    unfold recvFirst
    split
    · exact .ends _ hp fun h => by rw [hop] at h; cases h
    · split
      · exact .ends _ hp fun h => by rw [hop] at h; cases h
      · split
        · exact .recvNone hp hop
        · exact .toCall hp hp' (by rw [hop]; decide) (fun h => by rw [hop] at h; cases h)
            (fun _ => ⟨not_not.1 ‹_›, ‹_›, by omega⟩)
  unfold execRecv at h
  split at h
  · cases h
    unfold recvCall
    rcases tRead_cases s.rxReq.toNat s.rxTmo recvStore s with ⟨-, h⟩ | ⟨bs, -, h⟩ <;> rw [h, dropAnswer_eq]
    · exact .failed _ _ _ (.inl ⟨‹_›, .inr (.inl ⟨hop, rfl⟩)⟩)
    · exact .received _ _ _ ‹_› hop (by simp only [List.length_take]; omega)
  all_goals cases h; exact hfirst (by simp only [*]; decide)

theorem flushAll_move {s : State} (hp : s.phase = .tCall) (hop : s.op = 0x14) :
    BlockMove s (tResetIn (tResetOut (complete .none)) s) := by
  unfold tResetIn tResetOut
  rcases callThen_cases .resetIn (callThen .resetOut (complete .none)) s with ⟨-, h⟩ | ⟨_, -, h⟩ <;> rw [h]
  · rw [dropAnswer_eq]
    exact .failed _ _ _ (.inl ⟨hp, by simp [hop]⟩)
  · rcases callThen_cases .resetOut (complete .none) (record (.resetIn true) (dropAnswer s)) with
      ⟨-, h⟩ | ⟨_, -, h⟩ <;> rw [h, dropAnswer_eq (record _ _)] <;> rw [dropAnswer_eq s]
    · have := BlockMove.failed (s := s) [.resetIn true, .resetOut false] (dropAnswer (record (.resetIn true) (dropAnswer s))).answers
        (dropAnswer (record (.resetIn true) (dropAnswer s))).drawn (.inl ⟨hp, by simp [hop]⟩)
      rw [dropAnswer_eq s] at this
      simpa [record, transportFail] using this
    · have := BlockMove.called (s := s) [.resetIn true, .resetOut true] (dropAnswer (record (.resetIn true) (dropAnswer s))).answers
        (dropAnswer (record (.resetIn true) (dropAnswer s))).drawn hp (by simp [CallsOf, hop])
      rw [dropAnswer_eq s] at this
      simpa [record] using this

theorem hsStart_move {s t : State} (hp : s.phase ≠ .ready) (hop : s.op = 0x20) (h : execHsStart s = .next t) :
    BlockMove s t := by
  have hbegin : s.phase = .exec ∨ s.phase = .tCall → BlockMove s (hsBegin s) := by
    intro hp'
    unfold hsBegin
    split
    · exact .ends _ hp fun _ => by rcases hp' with h | h <;> simp [h]
    · exact .hsBegin hp' hop (not_not.1 ‹_›)
  unfold execHsStart at h
  split at h <;> cases h
  · unfold hsCheck
    split
    · exact .ends _ hp fun _ => .inr (.inr ⟨‹_›, ‹_›⟩)
    · split
      · exact .hsTimeout ‹_› hop ‹_› ‹_›
      · exact .hsAttempt _ ‹_› hop ‹_› ‹_› (by split <;> simp)
  · unfold hsReset tResetIn
    rcases callThen_cases .resetIn (fun t => { t with phase := .hsWrite }) s with ⟨-, h⟩ | ⟨_, -, h⟩ <;>
      rw [h, dropAnswer_eq]
    · exact .failed _ _ _ (.inr ⟨hop, .inl ⟨‹_›, rfl⟩⟩)
    · exact .hsReset _ _ ‹_› hop
  · unfold hsWrite hsSend tWrite
    rcases callThen_cases (.write [if s.hsState = .idle then startByte else ispStartByte])
      (fun t => { t with phase := .hsRead }) s with ⟨-, h⟩ | ⟨_, -, h⟩ <;> rw [h, dropAnswer_eq]
    · exact .failed _ _ _ (.inr ⟨hop, .inr (.inl ⟨‹_›, rfl⟩)⟩)
    · exact .hsSent _ _ ‹_› hop
  · unfold hsRead hsReceive
    rw [dropAnswer_eq]
    cases nextAnswer s with
    | fail => exact .failed _ _ _ (.inr ⟨hop, .inr (.inr ⟨‹_›, rfl⟩)⟩)
    | bytes bs => exact .hsReplied _ _ _ ‹_› hop (by simp only [List.length_take]; omega)
  · exact absurd ‹_› hp
  · exact hbegin (.inl ‹_›)
  · exact hbegin (.inr ‹_›)

/-- Every block step is one of the moves. -/
theorem blockStep_moves {s t : State} (h : blockStep s = .next t) : BlockMove s t := by
  unfold blockStep at h
  split at h
  · cases h; exact .rest ‹_›
  · rename_i hp
    rcases decodeCmd_spec s.op with ⟨_, hd⟩ | ⟨ho, hd⟩ | ⟨ho, hd⟩ | ⟨ho, hd⟩ | ⟨ho, hd⟩ | ⟨ho, hd⟩ | ⟨ho, hd⟩ |
      ⟨ho, hd⟩ | ⟨ho, hd⟩ | ⟨ho, hd⟩ | ⟨ho, hd⟩ | ⟨ho, hd⟩ | ⟨ho, hd⟩ | ⟨ho, hd⟩ | ⟨ho, hd⟩ | ⟨ho, hd⟩ | ⟨ho, hd⟩ |
      ⟨ho, hd⟩ <;> rw [hd] at h <;> dsimp only [exec] at h
    · cases h; exact .ends _ hp fun h => absurd (by rw [h]; decide) ‹s.op ∉ operationCodes›
    · cases h; exact .ends _ hp fun h => by rw [ho] at h; cases h
    · exact withInput_move hp (by rw [ho]; decide) h fun xs _ => commit_move hp (by rw [ho]; decide) (.inl rfl) (.inl rfl) (.inr rfl)
    · exact withInput_move hp (by rw [ho]; decide) h fun xs _ => commit_move hp (by rw [ho]; decide) (.inl rfl) (.inl rfl) (.inr rfl)
    · exact withInput_move hp (by rw [ho]; decide) h fun xs _ => commit_move hp (by rw [ho]; decide) (.inl rfl) (.inl rfl) (.inr rfl)
    · exact decode_move hp ho h
    · refine withInput_move hp (by rw [ho]; decide) h fun xs _ => .flags _ _ hp ho (verifyFrame_allOk _ _) ?_
      unfold verifyCode; split
      · exact .inl rfl
      · exact .inr rfl
    · exact checksumOp_move hp (by rw [ho]; decide) h
    · exact checksumOp_move hp (by rw [ho]; decide) h
    · exact checksumOp_move hp (by rw [ho]; decide) h
    · exact checksumOp_move hp (by rw [ho]; decide) h
    · exact send_move hp ho h
    · exact recv_move hp ho h
    · exact flush_move hp (.inl ho) (fun hp' => callThen_move hp' (by simp [CallsOf, ho]) (by simp [FailsOf, ho, hp'])) h
    · exact flush_move hp (.inr (.inl ho))
        (fun hp' => callThen_move hp' (by simp [CallsOf, ho]) (by simp [FailsOf, ho, hp'])) h
    · exact flush_move hp (.inr (.inr ho)) (fun hp' => flushAll_move hp' ho) h
    · exact hsStart_move hp ho h
    · unfold execHsSkip at h
      split at h <;> cases h
      · exact .ends _ hp fun h => by rw [ho] at h; cases h
      · exact .skip hp ho (not_not.1 ‹_›)

/-- The moves of the machine. -/
inductive Move (s : State) : State → Prop where
  | block {t : State} (hb : BlockTurn s) (hm : BlockMove (afterEvent s) t) : Move s t
  | reset (hr : ResetNext s) : Move s (resetBlock (afterEvent s))
  | read (a : Half) (v : Byte) (rest : List Event) (he : s.events = .read a 1 :: rest)
      (hv : hostRead a (afterEvent s) = some v) : Move s (logRead a v (afterEvent s))
  | write (a : Half) (v : Byte) (rest : List Event) (he : s.events = .write a [v] :: rest) :
      Move s (hostWrite a v (afterEvent s))
  | load (d : DataFormat) (bs xs : List Byte) (rest : List Event) (he : s.events = .load d bs :: rest) :
      Move s (ldin xs (afterEvent s))
  | wait (rest : List Event) (he : s.events = .wait :: rest) : Move s (waitStep (afterEvent s))

/-- Every step is one of the moves. -/
theorem step_moves {s t : State} (h : step s = .next t) : Move s t := by
  cases he : s.events with
  | nil =>
    have hb : BlockTurn s := .inl he
    rw [step_of_block hb] at h
    exact .block hb (blockStep_moves h)
  | cons e rest =>
    have ha : afterEvent s = { s with events := rest } := by simp only [afterEvent, he, List.tail_cons]
    have h' : eventStep e (afterEvent s) = .next t := by rw [ha]; simpa only [step, machineStep, he] using h
    cases e with
    | block => exact .block (.inr ⟨rest, he⟩) (blockStep_moves h')
    | read a size =>
      simp only [eventStep, readStep] at h'
      split at h'
      · split at h' <;> cases h'
        subst ‹size = 1›
        exact .read a _ rest he ‹_›
      · cases h'
    | write a data =>
      simp only [eventStep, writeStep] at h'
      split at h' <;> cases h'
      exact .write a _ rest he
    | load d bs =>
      obtain ⟨xs, hx⟩ := loadStep_ldin d bs (afterEvent s)
      rw [eventStep, hx] at h'
      cases h'
      exact .load d bs xs rest he
    | wait => cases h'; exact .wait rest he
    | reset => cases h'; exact .reset ⟨rest, he⟩

/-- The moves of the machine by what they may change: the block's turn, the reset, and the host's events, which change
no more than the observed reads, OVR, an acceptance, or while BUSY = 0 the host's own registers and IN_BUF. -/
theorem step_shape {s t : State} (h : step s = .next t) :
    (BlockTurn s ∧ BlockMove (afterEvent s) t) ∨ (ResetNext s ∧ t = resetBlock (afterEvent s)) ∨
      (¬ BlockTurn s ∧ ¬ ResetNext s ∧
        ((∃ ev rd, t = { s with events := ev, reads := rd }) ∨
          (s.busy = true ∧ ∃ ev, t = { s with events := ev, ovr := true }) ∨
          (∃ v rest, s.events = .write 0x0000 [v] :: rest ∧ s.busy = false ∧ t = accept v (afterEvent s)) ∨
          (∃ v rest, s.events = .write 0x0001 [v] :: rest ∧ v.getLsbD 3 = true ∧
            t = { afterEvent s with ovr := false }) ∨
          (s.busy = false ∧
            ∃ (b : Bool) (sq tm : Byte) (mx rt rq il : Half) (m : Memory) (ev : List Event), (s.inBuf.wf → m.wf) ∧
              ((∀ c ∈ s.inBuf, c.1 < s.cfg.bufDepth) → ∀ c ∈ m, c.1 < s.cfg.bufDepth) ∧
                t =
                  { s with
                    verifyEn := b, seq := sq, hsTmo := tm, hsMax := mx, rxTmo := rt, rxReq := rq, inLen := il
                    inBuf := m, events := ev }))) := by
  cases step_moves h with
  | block hb hm => exact .inl ⟨hb, hm⟩
  | reset hr => exact .inr (.inl ⟨hr, rfl⟩)
  | read a v rest he hv => exact .inr (.inr ⟨by simp [BlockTurn, he], by simp [ResetNext, he], .inl ⟨_, _, rfl⟩⟩)
  | wait rest he =>
    refine .inr (.inr ⟨by simp [BlockTurn, he], by simp [ResetNext, he], .inl ?_⟩)
    unfold waitStep logRead
    dsimp only
    split <;> exact ⟨_, _, rfl⟩
  | load d bs xs rest he =>
    refine .inr (.inr ⟨by simp [BlockTurn, he], by simp [ResetNext, he], ?_⟩)
    rcases ldin_cases xs (afterEvent s) with ⟨h, h'⟩ | ⟨h, h'⟩
    · exact .inr (.inl ⟨h, _, h'⟩)
    · refine .inr (.inr (.inr (.inr
        ⟨h, _, _, _, _, _, _, _, _, _, fun hw => storeBytes_wf hw _ _, fun hb c hc => ?_, h'⟩)))
      rcases mem_storeBytes hc with h1 | h1
      · exact hb c h1
      · simp only [List.length_take, afterEvent_cfg] at h1; omega
  | write a v rest he =>
    refine .inr (.inr ⟨by simp [BlockTurn, he], by simp [ResetNext, he], ?_⟩)
    rcases hostWrite_cases a v (afterEvent s) with h | ⟨h, h'⟩ | ⟨rfl, h, h'⟩ | ⟨rfl, h, h'⟩ |
      ⟨h, b, sq, tm, mx, rt, rq, il, h'⟩ | ⟨h, i, hi, h'⟩
    · exact .inl ⟨s.events.tail, s.reads, h⟩
    · exact .inr (.inl ⟨h, _, h'⟩)
    · exact .inr (.inr (.inl ⟨v, rest, he, h, h'⟩))
    · exact .inr (.inr (.inr (.inl ⟨v, rest, he, h, h'⟩)))
    · exact .inr (.inr (.inr (.inr ⟨h, _, _, _, _, _, _, _, s.inBuf, _, id, id, h'⟩)))
    · refine .inr (.inr (.inr (.inr
        ⟨h, s.verifyEn, _, _, _, _, _, _, _, _, fun hw => memSet_wf hw _ _, fun hb c hc => ?_, h'⟩)))
      rcases mem_memSet hc with h1 | h1
      · rw [h1]; exact hi
      · exact hb c h1

end Sys2Proof.Machine
end

