-- ==== Sys2Proof/Laws/Run.lean ====
section
/-! SUPPORT. A run of the machine, one step at a time, and the steps of a run in which only the block moves. -/

namespace Sys2Proof.Machine

theorem run_core_next {s t : core.State} (h : core.step s = .next t) (k : Nat) :
    Host.Core.run core (k + 1) s = Host.Core.run core k t := by
  rw [Host.Core.run.eq_2, h]

theorem run_core_fault {s : core.State} {f : core.Fault} (h : core.step s = .fault f) (k : Nat) :
    Host.Core.run core (k + 1) s = .fault f := by
  rw [Host.Core.run.eq_2, h]

/-- A run whose first step goes on. -/
theorem run_next {s t : State} (h : step s = .next t) (k : Nat) :
    Host.Core.run core (k + 1) s = Host.Core.run core k t := run_core_next h k

/-- A run whose first step stops. -/
theorem run_fault {s : State} {f : Fault} (h : step s = .fault f) (k : Nat) :
    Host.Core.run core (k + 1) s = .fault f := run_core_fault h k

/-- With no event pending, a step of an operation in flight is its meaning (10_state.md R48). -/
theorem step_in_flight {s : State} {i : Instr} (he : s.events = []) (hp : s.phase ≠ .ready)
    (hd : decodeCmd s.op = .ok i) : step s = exec i s := by
  have ha : afterEvent s = s := by
    unfold afterEvent
    rw [he, List.tail_nil, ← he]
  rw [step_of_block (.inl he), ha, blockStep, if_neg hp, hd]

end Sys2Proof.Machine
end

