-- ==== Sys2Proof/Tests/Slice0.lean ====
section
/-! SUPPORT. Tests: the checks of WellFormed refuse what they must; words written out from the spec's encodings decode;
one step per instruction on small states; and for every statement with hypotheses, states and operands that meet them.
Expected values are those of spec/95_test_vectors.md (named V-... in comments) or are worked out from the rule named. -/

set_option maxRecDepth 20000

namespace Sys2Proof.Tests

open Sys2Proof.Machine

/-! ### Small states -/

/-- The outcome is a next state with a property. -/
def check (r : Result) (p : State → Bool) : Bool :=
  match r with
  | .next t => p t
  | .fault _ => false
  | .refused _ => false

/-- The outcome is a fault. -/
def stops (r : Result) (f : Fault) : Bool :=
  match r with
  | .next _ => false
  | .fault g => decide (f = g)
  | .refused _ => false

/-- The reset state with an operation accepted and IN[0..IN_LEN) holding some bytes. -/
def loaded (op : Byte) (xs : List Byte) : State :=
  { accept op State.reset with inBuf := storeBytes [] 0 xs, inLen := BitVec.ofNat 16 xs.length }

/-- The link is ready, with OUT[0..OUT_LEN) holding some bytes, an operation in flight, and pending answers. -/
def linked (op : Byte) (p : Phase) (xs : List Byte) (answers : List Answer) : State :=
  { accept op State.reset with
    phase := p, hsState := .ispReady, outBuf := storeBytes [] 0 xs, outLen := BitVec.ofNat 16 xs.length
    answers := answers }

/-- HS_START in flight. -/
def shaking (p : Phase) (st : HsState) (att : Half) (answers : List Answer) : State :=
  { accept 0x20 State.reset with phase := p, hsState := st, hsAtt := att, answers := answers }

/-- OUT[0..OUT_LEN). -/
def output (s : State) : List Byte := (outBytes s).getD []

/-- A layout to test with; the device's own is not in the spec (93_implementation_defined.md U13). -/
def layout : WireLayout where
  legacyBefore := 2
  otpRegister := { offsetBytes := 2, covers := { opcode := false, option := false, offset := true, data := false } }
  otpKey := { offsetBytes := 1, covers := { opcode := false, option := true, offset := true, data := false } }

/-! ### WellFormed: an ill-formed term for each check -/

theorem test_wf_frame_length : Instr.wf layout (.frameHeader 0 2 0xFE [0x04] 0) = false := by decide
theorem test_wf_legacy_before : Instr.wf layout (.legacyKeyWrite [0x00] [0x01]) = false := by decide
theorem test_wf_legacy_size :
    Instr.wf layout (.legacyKeyWrite [0x00, 0x00] (List.replicate 65532 0x00)) = false := by
  rw [Instr.wf, List.length_replicate]; rfl
theorem test_wf_challenge_r :
    Instr.wf layout (.sendChallengeResponse (List.replicate 31 0) (List.replicate 32 0)) = false := by decide
theorem test_wf_challenge_s :
    Instr.wf layout (.sendChallengeResponse (List.replicate 32 0) (List.replicate 33 0)) = false := by decide
theorem test_wf_otp_register_offset : Instr.wf layout (.writeOtpRegister 1 0xFF 0x10000 [0x01]) = false := by
  decide
theorem test_wf_otp_register_chk : Instr.wf layout (.writeOtpRegister 1 0x87 0x4433 [0x01]) = false := by decide
theorem test_wf_otp_register_size :
    Instr.wf layout (.writeOtpRegister 1 0xFF 0 (List.replicate 65530 0x00)) = false := by
  rw [Instr.wf, List.length_replicate, Bool.and_eq_false_iff]
  exact .inr (decide_eq_false (by show ¬ 2 + 65530 + 4 ≤ 65535; omega))
theorem test_wf_otp_key_length : Instr.wf layout (.writeOtpKey 1 0xFE 0 (List.replicate 63 0)) = false := by decide
theorem test_wf_otp_key_offset : Instr.wf layout (.writeOtpKey 1 0xFE 0x100 (List.replicate 64 0)) = false := by
  decide
theorem test_wf_otp_key_chk : Instr.wf layout (.writeOtpKey 1 0xCC 0x33 (List.replicate 64 0)) = false := by decide
theorem test_wf_otp_key_size :
    Instr.wf { layout with otpKey := { layout.otpKey with offsetBytes := 65469 } }
      (.writeOtpKey 1 0xFE 0 (List.replicate 64 0x00)) = false := by
  rw [Instr.wf, List.length_replicate, Bool.and_eq_false_iff]; exact .inr rfl
theorem test_wf_accepts :
    Instr.wf layout (.frameHeader 1 1 0xFE [0x04] 0x18EF) = true ∧
      Instr.wf layout (.legacyKeyWrite [0x00, 0x00] [0x01]) = true ∧
      Instr.wf layout (.writeOtpRegister 1 0x88 0x4433 []) = true ∧
      Instr.wf layout (.writeOtpRegister 1 0x01 0xFFFF []) = true ∧
      Instr.wf layout (.writeOtpKey 1 0xFF 0xFF (List.replicate 64 0)) = true := by decide

/-! ### Decode: words written out from the spec's tables -/

/-- Every CMD8 row (30_encoding.md R91). -/
theorem test_decode_cmd8 :
    [0x00, 0x01, 0x02, 0x03, 0x04, 0x05, 0x08, 0x09, 0x0A, 0x0B, 0x10, 0x11, 0x12, 0x13, 0x14, 0x20, 0x21].map
        (decodeTableWord 8) =
      [Instr.nop, .build, .encode, .frame, .decode, .verify, .sum8, .hchk, .crc8, .crc16, .send, .recv, .flushRx,
        .flushTx, .flushAll, .hsStart, .hsSkip].map some := by decide

/-- The other byte rows (30_encoding.md R97, R100), and the raw frame's header byte with zero bytes after it (R95). -/
theorem test_decode_bytes :
    [0xC0, 0xDB, 0xDC, 0xDD, 0xAA, 0x55, 0x69, 0x6A].map (decodeTableWord 8) =
        [Instr.delim, .esc, .escDelim, .escEsc, .start, .ack, .ispStart, .ispReady].map some ∧
      decodeTableWord 8 0x52 = some (.frameHeader 0 0 0 [] 0) ∧ decodeTableWord 8 0x0E = some .verifyBootloaderSignature ∧
        decodeTableWord 8 0x0F = some .requestSecureDebug := by decide

/-- Reserved and unlisted bytes (30_encoding.md R93). -/
theorem test_decode_reserved :
    decodeTableWord 8 0x06 = none ∧ decodeTableWord 8 0x1F = none ∧ decodeTableWord 8 0xFF = none := by decide

/-- V-BLD-4: SEQ 01, payload 04. -/
theorem test_decode_frame :
    Sys2Proof.decode layout (.data .rawHdr) [0x52, 0x01, 0x00, 0x01, 0xFE, 0x04, 0x18, 0xEF] =
      .ok (.frameHeader 0x01 0x0001 0xFE [0x04] 0x18EF) := by rfl

/-- E7: write register 0x40003000 with 0xDEADBEEF; and the read of the same register (44_wire_commands.md R211). -/
theorem test_decode_registers :
    Sys2Proof.decode layout (.data .wireCmd) [0x02, 0x00, 0x30, 0x00, 0x40, 0xEF, 0xBE, 0xAD, 0xDE] =
        .ok (.writeRegister 0x40003000 0xDEADBEEF) ∧
      Sys2Proof.decode layout (.data .wireCmd) [0x01, 0x00, 0x30, 0x00, 0x40] = .ok (.readRegister 0x40003000) :=
  ⟨rfl, rfl⟩

/-- 44_wire_commands.md R213 to R217. -/
theorem test_decode_bare :
    [[0x04], [0x08], [0x0E], [0x0F], [0x07], [0x04, 0x00]].map (Sys2Proof.decode layout (.data .wireCmd)) =
      [.ok .getFlashId, .ok .eraseSecureOtpPage, .ok .verifyBootloaderSignature, .ok .requestSecureDebug,
        .error (.unlistedWireOp 0x07), .error .badLength] := by rfl

/-- 44_wire_commands.md R215, R219, R220: the CRC-8 of the key/value bytes DE AD BE EF is A5 (V-SUM-8); the address
checksum of an offset 33 44 alone is ~77 = 88, that of an option 01 and an offset 33 is ~34 = CB; the offset 33 44 is
0x4433. A wrong CRC-8, a wrong address checksum and a key of a wrong length are rejected. -/
theorem test_decode_keys :
    Sys2Proof.decode layout (.data .wireCmd) [0x09, 0x11, 0x22, 0xDE, 0xAD, 0xBE, 0xEF, 0xA5] =
        .ok (.legacyKeyWrite [0x11, 0x22] [0xDE, 0xAD, 0xBE, 0xEF]) ∧
      Sys2Proof.decode layout (.data .wireCmd) [0x11, 0x01, 0x88, 0x33, 0x44, 0xDE, 0xAD, 0xBE, 0xEF, 0xA5] =
        .ok (.writeOtpRegister 0x01 0x88 0x4433 [0xDE, 0xAD, 0xBE, 0xEF]) ∧
      Sys2Proof.decode layout (.data .wireCmd) [0x11, 0x01, 0x88, 0x33, 0x44, 0xDE, 0xAD, 0xBE, 0xEF, 0xA4] =
        .error .badField ∧
      Sys2Proof.decode layout (.data .wireCmd) [0x11, 0x01, 0x87, 0x33, 0x44, 0xDE, 0xAD, 0xBE, 0xEF, 0xA5] =
        .error .badField ∧
      Sys2Proof.decode layout (.data .wireCmd) ([0x12, 0x01, 0xCB, 0x33] ++ List.replicate 64 0x77) =
        .ok (.writeOtpKey 0x01 0xCB 0x33 (List.replicate 64 0x77)) ∧
      Sys2Proof.decode layout (.data .wireCmd) ([0x12, 0x01, 0xCC, 0x33] ++ List.replicate 64 0x77) =
        .error .badField ∧
      Sys2Proof.decode layout (.data .wireCmd) ([0x12, 0x01, 0xCB, 0x33] ++ List.replicate 63 0x77) =
        .error .badLength :=
  ⟨rfl, rfl, rfl, rfl, rfl, rfl, rfl⟩

/-- 44_wire_commands.md R218. -/
theorem test_decode_challenge :
    Sys2Proof.decode layout (.data .wireCmd)
        ([0x10, 0x52, 0x00, 0x00, 0x01] ++ List.replicate 32 0x11 ++ List.replicate 32 0x22) =
      .ok (.sendChallengeResponse (List.replicate 32 0x11) (List.replicate 32 0x22)) := by rfl

/-! ### One step per instruction -/

/-- After V-ERR-2. -/
theorem test_nop : check (exec .nop (loaded 0x00 [])) (fun t => statusByte t == 0x02 && t.errcode.code == 0x00) = true := by
  decide
/-- V-BLD-4. -/
theorem test_build :
    check (exec .build { loaded 0x01 [0x04] with seq := 0x01 })
      (fun t => output t == [0x52, 0x01, 0x00, 0x01, 0xFE, 0x04, 0x18, 0xEF] && t.outLen == 8 && statusByte t == 0x02) =
      true := by decide
/-- V-BLD-15. -/
theorem test_build_overflow :
    check (exec .build { loaded 0x01 (List.replicate 10 0) with cfg := { Config.standard with bufDepth := 16 } })
      (fun t => t.errcode.code == 0x03 && t.outBuf == [] && t.outLen == 0) = true := by decide
/-- V-ENC-3. -/
theorem test_encode :
    check (exec .encode (loaded 0x02 [0xDB, 0xC0])) (fun t => output t == [0xC0, 0xDB, 0xDB, 0xDC, 0xC0]) = true := by
  decide
/-- V-FRM-6. -/
theorem test_frame :
    check (exec .frame { loaded 0x03 [0x00] with seq := 0x3F })
      (fun t => output t == [0xC0, 0x52, 0x3F, 0x00, 0x01, 0xDB, 0xDC, 0x00, 0xBD, 0xB7, 0xC0]) = true := by decide
/-- V-DEC-12. -/
theorem test_decode :
    check (exec .decode (loaded 0x04 [0xC0, 0x52, 0xDB, 0xDC, 0xDB, 0xDD, 0xC0]))
      (fun t => output t == [0x52, 0xC0, 0xDB] && statusByte t == 0x02 && t.vflags.toByte == 0x00) = true := by decide
/-- V-DEC-9: the first error position wins. -/
theorem test_decode_error :
    check (exec .decode (loaded 0x04 [0xC0, 0x52, 0xC0, 0xDB, 0x00, 0xC0]))
      (fun t => t.errcode.code == 0x11 && t.outBuf == []) = true := by decide
/-- V-VER-4. -/
theorem test_verify :
    check (exec .verify (loaded 0x05 [0x52, 0x00, 0x00, 0x02, 0xFE, 0x04, 0xEB, 0xEE]))
      (fun t => t.vflags.toByte == 0x2B && t.errcode.code == 0x14) = true := by decide
/-- V-VER-1. -/
theorem test_verify_correct :
    check (exec .verify (loaded 0x05 [0x52, 0x00, 0x00, 0x00, 0x00, 0x40, 0xBD]))
      (fun t => t.vflags.toByte == 0x3F && t.errcode.code == 0x00) = true := by decide
/-- V-SUM-3. -/
theorem test_sum8 : check (exec .sum8 (loaded 0x08 [1, 2, 3])) (fun t => t.result == 0x00F9) = true := by decide
/-- V-SUM-3, TWOS. -/
theorem test_hchk : check (exec .hchk (loaded 0x09 [1, 2, 3])) (fun t => t.result == 0x00FA) = true := by decide
/-- V-SUM-3. -/
theorem test_crc8 : check (exec .crc8 (loaded 0x0A [1, 2, 3])) (fun t => t.result == 0x003F) = true := by decide
/-- V-SUM-10. -/
theorem test_crc16 :
    check (exec .crc16 (loaded 0x0B [0x31, 0x32, 0x33, 0x34, 0x35, 0x36, 0x37, 0x38, 0x39]))
      (fun t => t.result == 0x29B1) = true := by decide
/-- V-SUM-17. -/
theorem test_input_too_long :
    check (exec .crc16 { loaded 0x0B [] with inLen := 0x0801 }) (fun t => t.errcode.code == 0x02 && t.result == 0) =
      true := by decide
/-- V-SUM-18. -/
theorem test_input_unwritten : stops (exec .sum8 { loaded 0x08 [] with inLen := 3 }) .uninitRead = true := by decide
/-- V-TR-1. -/
theorem test_send_gated : check (exec .send (loaded 0x10 [])) (fun t => t.errcode.code == 0x20 && t.history == []) = true := by
  decide
/-- V-TR-5. -/
theorem test_send_fail :
    check (exec .send (linked 0x10 .tCall [0xC0, 0xC0] [.fail]))
      (fun t => t.hsState == .failed && statusByte t == 0x06 && t.history == [.write [0xC0, 0xC0] false]) = true := by
  decide
/-- V-TR-8. -/
theorem test_recv :
    check (exec .recv { linked 0x11 .tCall [] [.bytes [0xC0, 0x52, 0xC0, 0xFF]] with rxReq := 3 })
      (fun t => t.inLen == 3 && loadBytes t.inBuf 0 3 == some [0xC0, 0x52, 0xC0] && t.errcode.code == 0x00 &&
        t.history == [.read 3 0x01F4 (some [0xC0, 0x52, 0xC0])]) = true := by decide
/-- V-TR-7. -/
theorem test_recv_range :
    check (exec .recv { linked 0x11 .exec [] [] with rxReq := 0x0801 }) (fun t => t.errcode.code == 0x04) = true := by
  decide
/-- V-TR-16. -/
theorem test_flush_rx :
    check (exec .flushRx { linked 0x12 .tCall [] [.bytes []] with hsState := .failed })
      (fun t => t.history == [.resetIn true] && statusByte t == 0x02 && t.hsState == .failed) = true := by decide
/-- V-TR-12. -/
theorem test_flush_tx :
    check (exec .flushTx (linked 0x13 .tCall [] [.bytes []])) (fun t => t.history == [.resetOut true]) = true := by decide
/-- V-TR-14. -/
theorem test_flush_all_fail :
    check (exec .flushAll (linked 0x14 .tCall [] [.fail, .bytes []]))
      (fun t => t.history == [.resetIn false] && t.hsState == .failed && t.answers == [.bytes []]) = true := by decide
/-- V-TR-13. -/
theorem test_flush_all :
    check (exec .flushAll (linked 0x14 .tCall [] [.bytes [], .bytes []]))
      (fun t => t.history == [.resetIn true, .resetOut true] && t.errcode.code == 0x00) = true := by decide
/-- V-HS-4: no attempt is left. -/
theorem test_hs_start_timeout :
    check (exec .hsStart { shaking .hsCheck .idle 0 [] with hsMax := 0 })
      (fun t => t.hsState == .failed && t.errcode.code == 0x22 && statusByte t == 0x06) = true := by decide
/-- V-HS-11: HS_FLUSH_ACK also resets the input in an ACK_RECEIVED attempt. -/
theorem test_hs_start_attempt :
    check (exec .hsStart { shaking .hsCheck .ackReceived 1 [] with cfg := { Config.standard with hsFlushAck := true } })
      (fun t => t.phase == .hsResetIn && t.hsAtt == 2) = true := by decide
/-- V-HS-16. -/
theorem test_hs_skip : check (exec .hsSkip (loaded 0x21 [])) (fun t => t.hsState == .ispReady && statusByte t == 0x12) = true := by
  decide
/-- V-HS-18. -/
theorem test_hs_skip_failed :
    check (exec .hsSkip { loaded 0x21 [] with hsState := .failed })
      (fun t => t.hsState == .failed && t.errcode.code == 0x21) = true := by decide
/-- V-HS-1, byte by byte (30_encoding.md R100). -/
theorem test_start :
    check (exec .start (shaking .hsWrite .idle 1 [.bytes []])) (fun t => t.history == [.write [0xAA] true]) = true := by
  decide
theorem test_ack : check (exec .ack (shaking .hsRead .idle 1 [])) (fun t => t.hsState == .ackReceived) = true := by decide
theorem test_isp_start :
    check (exec .ispStart (shaking .hsWrite .ackReceived 2 [.bytes []])) (fun t => t.history == [.write [0x69] true]) =
      true := by decide
theorem test_isp_ready :
    check (exec .ispReady (shaking .hsRead .ackReceived 2 [])) (fun t => t.hsState == .ispReady && t.phase == .hsCheck) =
      true := by decide
/-- V-HS-3: a byte that is not the phase's own does not advance the state. -/
theorem test_hs_wrong_byte :
    check (step (shaking .hsRead .idle 1 [.bytes [0x6A]])) (fun t => t.hsState == .idle && t.phase == .hsCheck) = true := by
  decide

/-- The bytes a data row leaves in IN_BUF. -/
def loads (i : Instr) (bs : List Byte) : Bool :=
  check (exec i State.reset) fun t => loadBytes t.inBuf 0 bs.length == some bs && t.inLen == BitVec.ofNat 16 bs.length

theorem test_frame_header :
    loads (.frameHeader 0x01 0x0001 0xFE [0x04] 0x18EF) [0x52, 0x01, 0x00, 0x01, 0xFE, 0x04, 0x18, 0xEF] = true := by decide
theorem test_wire_symbols :
    (loads .delim [0xC0] && loads .esc [0xDB] && loads .escDelim [0xDC] && loads .escEsc [0xDD]) = true := by decide
/-- E7. -/
theorem test_register_commands :
    (loads (.readRegister 0x40003000) [0x01, 0x00, 0x30, 0x00, 0x40] &&
      loads (.writeRegister 0x40003000 0xDEADBEEF) [0x02, 0x00, 0x30, 0x00, 0x40, 0xEF, 0xBE, 0xAD, 0xDE]) = true := by
  decide
theorem test_bare_commands :
    (loads .getFlashId [0x04] && loads .eraseSecureOtpPage [0x08] && loads .verifyBootloaderSignature [0x0E] &&
      loads .requestSecureDebug [0x0F]) = true := by decide
theorem test_key_commands :
    (loads (.legacyKeyWrite [0x11] [0xDE, 0xAD, 0xBE, 0xEF]) [0x09, 0x11, 0xDE, 0xAD, 0xBE, 0xEF, 0xA5] &&
      loads (.sendChallengeResponse [0x66] [0x77]) [0x10, 0x52, 0x00, 0x00, 0x01, 0x66, 0x77]) = true := by decide

/-- The OTP commands load their encoding in the device's layout, and that encoding in a layout written out
(44_wire_commands.md R219, R220). -/
theorem test_otp_commands :
    (∀ s, exec (.writeOtpRegister 1 0x88 0x4433 [0xDE]) s =
        .next (ldin (Sys2Proof.encode Config.wireLayout (.writeOtpRegister 1 0x88 0x4433 [0xDE])) s)) ∧
      Sys2Proof.encode layout (.writeOtpRegister 1 0x88 0x4433 [0xDE, 0xAD, 0xBE, 0xEF]) =
        [0x11, 0x01, 0x88, 0x33, 0x44, 0xDE, 0xAD, 0xBE, 0xEF, 0xA5] ∧
      (∀ s, exec (.writeOtpKey 1 0xCB 0x33 [0x44]) s =
        .next (ldin (Sys2Proof.encode Config.wireLayout (.writeOtpKey 1 0xCB 0x33 [0x44])) s)) ∧
      Sys2Proof.encode layout (.writeOtpKey 1 0xCB 0x33 [0x44]) = [0x12, 0x01, 0xCB, 0x33, 0x44] :=
  ⟨fun _ => rfl, rfl, fun _ => rfl, rfl⟩

/-- 44_wire_commands.md R213: the ID is big-endian at offset 8; a response of 11 bytes has none (log 19). -/
theorem test_flash_id :
    responseFlashId (List.replicate 8 0x00 ++ [0x12, 0x34, 0x56, 0x78]) = some 0x12345678 ∧
      responseFlashId (List.replicate 11 0x00) = none := by decide

/-! ### The host interface -/

/-- V-ERR-12: a guarded write while BUSY = 1 is dropped. -/
theorem test_guarded_write :
    check (step { loaded 0x0B [] with events := [.write 0x0004 [0x05]] }) (fun t => t.seq == 0x00 && t.ovr) = true := by
  decide
/-- V-ERR-13. -/
theorem test_status_clear :
    check (step { State.reset with ovr := true, events := [.write 0x0001 [0x08]] }) (fun t => !t.ovr) = true := by decide
/-- V-ERR-16. -/
theorem test_read_unwritten : stops (step { State.reset with events := [.read 0x8000 1] }) .uninitRead = true := by decide
/-- 20_memory.md R64. -/
theorem test_bad_access : stops (step { State.reset with events := [.read 0x0000 2] }) .badAccess = true := by decide
/-- V-ERR-8: HS_MAX_LO after reset. -/
theorem test_read_hs_max :
    check (step { State.reset with events := [.read 0x0008 1] }) (fun t => t.reads == [(0x0008, 0xFA)]) = true := by decide
/-- The placed word runs next, for an operation, a reserved code and a handshake byte (log 14). -/
theorem test_with_fetch_word :
    (check (step (State.reset.withFetchWord 8 0x21)) (fun t => t.hsState == .ispReady) &&
      check (step (State.reset.withFetchWord 8 0x06)) (fun t => t.errcode == .badOp) &&
      check (step (State.reset.withFetchWord 8 0x55)) (fun t => t.hsState == .ackReceived)) = true := by decide
/-- V-EX-5: fewer than 8 bytes is a mismatch, and there is no fourth attempt. -/
theorem test_executor :
    let b : List Byte := [0xC0, 0x52, 0x03, 0x00, 0x06, 0xF7, 0x01]
    executor (some 0x00) 3 [b, b, b, b] =
      ([.send, .recv, .flushAll, .send, .recv, .flushAll, .send, .recv, .flushAll], some (false, b)) := by decide

/-! ### Witnesses: states and operands that meet the hypotheses of each statement -/

/-- An instance of 16 bytes a buffer, the smallest (00_scope.md R8). -/
def small : Config := { Config.standard with bufDepth := 16 }

theorem holdsInput_loaded_nil : HoldsInput (loaded 0x01 []) [] := ⟨rfl, by decide, by simp⟩
theorem holdsInput_loaded_four (op : Byte) : HoldsInput (loaded op [0x04, 0xC0, 0xDB, 0x01]) [0x04, 0xC0, 0xDB, 0x01] :=
  ⟨rfl, by show 4 ≤ 2048; decide, by simp only [loaded]; decide⟩

/-- An operation in flight, right after its acceptance, meets the invariant. -/
theorem inv_accepted (op : Byte) : Inv (accept op State.reset) where
  cfgWf := by show Config.standard.wf; decide
  busyPhase := rfl
  inWf := List.Pairwise.nil
  outWf := List.Pairwise.nil
  inBound := fun c hc => by cases hc
  outBound := fun c hc => by cases hc
  outLenLe := Nat.zero_le _
  outWritten := fun j hj => absurd hj (Nat.not_lt_zero j)
  running := fun _ => ⟨rfl, rfl, rfl⟩
  rested := fun h => by cases h
  allOk := rfl
  callOp := fun h => by cases h
  hsOp := fun h => by cases h
  sendCallOk := fun h => by cases h
  recvCallOk := fun h => by cases h
  ackInFlight := fun h => by cases h
  attemptsLe := fun h => by cases h
  attempting := fun h => by cases h
  checking := fun h => by cases h

/-- A handshake that waits for its first reply meets the invariant. -/
theorem inv_shaking (answers : List Answer) : Inv (shaking .hsRead .idle 1 answers) where
  cfgWf := by show Config.standard.wf; decide
  busyPhase := rfl
  inWf := List.Pairwise.nil
  outWf := List.Pairwise.nil
  inBound := fun c hc => by cases hc
  outBound := fun c hc => by cases hc
  outLenLe := Nat.zero_le _
  outWritten := fun j hj => absurd hj (Nat.not_lt_zero j)
  running := fun _ => ⟨rfl, rfl, rfl⟩
  rested := fun h => by cases h
  allOk := rfl
  callOp := fun h => by cases h
  hsOp := fun _ => rfl
  sendCallOk := fun h => by cases h
  recvCallOk := fun h => by cases h
  ackInFlight := fun h => by cases h
  attemptsLe := fun _ => by show 1 ≤ 250; decide
  attempting := fun _ => .inl ⟨rfl, Nat.le_refl 1⟩
  checking := fun h => by cases h

theorem witness_DecodeOfEncodeIsTheInstruction :
    Instr.wf layout (.writeOtpRegister 0x01 0x88 0x4433 [0xDE]) = true ∧
      Instr.wf layout (.frameHeader 0 0xFFFF 0 (List.replicate 65535 0x00) 0) = true :=
  ⟨by decide, by rw [Instr.wf, List.length_replicate]; rfl⟩

theorem witness_DecodedBytesAreTheEncoding :
    Sys2Proof.decode layout .cmd8 [0x21] = .ok .hsSkip ∧ Sys2Proof.decode layout .hsByte [0xAA] = .ok .start ∧
      Sys2Proof.decode layout (.data .rawHdr) [0x52, 0, 0, 0, 0, 0x40, 0xBD] = .ok (.frameHeader 0 0 0 [] 0x40BD) ∧
      Sys2Proof.decode layout (.data .wireCmd) [0x11, 0x01, 0x88, 0x33, 0x44, 0x00] =
        .ok (.writeOtpRegister 0x01 0x88 0x4433 []) ∧
      Sys2Proof.decode layout (.data .wireCmd) ([0x12, 0x01, 0xFF, 0xFF] ++ List.replicate 64 0x00) =
        .ok (.writeOtpKey 0x01 0xFF 0xFF (List.replicate 64 0x00)) :=
  ⟨rfl, rfl, rfl, rfl, rfl⟩

/-- The bounds of each reserved range, and the codes on either side. -/
theorem witness_ReservedCodesAreExactlyTheUnlisted :
    ([0x06, 0x07, 0x0C, 0x0F, 0x15, 0x1F, 0x22, 0xFF] : List Byte).map decodeCmd =
        ([0x06, 0x07, 0x0C, 0x0F, 0x15, 0x1F, 0x22, 0xFF] : List Byte).map (fun v => .error (.reservedOp v)) ∧
      ([0x05, 0x08, 0x0B, 0x10, 0x14, 0x20, 0x21] : List Byte).map decodeCmd =
        [.ok .verify, .ok .sum8, .ok .crc16, .ok .send, .ok .flushAll, .ok .hsStart, .ok .hsSkip] := ⟨rfl, rfl⟩

theorem witness_TransactionWordsRoundTrip :
    decodeAccess 0x1FFFFFF = some (.wr 0xFFFF 0xFF) ∧ decodeAccess 0x0FFFF00 = some (.rd 0xFFFF) ∧
      decodeAccess 0x0000001 = none := by decide

theorem witness_StepRunsTheDecodedInstruction :
    (BlockTurn (loaded 0x0B []) ∧ (loaded 0x0B []).phase ≠ .ready ∧ decodeCmd (loaded 0x0B []).op = .ok .crc16) ∧
      (BlockTurn (loaded 0x06 []) ∧ (loaded 0x06 []).phase ≠ .ready ∧ (loaded 0x06 []).op ∉ operationCodes) ∧
      (BlockTurn State.reset ∧ State.reset.phase = .ready) ∧
      { State.reset with events := [.load .wireSym [0xC0]] }.events = .load .wireSym [0xC0] :: [] ∧
      Sys2Proof.decode Config.wireLayout (.data .wireSym) [0xC0] = .ok .delim :=
  ⟨⟨.inl rfl, by decide, rfl⟩, ⟨.inl rfl, by decide, by decide⟩, ⟨.inl rfl, rfl⟩, rfl, rfl⟩

theorem witness_PlacedInstructionRunsNext :
    Instr.format .crc16 = .cmd8 ∧
      (BlockTurn (shaking .hsWrite .idle 1 []) ∧ (shaking .hsWrite .idle 1 []).op = 0x20 ∧
        (shaking .hsWrite .idle 1 []).phase = .hsWrite) ∧
      (BlockTurn (shaking .hsRead .idle 1 [.bytes [0x55]]) ∧ (shaking .hsRead .idle 1 [.bytes [0x55]]).op = 0x20 ∧
        (shaking .hsRead .idle 1 [.bytes [0x55]]).phase = .hsRead ∧
        nextAnswer (shaking .hsRead .idle 1 [.bytes [0x55]]) = .bytes [0x55] ∧ [(0x55 : Byte)].take 1 = [0x55]) ∧
      (nextAnswer (shaking .hsRead .ackReceived 2 [.bytes [0x6A]]) = .bytes [0x6A] ∧
        [(0x6A : Byte)].take 1 = [0x6A]) ∧
      Instr.format (.readRegister 0) = .data .wireCmd ∧ Instr.wf Config.wireLayout (.readRegister 0) = true :=
  ⟨rfl, ⟨.inl rfl, rfl, rfl⟩, ⟨.inl rfl, rfl, rfl, rfl, rfl⟩, ⟨rfl, rfl⟩, rfl, rfl⟩

theorem witness_ResetLeavesTheResetValues :
    ResetNext { shaking .hsRead .ackReceived 2 [] with events := [.reset] } := ⟨[], rfl⟩

theorem witness_CmdWriteAcceptsOrIsDropped :
    ({ State.reset with events := [.write 0x0000 [0x0B]] }.events = .write 0x0000 [0x0B] :: [] ∧
      State.reset.busy = false) ∧
      ({ loaded 0x0B [] with events := [.write 0x0000 [0x08]] }.events = .write 0x0000 [0x08] :: [] ∧
        (loaded 0x0B []).busy = true) := ⟨⟨rfl, rfl⟩, rfl, rfl⟩

/-- At rest: the block's turn with nothing in flight, and an accepted CMD write. -/
theorem witness_CompletionFields :
    (State.reset.phase = .ready ∧ (∃ t, step State.reset = .next t) ∧ ¬ ResetNext State.reset) ∧
      ∃ t, step { State.reset with events := [.write 0x0000 [0x0B]] } = .next t :=
  ⟨⟨rfl, ⟨_, rfl⟩, fun ⟨_, h⟩ => by cases h⟩, _, rfl⟩

theorem witness_EveryEndSetsDoneAndErr :
    ∃ t, step (loaded 0x00 []) = .next t ∧ (loaded 0x00 []).phase ≠ .ready ∧ t.phase = .ready ∧
      ¬ ResetNext (loaded 0x00 []) :=
  ⟨_, rfl, by decide, rfl, fun ⟨_, h⟩ => by cases h⟩

theorem witness_ReservedCodeEndsWithBadOp :
    ((0x22 : Byte) ∉ operationCodes ∧ { State.reset with events := [.write 0x0000 [0x22]] }.events =
      .write 0x0000 [0x22] :: [] ∧ State.reset.busy = false) ∧
    BlockTurn (loaded 0x22 []) ∧ (loaded 0x22 []).phase = .exec ∧ (loaded 0x22 []).op ∉ operationCodes :=
  ⟨⟨by decide, rfl, rfl⟩, .inl rfl, rfl, by decide⟩

theorem witness_OvrIsStickyAndTheBlockLeavesIt :
    (∃ t, step { State.reset with ovr := true, events := [.write 0x0001 [0x08]] } = .next t ∧ t.ovr = false) ∧
      (∃ t, step { State.reset with ovr := true, events := [.reset] } = .next t ∧ t.ovr = false) ∧
      BlockTurn (loaded 0x00 []) ∧ ∃ t, step (loaded 0x00 []) = .next t :=
  ⟨⟨_, rfl, rfl⟩, ⟨_, rfl, rfl⟩, .inl rfl, _, rfl⟩

/-- The first and the last guarded register, and the first and the last byte of IN_BUF. -/
theorem witness_GuardedWritesAreDroppedWhileBusy :
    (loaded 0x0B []).cfg.wf ∧ (loaded 0x0B []).busy = true ∧
      (0x0000 : Half).toNat ∈ [0x00, 0x03, 0x04, 0x08, 0x09, 0x0A, 0x0C, 0x0D, 0x0E, 0x0F, 0x10, 0x11] ∧
      (0x0011 : Half).toNat ∈ [0x00, 0x03, 0x04, 0x08, 0x09, 0x0A, 0x0C, 0x0D, 0x0E, 0x0F, 0x10, 0x11] ∧
      (0x4000 ≤ (0x4000 : Half).toNat ∧ (0x4000 : Half).toNat < 0x4000 + 2048) ∧
      (0x4000 ≤ (0x47FF : Half).toNat ∧ (0x47FF : Half).toNat < 0x4000 + 2048) := by decide

theorem witness_RegisterWritesStore :
    (0x0002 : Half) ∈ ([0x0002, 0x0005, 0x0006, 0x0007, 0x0012, 0x0013, 0x0014, 0x0015, 0x0016, 0x0017, 0x0018,
      0x0019] : List Half) ∧ State.reset.busy = false := by decide

/-- The bounds of each unmapped range, and the first and the last byte of each buffer, unwritten. -/
theorem witness_UnmappedAddressesReadZero :
    State.reset.cfg.wf ∧ (0x000B : Half).toNat = 0x000B ∧
      (0x001A ≤ (0x001A : Half).toNat ∧ (0x3FFF : Half).toNat < 0x4000) ∧
      (0x4000 + 2048 ≤ (0x4800 : Half).toNat ∧ (0x7FFF : Half).toNat < 0x8000) ∧
      0x8000 + 2048 ≤ (0x8800 : Half).toNat ∧ 0x8000 + 2048 ≤ (0xFFFF : Half).toNat ∧
      ({ State.reset with events := [.read 0x000B 1] }.events = .read 0x000B 1 :: [] ∧
        { State.reset with events := [.write 0x3FFF [0x55]] }.events = .write 0x3FFF [0x55] :: []) ∧
      (2047 < State.reset.cfg.bufDepth ∧ memGet State.reset.inBuf 2047 = none ∧ memGet State.reset.outBuf 2047 = none ∧
        { State.reset with events := [.read (inAddr 2047) 1] }.events = .read (inAddr 2047) 1 :: [] ∧
        { State.reset with events := [.read (outAddr 0) 1] }.events = .read (outAddr 0) 1 :: []) ∧
      State.reset.busy = false := by decide

theorem witness_BufferBytesReadBack :
    State.reset.cfg.wf ∧ 2047 < State.reset.cfg.bufDepth ∧ State.reset.busy = false ∧ (0x0010 : Half) ≠ inAddr 2047 := by
  decide

theorem witness_AccessSizeAndReadSideEffects :
    (2 ≠ 1 ∧ 0 ≠ 1) ∧ (([] : List Byte).length ≠ 1 ∧ [(0x00 : Byte), 0x01].length ≠ 1) ∧
      { State.reset with events := [.read 0x0008 1] }.events = .read 0x0008 1 :: [] ∧
      hostRead 0x0008 { State.reset with events := [.read 0x0008 1] } = some 0xFA ∧
      { State.reset with events := [.write 0x0004 [0x05]] }.events = .write 0x0004 [0x05] :: [] := by decide

theorem witness_LdinIsItsExpansion :
    State.reset.cfg.wf ∧ (loaded 0x00 []).cfg.wf ∧ (List.replicate 0x4000 (0x00 : Byte)).length ≤ 0x4000 :=
  ⟨by decide, by decide, by rw [List.length_replicate]⟩

theorem witness_ChecksumOperationsSetResult :
    HoldsInput (loaded 0x08 [0x04, 0xC0, 0xDB, 0x01]) [0x04, 0xC0, 0xDB, 0x01] ∧ HoldsInput (loaded 0x01 []) [] :=
  ⟨holdsInput_loaded_four 0x08, holdsInput_loaded_nil⟩

theorem witness_WireDecodeInvertsWireEncode :
    wireDecode [0xC0, 0xC0, 0xC0] = .ok [0xC0] ∧ wireDecode [0xC0, 0xC0] = .ok [] := ⟨rfl, rfl⟩

theorem witness_WireFrameLengthBounds :
    1 ≤ [(0x52 : Byte)].length ∧ (List.replicate 1023 (0xC0 : Byte)).length ≤ 1023 ∧
      (List.replicate 1016 (0xC0 : Byte)).length ≤ 1016 :=
  ⟨by decide, by rw [List.length_replicate], by rw [List.length_replicate]⟩

theorem witness_EncodeAppendsOneToken : [(0xC0 : Byte)] ≠ [] := by decide

theorem witness_DecodeErrorsInOrder :
    [(0xC0 : Byte), 0xDB, 0xDC] ≠ [] ∧
      wireDecode (0xC0 :: ([0xC0, 0xDB, 0xDC] ++ [0xC0])) = .ok [0xC0, 0xC0] ∧ (0x00 : Byte) ≠ 0xDC ∧ (0x00 : Byte) ≠ 0xDD :=
  ⟨by decide, rfl, by decide, by decide⟩

theorem witness_VerifyChecksTheFrame :
    (List.replicate 6 (0x00 : Byte)).length < 7 ∧ (List.replicate 7 (0x00 : Byte)).length = 0 + 7 ∧
      (List.replicate 65535 (0x00 : Byte)).length ≤ 65535 :=
  ⟨by decide, by decide, by rw [List.length_replicate]⟩

/-- BUILD at the bound: nine bytes fill a buffer of 16, ten overflow it (V-BLD-15). -/
theorem witness_BuildWritesTheRawFrame :
    (small.wf ∧ HoldsInput { loaded 0x01 (List.replicate 9 0) with cfg := small } (List.replicate 9 0) ∧
      (List.replicate 9 (0 : Byte)).length + 7 ≤ small.bufDepth) ∧
      (HoldsInput { loaded 0x01 (List.replicate 10 0) with cfg := small } (List.replicate 10 0) ∧
        small.bufDepth < (List.replicate 10 (0 : Byte)).length + 7) :=
  ⟨⟨by decide, ⟨rfl, by decide, by simp only [loaded]; decide⟩, by decide⟩,
    ⟨rfl, by decide, by simp only [loaded]; decide⟩, by decide⟩

/-- ENCODE and FRAME that fit, and ENCODE that overflows (V-ENC-11). -/
theorem witness_EncodeAndFrameWriteTheWireFrame :
    HoldsInput (loaded 0x02 [0x04, 0xC0, 0xDB, 0x01]) [0x04, 0xC0, 0xDB, 0x01] ∧
      (wireEncode [0x04, 0xC0, 0xDB, 0x01]).length ≤ 2048 ∧
      (wireEncode (buildRaw .twos 0x00 [0x04, 0xC0, 0xDB, 0x01])).length ≤ 2048 ∧
      HoldsInput { loaded 0x02 (0x52 :: List.replicate 7 0xC0) with cfg := small } (0x52 :: List.replicate 7 0xC0) ∧
      small.bufDepth < (wireEncode (0x52 :: List.replicate 7 0xC0)).length :=
  ⟨holdsInput_loaded_four 0x02, by decide, by decide, ⟨rfl, by decide, by simp only [loaded]; decide⟩, by decide⟩

theorem witness_DecodeCommitsAndOptionallyVerifies :
    (HoldsInput (loaded 0x04 [0x04, 0xC0, 0xDB, 0x01]) [0x04, 0xC0, 0xDB, 0x01] ∧
      wireDecode [0x04, 0xC0, 0xDB, 0x01] = .error .decDelim) ∧
      (HoldsInput { loaded 0x04 [0xC0, 0x53, 0x00, 0xC0] with verifyEn := true } [0xC0, 0x53, 0x00, 0xC0] ∧
        wireDecode [0xC0, 0x53, 0x00, 0xC0] = .ok [0x53, 0x00]) :=
  ⟨⟨holdsInput_loaded_four 0x04, rfl⟩, ⟨rfl, by show 4 ≤ 2048; decide, by simp only [loaded]; decide⟩, rfl⟩

theorem witness_VerifySetsVflags : HoldsInput (loaded 0x05 [0x04, 0xC0, 0xDB, 0x01]) [0x04, 0xC0, 0xDB, 0x01] :=
  holdsInput_loaded_four 0x05

theorem witness_InputChecksComeFirst :
    ({ loaded 0x01 [] with inLen := 0x0801 }.cfg.bufDepth < { loaded 0x01 [] with inLen := 0x0801 }.inLen.toNat) ∧
      ({ loaded 0x01 [] with inLen := 0x0800 }.inLen.toNat ≤ { loaded 0x01 [] with inLen := 0x0800 }.cfg.bufDepth ∧
        2047 < { loaded 0x01 [] with inLen := 0x0800 }.inLen.toNat ∧
        memGet { loaded 0x01 [] with inLen := 0x0800 }.inBuf 2047 = none) := by decide

theorem witness_SendAndRecvAreGated : (loaded 0x10 []).phase = .exec ∧ (loaded 0x10 []).hsState ≠ .ispReady := by decide

theorem holdsOutput_linked (p : Phase) (answers : List Answer) :
    HoldsOutput (linked 0x10 p [0xC0, 0xC0] answers) [0xC0, 0xC0] := ⟨rfl, by simp only [linked]; decide⟩

theorem witness_SendTransmitsTheOutput :
    (HoldsOutput (linked 0x10 .exec [0xC0, 0xC0] []) [0xC0, 0xC0] ∧ (linked 0x10 .exec [0xC0, 0xC0] []).phase = .exec ∧
      (linked 0x10 .exec [0xC0, 0xC0] []).hsState = .ispReady) ∧
      HoldsOutput (linked 0x10 .exec [] []) [] ∧
      (HoldsOutput (linked 0x10 .tCall [0xC0, 0xC0] [.bytes []]) [0xC0, 0xC0] ∧
        nextAnswer (linked 0x10 .tCall [0xC0, 0xC0] [.bytes []]) = .bytes []) ∧
      (HoldsOutput (linked 0x10 .tCall [0xC0, 0xC0] [.fail]) [0xC0, 0xC0] ∧
        nextAnswer (linked 0x10 .tCall [0xC0, 0xC0] [.fail]) = .fail) :=
  ⟨⟨holdsOutput_linked _ _, rfl, rfl⟩, ⟨rfl, by simp⟩, ⟨holdsOutput_linked _ _, rfl⟩, holdsOutput_linked _ _, rfl⟩

/-- The bounds of RX_REQ: 0, 1, BUF_DEPTH and BUF_DEPTH + 1. -/
theorem witness_RecvStoresTheAnswer :
    ((linked 0x11 .exec [] []).cfg.wf ∧ (linked 0x11 .exec [] []).phase = .exec ∧
      (linked 0x11 .exec [] []).hsState = .ispReady) ∧
      2048 < (0x0801 : Half).toNat ∧ (linked 0x11 .exec [] []).rxReq = 0 ∧ ((0x0001 : Half) ≠ 0 ∧ (0x0800 : Half).toNat ≤ 2048) ∧
      nextAnswer (linked 0x11 .tCall [] [.bytes [0xC0]]) = .bytes [0xC0] ∧
      nextAnswer (linked 0x11 .tCall [] [.fail]) = .fail := by decide

theorem witness_FlushCallsResetTheBuffers :
    (linked 0x14 .tCall [] [.bytes [], .bytes []]).phase = .tCall ∧
      nextAnswer (linked 0x14 .tCall [] [.bytes [], .bytes []]) = .bytes [] ∧
      nextAnswer (dropAnswer (linked 0x14 .tCall [] [.bytes [], .bytes []])) = .bytes [] ∧
      nextAnswer (dropAnswer (linked 0x14 .tCall [] [.bytes [], .fail])) = .fail ∧
      nextAnswer (linked 0x14 .tCall [] [.fail]) = .fail := by decide

theorem witness_TransportOperationsKeepTheOutput :
    Instr.send ∈ [Instr.send, .recv, .flushRx, .flushTx, .flushAll] ∧
      ∃ t, exec .send (linked 0x10 .tCall [0xC0, 0xC0] [.bytes []]) = .next t := ⟨by decide, _, rfl⟩

theorem witness_HsStartStepSequence :
    (shaking .exec .idle 0 []).phase = .exec ∧ (shaking .hsCheck .idle 250 []).phase = .hsCheck ∧
      (shaking .hsResetIn .idle 1 []).phase = .hsResetIn ∧ (shaking .hsWrite .ackReceived 2 []).phase = .hsWrite ∧
      ((shaking .hsRead .idle 1 [.fail]).phase = .hsRead ∧ nextAnswer (shaking .hsRead .idle 1 [.fail]) = .fail) ∧
      nextAnswer (shaking .hsRead .idle 1 [.bytes [0x55]]) = .bytes [0x55] := by decide

theorem witness_IdleAttemptMakesThreeCalls :
    let s := shaking .hsCheck .idle 0 [.bytes [], .bytes [], .bytes [0x55]]
    s.events = [] ∧ s.op = 0x20 ∧ s.phase = .hsCheck ∧ s.hsState = .idle ∧ s.hsAtt ≠ s.hsMax ∧
      nextAnswer s = .bytes [] ∧ nextAnswer (dropAnswer s) = .bytes [] ∧
      nextAnswer (dropAnswer (dropAnswer s)) = .bytes [0x55] := by decide

theorem witness_AckAttemptMakesItsCalls :
    let s := shaking .hsCheck .ackReceived 1 [.bytes [], .bytes [0x6A]]
    let u := { shaking .hsCheck .ackReceived 1 [.bytes [], .bytes [], .bytes [0x6A]] with
      cfg := { Config.standard with hsFlushAck := true } }
    (s.events = [] ∧ s.op = 0x20 ∧ s.phase = .hsCheck ∧ s.hsState = .ackReceived ∧ s.hsAtt ≠ s.hsMax ∧
      nextAnswer s = .bytes [] ∧ nextAnswer (dropAnswer s) = .bytes [0x6A] ∧ s.cfg.hsFlushAck = false) ∧
      u.events = [] ∧ u.op = 0x20 ∧ u.phase = .hsCheck ∧ u.hsState = .ackReceived ∧ u.hsAtt ≠ u.hsMax ∧
        nextAnswer u = .bytes [] ∧ nextAnswer (dropAnswer u) = .bytes [] ∧ u.cfg.hsFlushAck = true ∧
        nextAnswer (dropAnswer (dropAnswer u)) = .bytes [0x6A] := by decide

theorem witness_HandshakeOperationsNeedIdle :
    ((loaded 0x21 []).phase = .exec ∧ (loaded 0x21 []).hsState = .idle) ∧
      (linked 0x21 .exec [] []).phase = .exec ∧ (linked 0x21 .exec [] []).hsState ≠ .idle := by decide

theorem witness_HandshakeBytesSendAndReceive : nextAnswer (shaking .hsWrite .idle 1 [.bytes []]) = .bytes [] := rfl

theorem witness_HandshakeEndsReadyOrFailed :
    let s := shaking .exec .idle 0 [.bytes [], .bytes [], .bytes [0x55], .bytes [], .bytes [0x6A]]
    s.events = [] ∧ s.op = 0x20 ∧ s.phase = .exec ∧ s.hsState = .idle := by decide

theorem witness_HandshakeTransitionsAreExactlyTheListed :
    Inv (shaking .hsRead .idle 1 [.bytes [0x55]]) ∧
      ∃ t, step (shaking .hsRead .idle 1 [.bytes [0x55]]) = .next t ∧
        t.hsState ≠ (shaking .hsRead .idle 1 [.bytes [0x55]]).hsState :=
  ⟨inv_shaking _, _, rfl, by decide⟩

/-- A symbol, and a raw frame with its operands. -/
theorem witness_FrameSymbolsAreLoaded :
    (Instr.delim = .delim ∧ [(0xC0 : Byte)] = [0xC0]) ∧
      (∃ (seq chk : Byte) (len crc : Half) (payload : List Byte),
        Instr.frameHeader 0x01 0x0001 0xFE [0x04] 0x18EF = .frameHeader seq len chk payload crc ∧
          [(0x52 : Byte), 0x01, 0x00, 0x01, 0xFE, 0x04, 0x18, 0xEF] =
            [0x52, seq, BitVec.ofNat 8 (len.toNat / 256), BitVec.ofNat 8 (len.toNat % 256), chk] ++ payload ++
              [BitVec.ofNat 8 (crc.toNat / 256), BitVec.ofNat 8 (crc.toNat % 256)]) ∧
      State.reset.busy = false ∧ (loaded 0x00 []).busy = true :=
  ⟨⟨rfl, rfl⟩, ⟨0x01, 0xFE, 0x0001, 0x18EF, [0x04], rfl, by decide⟩, rfl, rfl⟩

/-- A command of each shape: with words, with no operand, with a CRC-8, with fixed bytes, with an offset. -/
theorem witness_WireCommandPayloadsAreLoaded :
    (∃ a : Word, Instr.readRegister 0x40003000 = .readRegister a ∧
      [(0x01 : Byte), 0x00, 0x30, 0x00, 0x40] = 0x01 :: le32 a) ∧
      (∃ a v : Word, Instr.writeRegister 0x40003000 0xDEADBEEF = .writeRegister a v ∧
        [(0x02 : Byte), 0x00, 0x30, 0x00, 0x40, 0xEF, 0xBE, 0xAD, 0xDE] = 0x02 :: (le32 a ++ le32 v)) ∧
      (Instr.getFlashId = .getFlashId ∧ [(0x04 : Byte)] = [0x04]) ∧
      (∃ before kv, Instr.legacyKeyWrite [0x11] [0xDE, 0xAD, 0xBE, 0xEF] = .legacyKeyWrite before kv ∧
        [(0x09 : Byte), 0x11, 0xDE, 0xAD, 0xBE, 0xEF, 0xA5] = 0x09 :: (before ++ kv ++ [crc8 kv])) ∧
      (∃ r sig, Instr.sendChallengeResponse [0x66] [0x77] = .sendChallengeResponse r sig ∧
        [(0x10 : Byte), 0x52, 0x00, 0x00, 0x01, 0x66, 0x77] = [0x10, 0x52, 0x00, 0x00, 0x01] ++ r ++ sig) ∧
      (∃ option chk off key, off.length = Config.wireLayout.otpKey.offsetBytes ∧
        Instr.writeOtpKey 0x01 0x02
          (natOfBytes (List.replicate Config.wireLayout.otpKey.offsetBytes 0x33)) [0x44] =
            .writeOtpKey option chk (natOfBytes off) key ∧
        [(0x12 : Byte), 0x01, 0x02] ++ List.replicate Config.wireLayout.otpKey.offsetBytes 0x33 ++ [0x44] =
          [0x12, option, chk] ++ off ++ key) ∧
      State.reset.busy = false ∧ (loaded 0x00 []).busy = true :=
  ⟨⟨0x40003000, rfl, by decide⟩, ⟨0x40003000, 0xDEADBEEF, rfl, by decide⟩, ⟨rfl, rfl⟩, ⟨[0x11], _, rfl, by decide⟩,
    ⟨[0x66], _, rfl, rfl⟩, ⟨0x01, 0x02, _, [0x44], List.length_replicate, rfl, rfl⟩, rfl, rfl⟩

theorem witness_EveryStepKeepsTheInvariant :
    Inv (shaking .hsRead .idle 1 [.bytes [0x55]]) ∧ ∃ t, step (shaking .hsRead .idle 1 [.bytes [0x55]]) = .next t :=
  ⟨inv_shaking _, _, rfl⟩

theorem witness_BlockFaultsOnlyOnUnwrittenInput : Inv (accept 0x01 State.reset) ∧ BlockTurn (accept 0x01 State.reset) :=
  ⟨inv_accepted _, .inl rfl⟩

theorem witness_OperandsHoldWhileInFlight :
    Inv (shaking .hsRead .idle 1 [.bytes []]) ∧ (shaking .hsRead .idle 1 [.bytes []]).phase ≠ .ready ∧
      (∃ t, step (shaking .hsRead .idle 1 [.bytes []]) = .next t) ∧ ¬ ResetNext (shaking .hsRead .idle 1 [.bytes []]) :=
  ⟨inv_shaking _, by decide, ⟨_, rfl⟩, fun ⟨_, h⟩ => by cases h⟩

theorem witness_OutputChangesOnlyAtCodecCompletion :
    (∃ t, step (loaded 0x02 [0xC0]) = .next t ∧ t.outLen ≠ (loaded 0x02 [0xC0]).outLen) ∧
      ¬ ResetNext (loaded 0x02 [0xC0]) := ⟨⟨_, rfl, by decide⟩, fun ⟨_, h⟩ => by cases h⟩

theorem witness_ResultVflagsAndAttemptsHaveTheirWriters :
    (∃ t, step (loaded 0x08 [0xC0]) = .next t ∧ t.result ≠ (loaded 0x08 [0xC0]).result) ∧
      ¬ ResetNext (loaded 0x08 [0xC0]) := ⟨⟨_, rfl, by decide⟩, fun ⟨_, h⟩ => by cases h⟩

theorem witness_TransportCallsAreLegalAndOnlyAppended :
    Inv (shaking .hsRead .idle 1 [.fail]) ∧
      ∃ t, step (shaking .hsRead .idle 1 [.fail]) = .next t ∧ t.history = [.read 1 20 none] :=
  ⟨inv_shaking _, _, rfl, rfl⟩

theorem witness_EveryOperationEndsWithinItsBound :
    Inv (accept 0x12 State.reset) ∧ (accept 0x12 State.reset).events = [] ∧ (accept 0x12 State.reset).phase = .exec :=
  ⟨inv_accepted _, rfl, rfl⟩

theorem witness_FailedIsStickyUntilReset :
    let s := { loaded 0x10 [] with hsState := .failed }
    s.hsState = .failed ∧ (∃ t, step s = .next t) ∧ ¬ ResetNext s ∧ (s.op = 0x10 ∨ s.op = 0x11) :=
  ⟨rfl, ⟨_, rfl⟩, (fun ⟨_, h⟩ => by cases h), .inl rfl⟩

end Sys2Proof.Tests
end

section
/-! The invariant of the block is kept by every step (O53). `DataInv` is the part of it that speaks of the buffers and
VFLAGS; the rest is control, and three lemmas say when it holds again: at a completion, at a handshake step, and at
rest. -/

namespace Sys2Proof.Machine

/-- The part of the invariant that does not depend on where the operation in flight stands: `Inv.data` and
`DataInv.complete` tie it to `Inv`. -/
structure DataInv (s : State) : Prop where
  cfgWf : s.cfg.wf
  inWf : s.inBuf.wf
  outWf : s.outBuf.wf
  inBound : ∀ c ∈ s.inBuf, c.1 < s.cfg.bufDepth
  outBound : ∀ c ∈ s.outBuf, c.1 < s.cfg.bufDepth
  outLenLe : s.outLen.toNat ≤ s.cfg.bufDepth
  outWritten : ∀ j, j < s.outLen.toNat → (memGet s.outBuf j).isSome
  allOk : s.vflags.allOk =
    (s.vflags.hdrOk && s.vflags.hchkOk && s.vflags.lenOk && s.vflags.crcOk && s.vflags.sizeOk)

theorem Inv.data {s : State} (h : Inv s) : DataInv s := { h with }

/-! ### What the invariant says of a phase -/

theorem Inv.busy_of_inFlight {s : State} (h : Inv s) (hp : s.phase ≠ .ready) : s.busy = true := by
  rw [h.busyPhase, decide_eq_true hp]

theorem Inv.ready_of_not_busy {s : State} (h : Inv s) (hb : s.busy = false) : s.phase = .ready :=
  not_not.1 fun hp => by simp [h.busy_of_inFlight hp] at hb

/-- The link is half-way only in a handshake (42_handshake.md R180). -/
theorem Inv.hsState_ne_ack {s : State} (h : Inv s) (hp : inHandshake s.phase = false) : s.hsState ≠ .ackReceived :=
  fun ha => by simp [(h.ackInFlight ha).1] at hp

theorem Inv.hsState_ne_ack_of_op {s : State} (h : Inv s) (hop : s.op ≠ 0x20) : s.hsState ≠ .ackReceived :=
  fun ha => hop (h.hsOp (h.ackInFlight ha).1)

theorem Inv.hsState_ne_ack_of_mem {s : State} (h : Inv s) {ops : List Byte} (hop : s.op ∈ ops) (hn : 0x20 ∉ ops) :
    s.hsState ≠ .ackReceived :=
  h.hsState_ne_ack_of_op fun he => hn (he ▸ hop)

/-! ### The data part -/

/-- A committed output keeps the data part (41_frame_codec.md R141). -/
theorem DataInv.storeOutput {s : State} (h : DataInv s) {o : List Byte} {f : VFlags} (ho : o.length ≤ s.cfg.bufDepth)
    (hf : f.allOk = (f.hdrOk && f.hchkOk && f.lenOk && f.crcOk && f.sizeOk)) :
    DataInv { s with outBuf := storeBytes s.outBuf 0 o, outLen := BitVec.ofNat 16 o.length, vflags := f } := by
  have hlen : (BitVec.ofNat 16 o.length).toNat = o.length := by
    have := h.cfgWf.2
    simp only [BitVec.toNat_ofNat]; omega
  exact
    { h with
      outWf := storeBytes_wf h.outWf _ _
      outBound := fun c hc => (mem_storeBytes hc).elim (h.outBound c) fun hlt => by simp only; omega
      outLenLe := hlen.trans_le ho
      outWritten := fun j hj => by
        have hj : j < o.length := hj.trans_eq hlen
        simp [memGet_storeBytes, hj]
      allOk := hf }

/-- A received byte string keeps the data part (43_transport_ops.md R193). -/
theorem DataInv.storeInput {s : State} (h : DataInv s) {bs : List Byte} (hbs : bs.length ≤ s.cfg.bufDepth) :
    DataInv { s with inBuf := storeBytes s.inBuf 0 bs } :=
  { h with
    inWf := storeBytes_wf h.inWf _ _
    inBound := fun c hc => (mem_storeBytes hc).elim (h.inBound c) fun hlt => by simp only; omega }

/-! ### The control part -/

/-- A completion meets the invariant unless it leaves the link half-way (60_exceptions.md R240). -/
theorem DataInv.complete {s : State} {c : ErrCode} (h : DataInv s) (hs : s.hsState ≠ .ackReceived) :
    Inv (complete c s) :=
  { h with
    busyPhase := rfl
    running := nofun
    rested := fun _ => rfl
    callOp := nofun
    hsOp := nofun
    sendCallOk := nofun
    recvCallOk := nofun
    ackInFlight := fun ha => absurd ha hs
    attemptsLe := nofun
    attempting := nofun
    checking := nofun }

/-- A step of HS_START to one of its own phases keeps the invariant when its attempts are counted (42_handshake.md
R170, R173, R179). -/
theorem Inv.toHandshake {s : State} (h : Inv s) {p : Phase} {st : HsState} {att : Half} {calls : List Call}
    {a : List Answer} {d : Nat} (hp : s.phase ≠ .ready) (hop : s.op = 0x20) (hp' : inHandshake p = true)
    (hle : att.toNat ≤ s.hsMax.toNat) (hack : st = .ackReceived → att ≠ 0)
    (hatt : inAttempt p = true → (st = .idle ∧ 1 ≤ att.toNat) ∨ (st = .ackReceived ∧ 2 ≤ att.toNat))
    (hchk : p = .hsCheck → st ≠ .failed ∧ (st = .ispReady → 2 ≤ att.toNat)) :
    Inv { s with history := calls, answers := a, drawn := d, hsState := st, hsAtt := att, phase := p } := by
  have hready : p ≠ .ready := by rintro rfl; cases hp'
  have hcall : p ≠ .tCall := by rintro rfl; cases hp'
  exact
    { h with
      busyPhase := (h.busy_of_inFlight hp).trans (decide_eq_true hready).symm
      callOp := fun hc => absurd hc hcall
      hsOp := fun _ => hop
      sendCallOk := fun hc => absurd hc hcall
      recvCallOk := fun hc => absurd hc hcall
      ackInFlight := fun ha => ⟨hp', hack ha⟩
      attemptsLe := fun _ => hle
      attempting := hatt
      checking := hchk }

/-- The next attempt is counted without overflow and finds IDLE or ACK_RECEIVED (42_handshake.md R173, R177). -/
theorem Inv.hsAttempt {s : State} (h : Inv s) {p : Phase} (hp : s.phase = .hsCheck) (hop : s.op = 0x20)
    (hs : s.hsState ≠ .ispReady) (hatt : s.hsAtt ≠ s.hsMax) (hp' : p = .hsResetIn ∨ p = .hsWrite) :
    Inv { s with hsAtt := s.hsAtt + 1, phase := p } := by
  have hle := h.attemptsLe (by rw [hp]; rfl)
  have hne : s.hsAtt.toNat ≠ s.hsMax.toNat := fun he => hatt (BitVec.eq_of_toNat_eq he)
  have hnext : (s.hsAtt + 1).toNat = s.hsAtt.toNat + 1 := by
    have := s.hsMax.isLt
    rw [BitVec.toNat_add, show (1 : Half).toNat = 1 from rfl]; omega
  have hack : s.hsState = .ackReceived → 2 ≤ (s.hsAtt + 1).toNat := fun ha => by
    have : s.hsAtt.toNat ≠ 0 := fun h0 => (h.ackInFlight ha).2 (BitVec.eq_of_toNat_eq h0)
    omega
  refine h.toHandshake (by simp [hp]) hop (by rcases hp' with rfl | rfl <;> rfl) (by omega) ?_ ?_ ?_
  · intro ha h0
    have := hack ha
    rw [h0] at this
    cases this
  · intro _
    cases hst : s.hsState with
    | idle => exact .inl ⟨rfl, by omega⟩
    | ackReceived => exact .inr ⟨rfl, hack hst⟩
    | ispReady => exact absurd hst hs
    | failed => exact absurd hst (h.checking hp).1
  · rcases hp' with rfl | rfl <;> nofun

theorem inHandshake_of_inAttempt {p : Phase} (h : inAttempt p = true) : inHandshake p = true := by
  cases p <;> simp_all [inAttempt, inHandshake]

/-- An attempt goes on to its next phase with its state and count as they are (42_handshake.md R173). -/
theorem Inv.hsContinue {s : State} (h : Inv s) {p : Phase} {calls : List Call} {a : List Answer} {d : Nat}
    (hp : inAttempt s.phase = true) (hp' : inAttempt p = true) :
    Inv { s with history := calls, answers := a, drawn := d, phase := p } := by
  have hin := inHandshake_of_inAttempt hp
  have hready : s.phase ≠ .ready := fun he => by simp [he, inAttempt] at hp
  refine h.toHandshake hready (h.hsOp hin) (inHandshake_of_inAttempt hp') (h.attemptsLe hin)
    (fun ha => (h.ackInFlight ha).2) (fun _ => h.attempting hp) ?_
  rintro rfl
  cases hp'

/-- A reply advances IDLE after one attempt and ACK_RECEIVED after two (42_handshake.md R173 to R175). -/
theorem Inv.hsReply {s : State} (h : Inv s) (bs : List Byte) {calls : List Call} {a : List Answer} {d : Nat}
    (hp : s.phase = .hsRead) (hop : s.op = 0x20) :
    Inv { s with
      history := calls, answers := a, drawn := d, hsState := hsAdvance s.hsState bs, phase := .hsCheck } := by
  have hle := h.attemptsLe (by rw [hp]; rfl)
  have hatt := h.attempting (by rw [hp]; rfl)
  have hne : s.hsAtt ≠ 0 := fun h0 => by simp [h0] at hatt
  refine h.toHandshake (by simp [hp]) hop rfl hle (fun _ => hne) nofun fun _ => ?_
  rcases hatt with ⟨hst, -⟩ | ⟨hst, htwo⟩ <;> simp only [hst, hsAdvance]
  · split <;> simp
  · split <;> simp [htwo]

/-- A transport operation moves to its call when it is admitted (43_transport_ops.md R190 to R196). -/
theorem Inv.toCall {s : State} (h : Inv s) (hp : s.phase ≠ .ready) (hop : s.op ∈ transportCodes)
    (hsend : s.op = 0x10 → s.hsState = .ispReady ∧ s.outLen ≠ 0)
    (hrecv : s.op = 0x11 → s.hsState = .ispReady ∧ s.rxReq ≠ 0 ∧ s.rxReq.toNat ≤ s.cfg.bufDepth) :
    Inv { s with phase := .tCall } :=
  { h with
    busyPhase := h.busy_of_inFlight hp
    callOp := fun _ => hop
    hsOp := nofun
    sendCallOk := fun _ => hsend
    recvCallOk := fun _ => hrecv
    ackInFlight := fun ha => absurd ha (h.hsState_ne_ack_of_mem hop (by decide))
    attemptsLe := nofun
    attempting := nofun
    checking := nofun }

/-! ### The steps -/

/-- Every move of the block keeps the invariant: an end completes on data that keep their part of it, with the link not
half-way; any other move is one of the steps above. -/
theorem BlockMove.keeps_inv {s t : State} (hm : BlockMove s t) (h : Inv s) : Inv t := by
  cases hm with
  | rest => exact h
  | ends c hp hh =>
    refine h.data.complete fun ha => ?_
    rcases hh (h.hsOp (h.ackInFlight ha).1) with hp | hp | ⟨-, hs⟩
    · exact h.hsState_ne_ack (by rw [hp]; rfl) ha
    · exact h.hsState_ne_ack (by rw [hp]; rfl) ha
    · rw [hs] at ha; cases ha
  | output c o f hp hop ho hf =>
    have hf := hf.elim (fun he => he ▸ h.allOk) And.right
    exact (h.data.storeOutput ho hf).complete (h.hsState_ne_ack_of_mem hop (by decide))
  | flags c f hp hop hall =>
    exact DataInv.complete { h.data with allOk := hall } (h.hsState_ne_ack_of_op (by rw [hop]; decide))
  | result r hp hop =>
    exact DataInv.complete { h.data with } (h.hsState_ne_ack_of_mem hop (by decide))
  | recvNone hp hop =>
    exact DataInv.complete { h.data with } (h.hsState_ne_ack_of_op (by rw [hop]; decide))
  | toCall hp _ hop hsend hrecv => exact h.toCall hp hop hsend hrecv
  | called calls a d hp =>
    exact DataInv.complete { h.data with } (h.hsState_ne_ack (by rw [hp]; rfl))
  | received bs a d hp hop hlen =>
    obtain ⟨-, -, hreq⟩ := h.recvCallOk hp hop
    exact DataInv.complete { h.data.storeInput (hlen.trans hreq) with } (h.hsState_ne_ack (by rw [hp]; rfl))
  | failed calls a d => exact DataInv.complete { h.data with } nofun
  | hsBegin hp hop hs =>
    refine h.toHandshake (by rcases hp with hp | hp <;> simp [hp]) hop rfl (Nat.zero_le _) ?_ nofun ?_ <;> simp [hs]
  | hsTimeout => exact DataInv.complete { h.data with } nofun
  | hsAttempt p hp hop hs hatt hp' => exact h.hsAttempt hp hop hs hatt hp'
  | hsReset a d hp => exact h.hsContinue (by rw [hp]; rfl) rfl
  | hsSent a d hp => exact h.hsContinue (by rw [hp]; rfl) rfl
  | hsReplied bs a d hp hop => exact h.hsReply bs hp hop
  | skip => exact DataInv.complete { h.data with } nofun

/-- Taking the next event changes nothing the invariant speaks of. -/
theorem Inv.afterEvent {s : State} (h : Inv s) : Inv (afterEvent s) := { h with }

/-- A reset establishes the invariant anew for every allowed BUF_DEPTH (70_reset_and_hazards.md R260). -/
theorem inv_resetBlock {s : State} (h : s.cfg.wf) : Inv (resetBlock s) where
  cfgWf := h
  busyPhase := rfl
  inWf := .nil
  outWf := .nil
  inBound := nofun
  outBound := nofun
  outLenLe := Nat.zero_le _
  outWritten := fun _ hj => absurd hj (Nat.not_lt_zero _)
  running := nofun
  rested := fun _ => rfl
  allOk := rfl
  callOp := nofun
  hsOp := nofun
  sendCallOk := nofun
  recvCallOk := nofun
  ackInFlight := nofun
  attemptsLe := nofun
  attempting := nofun
  checking := nofun

/-- An acceptance at rest keeps the invariant (60_exceptions.md R239). -/
theorem Inv.accept {s : State} (h : Inv s) (v : Byte) (hb : s.busy = false) : Inv (accept v s) :=
  { h with
    busyPhase := rfl
    running := fun _ => ⟨rfl, rfl, rfl⟩
    rested := nofun
    callOp := nofun
    hsOp := nofun
    sendCallOk := nofun
    recvCallOk := nofun
    ackInFlight := fun ha => absurd ha (h.hsState_ne_ack (by rw [h.ready_of_not_busy hb]; rfl))
    attemptsLe := nofun
    attempting := nofun
    checking := nofun }

/-- At rest the host may change its own registers and IN_BUF (10_state.md R42, R47). -/
theorem Inv.hostChange {s : State} (h : Inv s) (hb : s.busy = false) {b : Bool} {sq tm : Byte}
    {mx rt rq il : Half} {m : Memory} {ev : List Event} (hwf : m.wf) (hbound : ∀ c ∈ m, c.1 < s.cfg.bufDepth) :
    Inv { s with
      verifyEn := b, seq := sq, hsTmo := tm, hsMax := mx, rxTmo := rt, rxReq := rq, inLen := il
      inBuf := m, events := ev } := by
  have hp := h.ready_of_not_busy hb
  exact
    { h with
      inWf := hwf
      inBound := hbound
      recvCallOk := fun hc => by rw [hp] at hc; cases hc
      attemptsLe := fun hc => by rw [hp] at hc; cases hc }

/-- Settles O53, case by case over what a step can do. -/
theorem everyStepKeepsTheInvariant : Obligations.EveryStepKeepsTheInvariant := by
  intro s t h hstep
  rcases step_shape hstep with ⟨-, hm⟩ | ⟨-, rfl⟩ | ⟨-, -, ⟨ev, rd, rfl⟩ | ⟨-, ev, rfl⟩ | ⟨v, rest, -, hb, rfl⟩ |
    ⟨v, rest, -, -, rfl⟩ | ⟨hb, b, sq, tm, mx, rt, rq, il, m, ev, hwf, hbound, rfl⟩⟩
  · exact hm.keeps_inv h.afterEvent
  · exact inv_resetBlock h.cfgWf
  · exact { h with }
  · exact { h with }
  · exact h.afterEvent.accept v hb
  · exact { h with }
  · exact h.hostChange hb (hwf h.inWf) (hbound h.inBound)

end Sys2Proof.Machine
end

section
/-! The writers of the state (10_state.md R30, R36 to R38, R43, R45, R47, R50): what a block step keeps, what a host step
keeps, and from these two what a step that changes a field must be (O14, O49, O55, O56, O57); and the invariant at
reset (O52). -/

namespace Sys2Proof.Machine

/-! ### What a block step keeps -/

/-- The fields that no block step writes: OVR, the latched `op`, the host's registers but IN_LEN, and the constants. -/
structure KeepsHostFields (s t : State) : Prop where
  ovr : t.ovr = s.ovr
  op : t.op = s.op
  verifyEn : t.verifyEn = s.verifyEn
  seq : t.seq = s.seq
  hsMax : t.hsMax = s.hsMax
  hsTmo : t.hsTmo = s.hsTmo
  rxTmo : t.rxTmo = s.rxTmo
  rxReq : t.rxReq = s.rxReq
  cfg : t.cfg = s.cfg

theorem BlockMove.keepsHostFields {s t : State} (hm : BlockMove s t) : KeepsHostFields s t := by
  cases hm <;> constructor <;> rfl

/-- Only RECV writes IN_BUF and IN_LEN, where it ends (43_transport_ops.md R193). -/
theorem BlockMove.input_eq_or_recv {s t : State} (hm : BlockMove s t) :
    (t.inBuf = s.inBuf ∧ t.inLen = s.inLen) ∨ s.op = 0x11 ∧ t.phase = .ready := by
  cases hm with
  | recvNone _ hop => exact .inr ⟨hop, rfl⟩
  | received _ _ _ _ hop => exact .inr ⟨hop, rfl⟩
  | _ => exact .inl ⟨rfl, rfl⟩

/-- Only BUILD, ENCODE, FRAME and DECODE write OUT_BUF and OUT_LEN, where they commit (41_frame_codec.md R141). -/
theorem BlockMove.output_eq_or_commit {s t : State} (hm : BlockMove s t) :
    (t.outBuf = s.outBuf ∧ t.outLen = s.outLen) ∨
      s.op ∈ [0x01, 0x02, 0x03, 0x04] ∧ s.phase ≠ .ready ∧ t.phase = .ready ∧
        (t.errcode = .none ∨ s.op = 0x04 ∧ t.errcode = .verify) := by
  cases hm with
  | output _ _ _ hp hop _ _ hc => exact .inr ⟨hop, hp, rfl, hc⟩
  | _ => exact .inl ⟨rfl, rfl⟩

/-- Only the checksum operations write RESULT, where they succeed (40_checksums.md R129). -/
theorem BlockMove.result_eq_or_checksum {s t : State} (hm : BlockMove s t) :
    t.result = s.result ∨ s.op ∈ [0x08, 0x09, 0x0A, 0x0B] ∧ t.errcode = .none := by
  cases hm with
  | result _ _ hop => exact .inr ⟨hop, rfl⟩
  | _ => exact .inl rfl

/-- Only DECODE and VERIFY write VFLAGS, where they do not end in an error of another kind (41_frame_codec.md R151 to
R154). -/
theorem BlockMove.vflags_eq_or_verified {s t : State} (hm : BlockMove s t) :
    t.vflags = s.vflags ∨ s.op ∈ [0x04, 0x05] ∧ (t.errcode = .none ∨ t.errcode = .verify) := by
  cases hm with
  | output _ _ _ _ _ _ hf hc =>
    exact hf.imp_right fun ⟨hop, _⟩ => ⟨by simp [hop], hc.imp_right And.right⟩
  | flags _ _ _ hop _ hc => exact .inr ⟨by simp [hop], hc⟩
  | _ => exact .inl rfl

/-- Only HS_START writes HS_ATT (42_handshake.md R173). -/
theorem BlockMove.hsAtt_eq_or_hsStart {s t : State} (hm : BlockMove s t) : t.hsAtt = s.hsAtt ∨ s.op = 0x20 := by
  cases hm with
  | hsBegin _ hop => exact .inr hop
  | hsAttempt _ _ hop => exact .inr hop
  | _ => exact .inl rfl

/-! ### What a host step keeps -/

/-- The fields that only the block's turn and a reset write (10_state.md R29, R30, R36 to R38, R43). -/
structure KeepsResults (s t : State) : Prop where
  hsState : t.hsState = s.hsState
  hsAtt : t.hsAtt = s.hsAtt
  outBuf : t.outBuf = s.outBuf
  outLen : t.outLen = s.outLen
  result : t.result = s.result
  vflags : t.vflags = s.vflags

theorem step_block_or_keepsResults {s t : State} (h : step s = .next t) (hr : ¬ ResetNext s) :
    (BlockTurn s ∧ BlockMove (afterEvent s) t) ∨ KeepsResults s t := by
  rcases step_shape h with hblock | ⟨hreset, -⟩ | ⟨-, -, ⟨_, _, rfl⟩ | ⟨-, _, rfl⟩ | ⟨_, _, -, -, rfl⟩ |
    ⟨_, _, -, -, rfl⟩ | ⟨-, _, _, _, _, _, _, _, _, _, -, -, rfl⟩⟩
  · exact .inl hblock
  · exact absurd hreset hr
  all_goals exact .inr ⟨rfl, rfl, rfl, rfl, rfl, rfl⟩

/-- While BUSY = 1 the host changes no operand: its guarded writes are dropped (10_state.md R47). -/
theorem step_block_or_keeps_of_busy {s t : State} (h : step s = .next t) (hr : ¬ ResetNext s) (hb : s.busy = true) :
    (BlockTurn s ∧ BlockMove (afterEvent s) t) ∨
      ∃ (o : Bool) (ev : List Event) (rd : List (Half × Byte)), t = { s with ovr := o, events := ev, reads := rd } := by
  rcases step_shape h with hblock | ⟨hreset, -⟩ | ⟨-, -, ⟨ev, rd, rfl⟩ | ⟨-, ev, rfl⟩ | ⟨_, _, -, hfree, -⟩ |
    ⟨_, _, -, -, rfl⟩ | ⟨hfree, -⟩⟩
  · exact .inl hblock
  · exact absurd hreset hr
  · exact .inr ⟨s.ovr, ev, rd, rfl⟩
  · exact .inr ⟨true, ev, s.reads, rfl⟩
  · rw [hb] at hfree; cases hfree
  · exact .inr ⟨false, s.events.tail, s.reads, rfl⟩
  · rw [hb] at hfree; cases hfree

/-! ### The handshake's state -/

/-- A reply changes the handshake's state only as 42_handshake.md R174 and R175 say. -/
theorem hsAdvance_change {st : HsState} {bs : List Byte} (h : hsAdvance st bs ≠ st) :
    (st = .idle ∧ bs = [ackByte] ∧ hsAdvance st bs = .ackReceived) ∨
      (st = .ackReceived ∧ bs = [ispReadyByte] ∧ hsAdvance st bs = .ispReady) := by
  cases st with
  | idle =>
    by_cases hbs : bs = [ackByte]
    · exact .inl ⟨rfl, hbs, by simp [hsAdvance, hbs]⟩
    · simp [hsAdvance, hbs] at h
  | ackReceived =>
    by_cases hbs : bs = [ispReadyByte]
    · exact .inr ⟨rfl, hbs, by simp [hsAdvance, hbs]⟩
    · simp [hsAdvance, hbs] at h
  | ispReady => exact absurd rfl h
  | failed => exact absurd rfl h

/-- A step that ends in a FAIL is one of an operation in flight, and its last call is the one that failed
(60_exceptions.md R236). -/
theorem FailsOf.last_failed {s : State} {calls : List Call} (h : FailsOf s calls) :
    s.phase ≠ .ready ∧ ∃ c, calls.getLast? = some c ∧ c.failed = true := by
  rcases h with ⟨hp, ⟨-, _, -, rfl⟩ | ⟨-, rfl⟩ | ⟨-, rfl⟩ | ⟨-, rfl⟩ | ⟨-, rfl | rfl⟩⟩ |
    ⟨-, ⟨hp, rfl⟩ | ⟨hp, rfl⟩ | ⟨hp, rfl⟩⟩
  all_goals exact ⟨ne_of_eq_of_ne hp (by decide), _, rfl, rfl⟩

theorem HsState.idle_or_ackReceived {st : HsState} (hr : st ≠ .ispReady) (hf : st ≠ .failed) :
    st = .idle ∨ st = .ackReceived := by
  cases st <;> simp at hr hf ⊢

/-- Settles O49, move by move: only a reset, a reply, HS_SKIP, a used-up budget and a FAIL write HS_STATE. -/
theorem handshakeTransitionsAreExactlyTheListed : Obligations.HandshakeTransitionsAreExactlyTheListed := by
  intro s t _ hstep hne
  by_cases hr : ResetNext s
  · rw [step_of_reset hr] at hstep
    cases hstep
    exact .inl ⟨hr, rfl⟩
  rcases step_block_or_keepsResults hstep hr with ⟨hb, hm⟩ | hkeep
  · cases hm with
    | failed calls a d hc =>
      obtain ⟨hp, c, hlast, hfail⟩ := hc.last_failed
      obtain ⟨before, rfl⟩ := List.getLast?_eq_some_iff.1 hlast
      exact .inr ⟨hb, hp, .inr (.inr (.inr (.inr
        ⟨hne.symm, rfl, rfl, before, c, (List.append_assoc ..).symm, hfail⟩)))⟩
    | hsTimeout hp hop hs hatt =>
      have hst := HsState.idle_or_ackReceived hs hne.symm
      exact .inr ⟨hb, ne_of_eq_of_ne hp (by decide), .inr (.inr (.inr (.inl ⟨hst, rfl, hop, hp, hatt, rfl⟩)))⟩
    | hsReplied bs a d hp hop =>
      refine .inr ⟨hb, ne_of_eq_of_ne hp (by decide), ?_⟩
      rcases hsAdvance_change hne with ⟨hst, rfl, hst'⟩ | ⟨hst, rfl, hst'⟩
      · exact .inl ⟨hst, hst', hop, hp, by rw [BitVec.ofNat_toNat]; rfl⟩
      · exact .inr (.inl ⟨hst, hst', hop, hp, by rw [BitVec.ofNat_toNat]; rfl⟩)
    | skip hp hop hs => exact .inr ⟨hb, hp, .inr (.inr (.inl ⟨hs, rfl, hop, rfl⟩))⟩
    | _ => exact absurd rfl hne
  · exact absurd hkeep.hsState hne

/-! ### The other fields, and reset -/

/-- Settles O14: no block step writes OVR, and of the host's events only a STATUS write of bit 3 clears it. -/
theorem ovrIsStickyAndTheBlockLeavesIt : Obligations.OvrIsStickyAndTheBlockLeavesIt := by
  constructor
  · intro s t hstep hset hclear
    have hne : t.ovr ≠ s.ovr := by simp [hset, hclear]
    rcases step_shape hstep with ⟨-, hm⟩ | ⟨hr, -⟩ | ⟨-, -, ⟨_, _, rfl⟩ | ⟨-, _, rfl⟩ | ⟨_, _, -, -, rfl⟩ |
      ⟨v, rest, he, hv, -⟩ | ⟨-, _, _, _, _, _, _, _, _, _, -, -, rfl⟩⟩
    · exact absurd hm.keepsHostFields.ovr hne
    · exact .inl hr
    · exact absurd rfl hne
    · cases hclear
    · exact absurd rfl hne
    · exact .inr ⟨v, rest, he, hv⟩
    · exact absurd rfl hne
  · intro s t hb hstep
    rw [step_of_block hb] at hstep
    exact (blockStep_moves hstep).keepsHostFields.ovr

/-- Settles O55: the host's writes are dropped while BUSY = 1, and the block writes no operand but RECV's. -/
theorem operandsHoldWhileInFlight : Obligations.OperandsHoldWhileInFlight := by
  intro s t hinv hp hstep hr
  rcases step_block_or_keeps_of_busy hstep hr (hinv.busy_of_inFlight hp) with ⟨hb, hm⟩ | ⟨_, _, _, rfl⟩
  · have hk := hm.keepsHostFields
    exact ⟨hk.op, hk.verifyEn, hk.seq, hk.hsMax, hk.hsTmo, hk.rxTmo, hk.rxReq, hk.cfg,
      hm.input_eq_or_recv.imp_right fun ⟨hop, hend⟩ => ⟨hop, hb, hend⟩⟩
  · exact ⟨rfl, rfl, rfl, rfl, rfl, rfl, rfl, rfl, .inl ⟨rfl, rfl⟩⟩

/-- Settles O56: no host step writes the output, and of the block's only a commit does. -/
theorem outputChangesOnlyAtCodecCompletion : Obligations.OutputChangesOnlyAtCodecCompletion := by
  intro s t hstep hr
  rcases step_block_or_keepsResults hstep hr with ⟨hb, hm⟩ | hk
  · exact hm.output_eq_or_commit.imp_right fun hcommit => ⟨hb, hcommit⟩
  · exact .inl ⟨hk.outBuf, hk.outLen⟩

/-- Settles O57: no host step writes the three fields, and each has its writers among the block's. -/
theorem resultVflagsAndAttemptsHaveTheirWriters : Obligations.ResultVflagsAndAttemptsHaveTheirWriters := by
  intro s t hstep hr
  rcases step_block_or_keepsResults hstep hr with ⟨hb, hm⟩ | hk
  · exact ⟨hm.result_eq_or_checksum.imp_right fun h => ⟨hb, h⟩, hm.vflags_eq_or_verified.imp_right fun h => ⟨hb, h⟩,
      hm.hsAtt_eq_or_hsStart.imp_right fun h => ⟨hb, h⟩⟩
  · exact ⟨.inl hk.result, .inl hk.vflags, .inl hk.hsAtt⟩

/-- Settles O52: the state after reset is what a reset makes of it. -/
theorem invariantHoldsAtReset : Obligations.InvariantHoldsAtReset :=
  inv_resetBlock (s := State.reset) (by decide)

end Sys2Proof.Machine
end

section
/-! The host's view of the state: where a host access leads, what a register or IN_BUF holds after a write, and the bytes
a read shows (10_state.md R23 to R43, R47; 20_memory.md R62, R66). -/

namespace Sys2Proof.Machine

/-! ### Bytes and bits -/

theorem getLsbD_flagBit (b : Bool) (k : Nat) {n : Nat} (hn : n < 8) : (flagBit b k).getLsbD n = (n == k && b) := by
  cases b with
  | false => simp [flagBit]
  | true =>
    rw [Bool.eq_iff_iff]
    simp [flagBit, hn]
    omega

theorem getLsbD_statusByte (s : State) {n : Nat} (hn : n < 8) :
    (statusByte s).getLsbD n =
      ((n == 0 && s.busy) || (n == 1 && s.done) || (n == 2 && s.err) || (n == 3 && s.ovr) ||
        (n == 4 && decide (s.hsState = .ispReady))) := by
  simp only [statusByte, BitVec.getLsbD_or, getLsbD_flagBit _ _ hn]

theorem getLsbD_vflagsByte (f : VFlags) {n : Nat} (hn : n < 8) :
    f.toByte.getLsbD n =
      ((n == 0 && f.hdrOk) || (n == 1 && f.hchkOk) || (n == 2 && f.lenOk) || (n == 3 && f.crcOk) ||
        (n == 4 && f.allOk) || (n == 5 && f.sizeOk)) := by
  simp only [VFlags.toByte, BitVec.getLsbD_or, getLsbD_flagBit _ _ hn]

theorem lo8_eq_ofNat (w : Half) : lo8 w = BitVec.ofNat 8 (w.toNat % 256) := by
  apply BitVec.eq_of_toNat_eq
  simp [lo8]

theorem hi8_eq_ofNat (w : Half) : hi8 w = BitVec.ofNat 8 (w.toNat / 256) := by
  apply BitVec.eq_of_toNat_eq
  simp [hi8, Nat.shiftRight_eq_div_pow]

theorem ofHiLo_eq_ofNat (hi lo : Byte) : ofHiLo hi lo = BitVec.ofNat 16 (hi.toNat * 256 + lo.toNat) := by
  apply BitVec.eq_of_toNat_eq
  have := hi.isLt
  have := lo.isLt
  simp only [ofHiLo, BitVec.toNat_append, BitVec.toNat_ofNat]
  rw [← Nat.shiftLeft_add_eq_or_of_lt lo.isLt, Nat.shiftLeft_eq]
  omega

theorem setLo_eq_ofNat (w : Half) (v : Byte) : setLo w v = BitVec.ofNat 16 (w.toNat / 256 * 256 + v.toNat) := by
  have := w.isLt
  rw [setLo, ofHiLo_eq_ofNat, hi8_eq_ofNat, BitVec.toNat_ofNat, Nat.mod_eq_of_lt (by omega)]

theorem setHi_eq_ofNat (w : Half) (v : Byte) : setHi w v = BitVec.ofNat 16 (v.toNat * 256 + w.toNat % 256) := by
  rw [setHi, ofHiLo_eq_ofNat, lo8_eq_ofNat, BitVec.toNat_ofNat, Nat.mod_mod]

/-! ### Host writes -/

theorem writeReg_of_dropped {r : Reg} {s : State} (hr : r.busyGuarded = true) (hb : s.busy = true) (v : Byte) :
    writeReg r v s = dropWrite s := by
  simp [writeReg, hr, hb]

theorem writeReg_of_rest {s : State} (r : Reg) (hb : s.busy = false) (v : Byte) :
    writeReg r v s = writeRegNow r v s := by
  simp [writeReg, hb]

theorem hostWrite_addr_of_rest {s : State} (r : Reg) (hb : s.busy = false) (v : Byte) :
    hostWrite r.addr v s = writeRegNow r v s := by
  rw [hostWrite_addr, writeReg_of_rest r hb]

theorem hostWrite_inAddr {s : State} {i : Nat} (hc : s.cfg.wf) (hi : i < s.cfg.bufDepth) (v : Byte) :
    hostWrite (inAddr i) v s = writeIn i v s := by
  simp only [hostWrite, placeOf_inAddr hc hi]

theorem hostWrite_outAddr {s : State} {i : Nat} (hc : s.cfg.wf) (hi : i < s.cfg.bufDepth) (v : Byte) :
    hostWrite (outAddr i) v s = s := by
  simp only [hostWrite, placeOf_outAddr hc hi]

theorem writeIn_of_busy {s : State} (hb : s.busy = true) (i : Nat) (v : Byte) : writeIn i v s = dropWrite s := by
  simp [writeIn, hb]

theorem writeIn_of_rest {s : State} (hb : s.busy = false) (i : Nat) (v : Byte) :
    writeIn i v s = { s with inBuf := memSet s.inBuf i v } := by
  simp [writeIn, hb]

/-! ### Host reads -/

theorem hostRead_inAddr {s : State} {i : Nat} (hc : s.cfg.wf) (hi : i < s.cfg.bufDepth) :
    hostRead (inAddr i) s = memGet s.inBuf i := by
  simp only [hostRead, placeOf_inAddr hc hi]

theorem hostRead_outAddr {s : State} {i : Nat} (hc : s.cfg.wf) (hi : i < s.cfg.bufDepth) :
    hostRead (outAddr i) s = memGet s.outBuf i := by
  simp only [hostRead, placeOf_outAddr hc hi]

/-- The two addresses of a 16-bit register read its bytes, low byte first (20_memory.md R66). -/
theorem hostRead_pair {s : State} {lo hi : Reg} {w : Half} (hlo : readReg lo s = lo8 w) (hhi : readReg hi s = hi8 w) :
    hostRead lo.addr s = some (BitVec.ofNat 8 (w.toNat % 256)) ∧
      hostRead hi.addr s = some (BitVec.ofNat 8 (w.toNat / 256)) := by
  rw [hostRead_addr, hostRead_addr, hlo, hhi, lo8_eq_ofNat, hi8_eq_ofNat]
  exact ⟨rfl, rfl⟩

/-- A write to one byte of IN_BUF is seen at its own address only. -/
theorem hostRead_memSet_other {s : State} {i : Nat} {a : Half} (ha : a ≠ inAddr i) (v : Byte) :
    hostRead a { s with inBuf := memSet s.inBuf i v } = hostRead a s := by
  cases hp : placeOf s.cfg a with
  | reg r => simp only [hostRead, hp]; cases r <;> rfl
  | inByte j =>
    obtain ⟨rfl, -⟩ := eq_inAddr hp
    have hji : j ≠ i := fun h => ha (h ▸ rfl)
    simp only [hostRead, hp, memGet_memSet, if_neg hji]
  | outByte j => simp only [hostRead, hp]
  | none => simp only [hostRead, hp]

/-! ### The registers by their access -/

/-- The busy-guarded registers of 10_state.md R23, by rising address. -/
def guardedRegs : List Reg :=
  [.cmd, .ctrl, .seq, .hsMaxLo, .hsMaxHi, .hsTmo, .rxTmoLo, .rxTmoHi, .rxReqLo, .rxReqHi, .inLenLo, .inLenHi]

theorem busyGuarded_of_mem {r : Reg} (h : r ∈ guardedRegs) : r.busyGuarded = true := by
  revert r; decide

/-- The read-only registers of 10_state.md R23, by rising address. -/
def readOnlyRegs : List Reg :=
  [.errcode, .hsState, .hsAttLo, .hsAttHi, .outLenLo, .outLenHi, .resultLo, .resultHi, .vflags, .cfg, .depthLo, .depthHi]

/-- A read-only register is not guarded: a write to it does not even set OVR (10_state.md R23). -/
theorem writeReg_of_readOnly {r : Reg} (h : r ∈ readOnlyRegs) (v : Byte) (s : State) : writeReg r v s = s := by
  fin_cases h <;> rfl

/-- Settles O15: a guarded address is that of a guarded register or of a byte of IN_BUF. -/
theorem guardedWritesAreDroppedWhileBusy : Obligations.GuardedWritesAreDroppedWhileBusy := by
  intro s a v hc hb ha
  rcases ha with ha | ⟨hlo, hhi⟩
  · have ha : a.toNat ∈ guardedRegs.map fun r => r.addr.toNat := ha
    obtain ⟨r, hr, he⟩ := List.mem_map.1 ha
    rw [← BitVec.eq_of_toNat_eq he, hostWrite_addr, writeReg_of_dropped (busyGuarded_of_mem hr) hb]
    rfl
  · have hi : a.toNat - 0x4000 < s.cfg.bufDepth := by omega
    have he : a = inAddr (a.toNat - 0x4000) := by
      apply BitVec.eq_of_toNat_eq
      have := hc.2
      rw [toNat_inAddr (by omega)]; omega
    rw [he, hostWrite_inAddr hc hi, writeIn_of_busy hb]
    rfl

/-- Settles O19, by read after write in IN_BUF. -/
theorem bufferBytesReadBack : Obligations.BufferBytesReadBack := by
  intro s i v hc hi
  refine ⟨fun hb => ?_, hostWrite_outAddr hc hi v, hostRead_outAddr hc hi, hostRead_inAddr hc hi⟩
  rw [hostWrite_inAddr hc hi, writeIn_of_rest hb]
  have hread := hostRead_inAddr (s := { s with inBuf := memSet s.inBuf i v }) hc hi
  exact ⟨hread.trans (memGet_memSet_self ..), fun a ha => hostRead_memSet_other ha v, rfl⟩

/-- Settles O13. -/
theorem statusBitsAndItsWrite : Obligations.StatusBitsAndItsWrite := fun s v =>
  ⟨fun _ hn => getLsbD_statusByte s hn, hostRead_addr .status s, hostWrite_addr .status v s⟩

/-- Settles O16: each address is that of its register, and each half is its half of the number. -/
theorem registerWritesStore : Obligations.RegisterWritesStore := by
  constructor
  · intro s v a ha
    have ha : a ∈ readOnlyRegs.map Reg.addr := ha
    obtain ⟨r, hr, rfl⟩ := List.mem_map.1 ha
    rw [hostWrite_addr, writeReg_of_readOnly hr]
  · intro s v hb
    have hw := fun r => hostWrite_addr_of_rest r hb v
    simp only [← setLo_eq_ofNat, ← setHi_eq_ofNat]
    exact ⟨hw .ctrl, hw .seq, hw .hsTmo, hw .hsMaxLo, hw .hsMaxHi, hw .rxTmoLo, hw .rxTmoHi, hw .rxReqLo, hw .rxReqHi,
      hw .inLenLo, hw .inLenHi⟩

/-- Settles O17: each address is that of its register. -/
theorem registerReadViews : Obligations.RegisterReadViews := by
  refine ⟨rfl, rfl, fun s => ⟨?_, hostRead_addr .cmd s, hostRead_addr .errcode s, ?_, hostRead_addr .seq s,
    hostRead_addr .hsState s, hostRead_addr .hsTmo s, ?_, s.vflags.toByte, hostRead_addr .vflags s,
    fun _ hn => getLsbD_vflagsByte s.vflags hn⟩⟩
  · simp only [List.forall_mem_cons, List.not_mem_nil, false_implies, implies_true, and_true]
    exact ⟨hostRead_pair (lo := .hsAttLo) (hi := .hsAttHi) rfl rfl,
      hostRead_pair (lo := .hsMaxLo) (hi := .hsMaxHi) rfl rfl,
      hostRead_pair (lo := .rxTmoLo) (hi := .rxTmoHi) rfl rfl,
      hostRead_pair (lo := .rxReqLo) (hi := .rxReqHi) rfl rfl,
      hostRead_pair (lo := .inLenLo) (hi := .inLenHi) rfl rfl,
      hostRead_pair (lo := .outLenLo) (hi := .outLenHi) rfl rfl,
      hostRead_pair (lo := .resultLo) (hi := .resultHi) rfl rfl,
      hostRead_pair (lo := .depthLo) (hi := .depthHi) rfl rfl⟩
  · refine (hostRead_addr .ctrl s).trans ?_
    cases hv : s.verifyEn <;> simp [readReg, flagBit, hv]
  · refine (hostRead_addr .cfg s).trans ?_
    cases hv : s.cfg.hdrVariant <;> cases hf : s.cfg.hsFlushAck <;> simp [readReg, cfgByte, flagBit, hv, hf]

end Sys2Proof.Machine
end

section
/-! Host accesses as steps of the machine (20_memory.md R62 to R64, R67): a read answers and is recorded, or stops the
model; a write is `hostWrite`; and the addresses that lead nowhere (O18, O20). -/

namespace Sys2Proof.Machine

/-! ### Where an address leads -/

/-- The address of a byte of OUT_BUF is that of its index. -/
theorem eq_outAddr {c : Config} {a : Half} {i : Nat} (hc : c.wf) (h : placeOf c a = .outByte i) :
    a = outAddr i ∧ i < c.bufDepth := by
  unfold placeOf at h
  dsimp only at h
  split at h
  · split at h <;> cases h
  · split at h
    · split at h <;> cases h
    · split at h
      · have hi := Place.outByte.inj h
        have hdepth := hc.2
        refine ⟨BitVec.eq_of_toNat_eq ?_, by omega⟩
        rw [toNat_outAddr (by omega)]; omega
      · cases h

/-- The registers stand at 0x0000 to 0x0019, and 0x000B is none of them (10_state.md R23, R41). -/
theorem Reg.addr_range (r : Reg) : r.addr.toNat ≤ 0x0019 ∧ r.addr.toNat ≠ 0x000B := by
  cases r <;> decide

/-- The reserved register addresses, and the ranges between and behind the two buffers (20_memory.md R61, R63). -/
def Unmapped (c : Config) (a : Half) : Prop :=
  a.toNat = 0x000B ∨ (0x001A ≤ a.toNat ∧ a.toNat < 0x4000) ∨
    (0x4000 + c.bufDepth ≤ a.toNat ∧ a.toNat < 0x8000) ∨ 0x8000 + c.bufDepth ≤ a.toNat

/-- An unmapped address is neither that of a register nor that of a byte of a buffer. -/
theorem placeOf_of_unmapped {c : Config} {a : Half} (hc : c.wf) (ha : Unmapped c a) : placeOf c a = .none := by
  have hdepth := hc.2
  unfold Unmapped at ha
  cases hp : placeOf c a with
  | reg r =>
    have hr := r.addr_range
    rw [eq_addr hp] at ha
    omega
  | inByte i =>
    obtain ⟨rfl, hi⟩ := eq_inAddr hp
    rw [toNat_inAddr (by omega)] at ha
    omega
  | outByte i =>
    obtain ⟨rfl, hi⟩ := eq_outAddr hc hp
    rw [toNat_outAddr (by omega)] at ha
    omega
  | none => rfl

theorem hostRead_of_unmapped {s : State} {a : Half} (hc : s.cfg.wf) (ha : Unmapped s.cfg a) :
    hostRead a s = some 0x00 := by
  simp only [hostRead, placeOf_of_unmapped hc ha]

theorem hostWrite_of_unmapped {s : State} {a : Half} (hc : s.cfg.wf) (ha : Unmapped s.cfg a) (v : Byte) :
    hostWrite a v s = s := by
  simp only [hostWrite, placeOf_of_unmapped hc ha]

/-! ### Accesses as steps -/

theorem step_of_event {s : State} {e : Event} {rest : List Event} (he : s.events = e :: rest) :
    step s = eventStep e (afterEvent s) := by
  simp only [step, machineStep, he, afterEvent, List.tail_cons]

theorem afterEvent_of_cons {s : State} {e : Event} {rest : List Event} (he : s.events = e :: rest) :
    afterEvent s = { s with events := rest } := by
  simp only [afterEvent, he, List.tail_cons]

theorem readStep_of_some {s : State} {a : Half} {v : Byte} (hv : hostRead a s = some v) :
    readStep a 1 s = .next (logRead a v s) := by
  simp only [readStep, if_true, hv]

theorem readStep_of_none {s : State} {a : Half} (hv : hostRead a s = none) : readStep a 1 s = .fault .uninitRead := by
  simp only [readStep, if_true, hv]

/-- A read that answers is recorded, and that is all it does (20_memory.md R62, R67). -/
theorem step_read_of_some {s : State} {a : Half} {v : Byte} {rest : List Event} (he : s.events = .read a 1 :: rest)
    (hv : hostRead a s = some v) : step s = .next { s with events := rest, reads := s.reads ++ [(a, v)] } := by
  rw [step_of_event he, eventStep, readStep_of_some ((hostRead_afterEvent a s).trans hv), logRead,
    afterEvent_of_cons he]

/-- A read of an unwritten byte stops the model (20_memory.md R63). -/
theorem step_read_of_none {s : State} {a : Half} {rest : List Event} (he : s.events = .read a 1 :: rest)
    (hv : hostRead a s = none) : step s = .fault .uninitRead := by
  rw [step_of_event he, eventStep, readStep_of_none ((hostRead_afterEvent a s).trans hv)]

theorem step_read_of_size_ne_one {s : State} {a : Half} {size : Nat} {rest : List Event}
    (he : s.events = .read a size :: rest) (hsize : size ≠ 1) : step s = .fault .badAccess := by
  rw [step_of_event he, eventStep, readStep, if_neg hsize]

theorem step_write {s : State} {a : Half} {v : Byte} {rest : List Event} (he : s.events = .write a [v] :: rest) :
    step s = .next (hostWrite a v { s with events := rest }) := by
  rw [step_of_event he, eventStep, writeStep, afterEvent_of_cons he]

theorem step_write_of_length_ne_one {s : State} {a : Half} {data : List Byte} {rest : List Event}
    (he : s.events = .write a data :: rest) (hlen : data.length ≠ 1) : step s = .fault .badAccess := by
  rw [step_of_event he, eventStep]
  match data with
  | [] => rfl
  | [_] => exact absurd rfl hlen
  | _ :: _ :: _ => rfl

/-- Settles O18: an unmapped address leads nowhere, and a buffer's address to its byte. -/
theorem unmappedAddressesReadZero : Obligations.UnmappedAddressesReadZero := by
  intro s a v hc
  refine ⟨fun ha => ?_, fun i rest hi => ⟨fun he hin => ?_, fun he hout => ?_⟩, fun i hi hb _ => ?_⟩
  · have ha : Unmapped s.cfg a := ha
    refine ⟨hostRead_of_unmapped hc ha, hostWrite_of_unmapped hc ha v,
      fun rest he => step_read_of_some he (hostRead_of_unmapped hc ha), fun rest he => ?_⟩
    rw [step_write he, hostWrite_of_unmapped (s := { s with events := rest }) hc ha]
  · exact step_read_of_none he ((hostRead_inAddr hc hi).trans hin)
  · exact step_read_of_none he ((hostRead_outAddr hc hi).trans hout)
  · exact ((bufferBytesReadBack s i v hc hi).1 hb).1

/-- Settles O20. -/
theorem accessSizeAndReadSideEffects : Obligations.AccessSizeAndReadSideEffects := fun _ _ _ =>
  ⟨fun _ he hsize => step_read_of_size_ne_one he hsize, fun _ he hlen => step_write_of_length_ne_one he hlen,
    fun _ he hv => step_read_of_some he hv, fun _ he => step_write he⟩

end Sys2Proof.Machine
end

section
/-! The transport history (20_memory.md R75, R76): what the calls of one block step are, move by move, and that no other
step records one (O58). -/

namespace Sys2Proof.Machine

/-- The operation in flight stands at a step that calls the transport (10_state.md R48, 42_handshake.md R173). -/
def CallStep (s : State) : Prop :=
  (s.phase = .tCall ∧ s.op ∈ transportCodes) ∨ (inAttempt s.phase = true ∧ s.op = 0x20)

/-- What one step may append to the transport history of `s`: `BlockMove.appends_admitted` ties it to the steps. -/
structure Admitted (s : State) (calls : List Call) : Prop where
  length_le : calls.length ≤ 2
  legal : ∀ c ∈ calls, c.legal = true
  callStep : calls ≠ [] → CallStep s

theorem admitted_nil (s : State) : Admitted s [] := ⟨by decide, nofun, absurd rfl⟩

theorem CallStep.admitted_one {s : State} {c : Call} (hs : CallStep s) (hc : c.legal = true) : Admitted s [c] :=
  ⟨by simp, by simpa using hc, fun _ => hs⟩

theorem CallStep.admitted_two {s : State} {c d : Call} (hs : CallStep s) (hc : c.legal = true) (hd : d.legal = true) :
    Admitted s [c, d] :=
  ⟨by simp, by simp [hc, hd], fun _ => hs⟩

/-! ### The calls that need the invariant -/

/-- SEND's call writes at least one byte (43_transport_ops.md R191). -/
theorem Inv.legal_send {s : State} (h : Inv s) (hp : s.phase = .tCall) (hop : s.op = 0x10) {bs : List Byte}
    (hbs : outBytes s = some bs) (ok : Bool) : (Call.write bs ok).legal = true := by
  obtain ⟨-, hne⟩ := h.sendCallOk hp hop
  have hlen := (holdsOutput_iff.2 hbs).1
  have : bs ≠ [] := by
    rintro rfl
    exact hne (BitVec.eq_of_toNat_eq hlen)
  simpa [Call.legal] using this

/-- RECV's call asks for at least one byte (43_transport_ops.md R193). -/
theorem Inv.one_le_rxReq {s : State} (h : Inv s) (hp : s.phase = .tCall) (hop : s.op = 0x11) : 1 ≤ s.rxReq.toNat := by
  obtain ⟨-, hne, -⟩ := h.recvCallOk hp hop
  exact Nat.one_le_iff_ne_zero.2 fun h0 => hne (BitVec.eq_of_toNat_eq h0)

theorem legal_read_fail {n : Nat} (hn : 1 ≤ n) (tmo : Half) : (Call.read n tmo none).legal = true := by
  simp [Call.legal, hn]

theorem legal_read_bytes {n : Nat} {bs : List Byte} (hn : 1 ≤ n) (hbs : bs.length ≤ n) (tmo : Half) :
    (Call.read n tmo (some bs)).legal = true := by
  simp [Call.legal, hn, hbs]

/-! ### The calls of one step -/

theorem CallsOf.admitted {s : State} {calls : List Call} (hc : CallsOf s calls) (h : Inv s) (hp : s.phase = .tCall) :
    Admitted s calls := by
  have hs : CallStep s := .inl ⟨hp, h.callOp hp⟩
  rcases hc with ⟨hop, bs, hbs, rfl⟩ | ⟨-, rfl⟩ | ⟨-, rfl⟩ | ⟨-, rfl⟩
  · exact hs.admitted_one (h.legal_send hp hop hbs true)
  · exact hs.admitted_one rfl
  · exact hs.admitted_one rfl
  · exact hs.admitted_two rfl rfl

theorem FailsOf.admitted {s : State} {calls : List Call} (hc : FailsOf s calls) (h : Inv s) : Admitted s calls := by
  rcases hc with ⟨hp, hcalls⟩ | ⟨hop, hcalls⟩
  · have hs : CallStep s := .inl ⟨hp, h.callOp hp⟩
    rcases hcalls with ⟨hop, bs, hbs, rfl⟩ | ⟨hop, rfl⟩ | ⟨-, rfl⟩ | ⟨-, rfl⟩ | ⟨-, rfl | rfl⟩
    · exact hs.admitted_one (h.legal_send hp hop hbs false)
    · exact hs.admitted_one (legal_read_fail (h.one_le_rxReq hp hop) _)
    · exact hs.admitted_one rfl
    · exact hs.admitted_one rfl
    · exact hs.admitted_one rfl
    · exact hs.admitted_two rfl rfl
  · have hs : inAttempt s.phase = true → CallStep s := fun hp => .inr ⟨hp, hop⟩
    rcases hcalls with ⟨hp, rfl⟩ | ⟨hp, rfl⟩ | ⟨hp, rfl⟩
    · exact (hs (by rw [hp]; rfl)).admitted_one rfl
    · exact (hs (by rw [hp]; rfl)).admitted_one rfl
    · exact (hs (by rw [hp]; rfl)).admitted_one (legal_read_fail le_rfl _)

/-- A block step appends to the history what it is admitted to call, and nothing else. -/
theorem BlockMove.appends_admitted {s t : State} (hm : BlockMove s t) (h : Inv s) :
    ∃ calls, t.history = s.history ++ calls ∧ Admitted s calls := by
  cases hm with
  | called calls a d hp hc => exact ⟨calls, rfl, hc.admitted h hp⟩
  | received bs a d hp hop hlen =>
    have hs : CallStep s := .inl ⟨hp, h.callOp hp⟩
    exact ⟨_, rfl, hs.admitted_one (legal_read_bytes (h.one_le_rxReq hp hop) hlen _)⟩
  | failed calls a d hc => exact ⟨calls, rfl, hc.admitted h⟩
  | hsReset a d hp hop => exact ⟨_, rfl, CallStep.admitted_one (.inr ⟨by rw [hp]; rfl, hop⟩) rfl⟩
  | hsSent a d hp hop => exact ⟨_, rfl, CallStep.admitted_one (.inr ⟨by rw [hp]; rfl, hop⟩) rfl⟩
  | hsReplied bs a d hp hop hlen =>
    exact ⟨_, rfl, CallStep.admitted_one (.inr ⟨by rw [hp]; rfl, hop⟩) (legal_read_bytes le_rfl hlen _)⟩
  | _ => exact ⟨[], (List.append_nil _).symm, admitted_nil s⟩

/-- The host's events and a reset record no call (20_memory.md R76, 70_reset_and_hazards.md R263). -/
theorem step_block_or_keeps_history {s t : State} (h : step s = .next t) :
    (BlockTurn s ∧ BlockMove (afterEvent s) t) ∨ t.history = s.history := by
  rcases step_shape h with hblock | ⟨-, rfl⟩ | ⟨-, -, ⟨_, _, rfl⟩ | ⟨-, _, rfl⟩ | ⟨_, _, -, -, rfl⟩ |
    ⟨_, _, -, -, rfl⟩ | ⟨-, _, _, _, _, _, _, _, _, _, -, -, rfl⟩⟩
  · exact .inl hblock
  all_goals exact .inr rfl

/-- Settles O58: the calls of a step are those of the block's move, and any other step makes none. -/
theorem transportCallsAreLegalAndOnlyAppended : Obligations.TransportCallsAreLegalAndOnlyAppended := by
  intro s t hinv hstep
  rcases step_block_or_keeps_history hstep with ⟨hb, hm⟩ | hkeep
  · obtain ⟨calls, happ, hadm⟩ := hm.appends_admitted hinv.afterEvent
    exact ⟨calls, happ, hadm.length_le, hadm.legal, fun hne => ⟨hb, hadm.callStep hne⟩⟩
  · exact ⟨[], by rw [hkeep, List.append_nil], by decide, nofun, absurd rfl⟩

end Sys2Proof.Machine
end

section
/-! The decoder and the encoder are inverse (30_encoding.md R90 to R103; 44_wire_commands.md R210 to R220): decode after
encode row by row (O1), and encode after decode by one lemma per decoder (O2). -/

namespace Sys2Proof

open Machine

/-! ### Decode after encode -/

/-- The rows of Laws/PerInstr.lean, one for each constructor. -/
theorem decode_encode : ∀ i : Instr, Laws.RoundTrip.Statement i
  | .nop => Laws.RoundTrip.nop
  | .build => Laws.RoundTrip.build
  | .encode => Laws.RoundTrip.encode
  | .frame => Laws.RoundTrip.frame
  | .decode => Laws.RoundTrip.decode
  | .verify => Laws.RoundTrip.verify
  | .sum8 => Laws.RoundTrip.sum8
  | .hchk => Laws.RoundTrip.hchk
  | .crc8 => Laws.RoundTrip.crc8
  | .crc16 => Laws.RoundTrip.crc16
  | .send => Laws.RoundTrip.send
  | .recv => Laws.RoundTrip.recv
  | .flushRx => Laws.RoundTrip.flushRx
  | .flushTx => Laws.RoundTrip.flushTx
  | .flushAll => Laws.RoundTrip.flushAll
  | .hsStart => Laws.RoundTrip.hsStart
  | .hsSkip => Laws.RoundTrip.hsSkip
  | .frameHeader seq len chk payload crc => Laws.RoundTrip.frameHeader seq len chk payload crc
  | .delim => Laws.RoundTrip.delim
  | .esc => Laws.RoundTrip.esc
  | .escDelim => Laws.RoundTrip.escDelim
  | .escEsc => Laws.RoundTrip.escEsc
  | .start => Laws.RoundTrip.start
  | .ack => Laws.RoundTrip.ack
  | .ispStart => Laws.RoundTrip.ispStart
  | .ispReady => Laws.RoundTrip.ispReady
  | .readRegister address => Laws.RoundTrip.readRegister address
  | .writeRegister address value => Laws.RoundTrip.writeRegister address value
  | .getFlashId => Laws.RoundTrip.getFlashId
  | .eraseSecureOtpPage => Laws.RoundTrip.eraseSecureOtpPage
  | .legacyKeyWrite before kv => Laws.RoundTrip.legacyKeyWrite before kv
  | .verifyBootloaderSignature => Laws.RoundTrip.verifyBootloaderSignature
  | .requestSecureDebug => Laws.RoundTrip.requestSecureDebug
  | .sendChallengeResponse r s => Laws.RoundTrip.sendChallengeResponse r s
  | .writeOtpRegister option addrChk offset value =>
    Laws.RoundTrip.writeOtpRegister option addrChk offset value
  | .writeOtpKey option addrChk offset key => Laws.RoundTrip.writeOtpKey option addrChk offset key

/-- Settles O1, row by row. -/
theorem decodeOfEncodeIsTheInstruction : Obligations.DecodeOfEncodeIsTheInstruction := fun L i => decode_encode i L

/-! ### The checks of the operands -/

/-- The operations have no operand fields (30_encoding.md R90). -/
theorem wf_of_cmd8 {i : Instr} (h : i.format = .cmd8) (L : WireLayout) : i.wf L = true := by
  cases i with
  | frameHeader | legacyKeyWrite | sendChallengeResponse | writeOtpRegister | writeOtpKey => cases h
  | _ => rfl

theorem wf_legacyKeyWrite {L : WireLayout} {before kv : List Byte} :
    (Instr.legacyKeyWrite before kv).wf L = true ↔
      before.length = L.legacyBefore ∧ before.length + kv.length + 2 ≤ maxPayload := by
  simp [Instr.wf]

theorem wf_writeOtpRegister {L : WireLayout} {option chk : Byte} {offset : Nat} {value : List Byte} :
    (Instr.writeOtpRegister option chk offset value).wf L = true ↔
      offset < 256 ^ L.otpRegister.offsetBytes ∧
        chk = otpAddrChk L.otpRegister 0x11 option (bytesOfNat L.otpRegister.offsetBytes offset) value ∧
        L.otpRegister.offsetBytes + value.length + 4 ≤ maxPayload := by
  simp [Instr.wf, and_assoc]

theorem wf_writeOtpKey {L : WireLayout} {option chk : Byte} {offset : Nat} {key : List Byte} :
    (Instr.writeOtpKey option chk offset key).wf L = true ↔
      offset < 256 ^ L.otpKey.offsetBytes ∧ key.length = 64 ∧
        chk = otpAddrChk L.otpKey 0x12 option (bytesOfNat L.otpKey.offsetBytes offset) key ∧
        L.otpKey.offsetBytes + key.length + 3 ≤ maxPayload := by
  simp [Instr.wf, and_assoc]

/-! ### Encode after decode -/

section EncodeAfterDecode

/-- `i` is a well-formed instruction of format `f` whose bytes are `bs`. -/
structure IsRow (L : WireLayout) (f : Format) (bs : List Byte) (i : Instr) : Prop where
  bytes : encode L i = bs
  format : i.format = f
  wf : i.wf L = true

variable {L : WireLayout} {v : Byte} {ps bs : List Byte} {i : Instr}

theorem decodeSingle_ok {f : Byte → Except Reject Instr} (h : decodeSingle f bs = .ok i) :
    ∃ b, bs = [b] ∧ f b = .ok i := by
  unfold decodeSingle at h
  split at h
  · cases h
  · exact ⟨_, rfl, h⟩
  · cases h

/-- The table of 30_encoding.md R91 read backwards. -/
theorem decodeCmd_isRow (h : decodeCmd v = .ok i) : IsRow L .cmd8 [v] i := by
  unfold decodeCmd at h
  split at h <;> cases h <;> exact ⟨rfl, rfl, rfl⟩

/-- The table of 30_encoding.md R100 read backwards. -/
theorem decodeHsByte_isRow (h : decodeHsByte v = .ok i) : IsRow L .hsByte [v] i := by
  unfold decodeHsByte at h
  split at h <;> cases h <;> exact ⟨rfl, rfl, rfl⟩

/-- The table of 30_encoding.md R97 read backwards. -/
theorem decodeWireSym_isRow (h : decodeWireSym v = .ok i) : IsRow L (.data .wireSym) [v] i := by
  unfold decodeWireSym at h
  split at h <;> cases h <;> exact ⟨rfl, rfl, rfl⟩

/-- The payload ends where the length field says, two bytes before the end (30_encoding.md R95, R96). -/
theorem decodeRaw_isRow (h : decodeRaw bs = .ok i) : IsRow L (.data .rawHdr) bs i := by
  unfold decodeRaw at h
  split at h
  · rename_i hdr seq lenHi lenLo chk rest
    split at h
    · rename_i hhdr
      dsimp only at h
      split at h
      · rename_i crcHi crcLo hdrop
        cases h
        have hrest := List.take_append_drop (ofHiLo lenHi lenLo).toNat rest
        rw [hdrop] at hrest
        have hlen : (rest.take (ofHiLo lenHi lenLo).toNat).length = (ofHiLo lenHi lenLo).toNat := by
          have hleft := congrArg List.length hdrop
          simp only [List.length_drop, List.length_cons, List.length_nil] at hleft
          rw [List.length_take]
          omega
        refine ⟨?_, rfl, by simp [Instr.wf, hlen]⟩
        simp [encode, be16, hhdr, hrest]
      · cases h
    · cases h
  · split at h <;> cases h
  · cases h

theorem decodeReadRegister_isRow (h : decodeReadRegister ps = .ok i) : IsRow L (.data .wireCmd) (0x01 :: ps) i := by
  unfold decodeReadRegister at h
  split at h <;> cases h
  exact ⟨by simp [encode, le32_ofLe32], rfl, rfl⟩

theorem decodeWriteRegister_isRow (h : decodeWriteRegister ps = .ok i) : IsRow L (.data .wireCmd) (0x02 :: ps) i := by
  unfold decodeWriteRegister at h
  split at h <;> cases h
  exact ⟨by simp [encode, le32_ofLe32], rfl, rfl⟩

theorem decodeBare_isRow {j : Instr} (hj : IsRow L (.data .wireCmd) [v] j) (h : decodeBare j ps = .ok i) :
    IsRow L (.data .wireCmd) (v :: ps) i := by
  unfold decodeBare at h
  split at h <;> cases h
  exact hj

/-- Parameters whose last byte is a CRC-8: the fields before, the covered bytes and the CRC put together again. -/
theorem take_append_dropLast_append {n : Nat} {c : Byte} (h : (ps.drop n).getLast? = some c) :
    ps.take n ++ ((ps.drop n).dropLast ++ [c]) = ps := by
  rw [List.dropLast_append_getLast? c h, List.take_append_drop]

theorem decodeLegacy_isRow (h : decodeLegacy L ps = .ok i) : IsRow L (.data .wireCmd) (0x09 :: ps) i := by
  unfold decodeLegacy at h
  split at h
  · cases h
  · rename_i hlen
    dsimp only at h
    split at h <;> cases h
    refine ⟨congrArg _ (take_append_dropLast_append ‹_›), rfl, wf_legacyKeyWrite.2 ⟨?_, ?_⟩⟩ <;> simp <;> omega

theorem decodeChallenge_isRow (h : decodeChallenge ps = .ok i) : IsRow L (.data .wireCmd) (0x10 :: ps) i := by
  unfold decodeChallenge at h
  split at h
  · cases h
  · rename_i hlen
    split at h <;> cases h
    rename_i hclient
    refine ⟨?_, rfl, by simp [Instr.wf]; omega⟩
    have hsig : ps.drop 36 = (ps.drop 4).drop 32 := by simp
    rw [encode, ← hclient, hsig, List.append_assoc, List.take_append_drop, List.take_append_drop]

/-- The bytes of an OTP offset and the number they stand for (44_wire_commands.md R219). -/
theorem bytesOfNat_natOfBytes_take {n : Nat} (h : n ≤ ps.length) :
    bytesOfNat n (natOfBytes (ps.take n)) = ps.take n := by
  have hlen : (ps.take n).length = n := by simp [h]
  simpa [hlen] using bytesOfNat_natOfBytes (ps.take n)

theorem natOfBytes_take_lt {n : Nat} (h : n ≤ ps.length) : natOfBytes (ps.take n) < 256 ^ n := by
  simpa [h] using natOfBytes_lt (ps.take n)

theorem decodeOtpRegister_isRow (h : decodeOtpRegister L ps = .ok i) : IsRow L (.data .wireCmd) (0x11 :: ps) i := by
  unfold decodeOtpRegister at h
  split at h
  · rename_i option chk qs
    split at h
    · cases h
    · rename_i hlen
      have hoff : L.otpRegister.offsetBytes ≤ qs.length := by omega
      dsimp only at h
      split at h <;> cases h
      rename_i hfields
      obtain ⟨hcrc, hchk⟩ := hfields
      refine ⟨?_, rfl, wf_writeOtpRegister.2 ⟨natOfBytes_take_lt hoff, ?_, ?_⟩⟩
      · rw [encode, bytesOfNat_natOfBytes_take hoff, take_append_dropLast_append hcrc]
      · rwa [bytesOfNat_natOfBytes_take hoff]
      · simp only [List.length_dropLast, List.length_drop]
        omega
  · cases h

theorem decodeOtpKey_isRow (h : decodeOtpKey L ps = .ok i) : IsRow L (.data .wireCmd) (0x12 :: ps) i := by
  unfold decodeOtpKey at h
  split at h
  · rename_i option chk qs
    split at h
    · cases h
    · rename_i hlen
      have hoff : L.otpKey.offsetBytes ≤ qs.length := by omega
      dsimp only at h
      split at h <;> cases h
      rename_i hchk
      have hkey : (qs.drop L.otpKey.offsetBytes).length = 64 := by
        rw [List.length_drop]
        omega
      refine ⟨?_, rfl, wf_writeOtpKey.2 ⟨natOfBytes_take_lt hoff, hkey, ?_, by omega⟩⟩
      · rw [encode, bytesOfNat_natOfBytes_take hoff, List.take_append_drop]
      · rwa [bytesOfNat_natOfBytes_take hoff]
  · cases h

theorem decodeWireCmd_isRow (h : decodeWireCmd L bs = .ok i) : IsRow L (.data .wireCmd) bs i := by
  unfold decodeWireCmd at h
  split at h
  · cases h
  · split at h
    · exact decodeReadRegister_isRow h
    · exact decodeWriteRegister_isRow h
    · exact decodeBare_isRow ⟨rfl, rfl, rfl⟩ h
    · exact decodeBare_isRow ⟨rfl, rfl, rfl⟩ h
    · exact decodeLegacy_isRow h
    · exact decodeBare_isRow ⟨rfl, rfl, rfl⟩ h
    · exact decodeBare_isRow ⟨rfl, rfl, rfl⟩ h
    · exact decodeChallenge_isRow h
    · exact decodeOtpRegister_isRow h
    · exact decodeOtpKey_isRow h
    · cases h

/-- Whatever the decoder answers is a row that encodes to the bytes decoded. -/
theorem decode_isRow {f : Format} (h : decode L f bs = .ok i) : IsRow L f bs i := by
  unfold decode at h
  split at h
  · obtain ⟨b, rfl, hb⟩ := decodeSingle_ok h
    exact decodeCmd_isRow hb
  · obtain ⟨b, rfl, hb⟩ := decodeSingle_ok h
    exact decodeHsByte_isRow hb
  · obtain ⟨b, rfl, hb⟩ := decodeSingle_ok h
    exact decodeWireSym_isRow hb
  · exact decodeRaw_isRow h
  · exact decodeWireCmd_isRow h

end EncodeAfterDecode

/-- Settles O2: an OTP command's fields are those of its encoding. -/
theorem decodedBytesAreTheEncoding : Obligations.DecodedBytesAreTheEncoding := by
  refine ⟨fun L f bs i h => ?_, fun L bs option chk offset value h => ?_, fun L bs option chk offset key h => ?_⟩
  · obtain ⟨hbytes, hformat, hwf⟩ := decode_isRow h
    exact ⟨hbytes, hformat, hwf⟩
  · obtain ⟨rfl, -, hwf⟩ := decode_isRow h
    obtain ⟨hoff, hchk, -⟩ := wf_writeOtpRegister.1 hwf
    exact ⟨bytesOfNat L.otpRegister.offsetBytes offset, by simp [encode], length_bytesOfNat _ _,
      natOfBytes_bytesOfNat hoff, hchk⟩
  · obtain ⟨rfl, -, hwf⟩ := decode_isRow h
    obtain ⟨hoff, hkey, hchk, -⟩ := wf_writeOtpKey.1 hwf
    exact ⟨bytesOfNat L.otpKey.offsetBytes offset, by simp [encode], length_bytesOfNat _ _,
      natOfBytes_bytesOfNat hoff, hkey, hchk⟩

end Sys2Proof
end

section
/-! The codes of CMD and the transaction words (30_encoding.md R91, R93, R106): the reserved values are the unlisted ones
(O3), words of the spec's tables (O4), and a bus access and its word as numbers (O5). -/

namespace Sys2Proof

open Machine

/-! ### The codes of CMD -/

theorem decodeCmd_eq_reserved_iff (v : Byte) : decodeCmd v = .error (.reservedOp v) ↔ v ∉ operationCodes := by
  constructor
  · intro h hv
    rcases decodeCmd_spec v with ⟨hv', -⟩ | hlisted
    · exact hv' hv
    · simp [h] at hlisted
  · intro hv
    rcases decodeCmd_spec v with ⟨-, h⟩ | hlisted
    · exact h
    · simp_all [operationCodes]

/-- The ranges of 30_encoding.md R93 are what R91 leaves out. -/
theorem notMem_operationCodes_iff (v : Byte) :
    v ∉ operationCodes ↔
      v = 0x06 ∨ v = 0x07 ∨ (0x0C ≤ v.toNat ∧ v.toNat ≤ 0x0F) ∨ (0x15 ≤ v.toNat ∧ v.toNat ≤ 0x1F) ∨
        (0x22 ≤ v.toNat ∧ v.toNat ≤ 0xFF) := by
  have := v.isLt
  simp [operationCodes, ← BitVec.toNat_inj]
  omega

/-- Settles O3. -/
theorem reservedCodesAreExactlyTheUnlisted : Obligations.ReservedCodesAreExactlyTheUnlisted := fun v =>
  ⟨(decodeCmd_eq_reserved_iff v).trans (notMem_operationCodes_iff v), (decodeCmd_eq_reserved_iff v).symm⟩

/-- Settles O4: each word by evaluation of the decoder. -/
theorem sampleWordsDecode : Obligations.SampleWordsDecode :=
  ⟨rfl, rfl, rfl, rfl, rfl, rfl, rfl, rfl, rfl⟩

/-! ### Transaction words as numbers -/

theorem toNat_encodeAccess_wr (addr : Half) (v : Byte) :
    (encodeAccess (.wr addr v)).toNat = 2 ^ 24 + addr.toNat * 256 + v.toNat := by
  simp only [encodeAccess, BitVec.toNat_append]
  rw [← Nat.shiftLeft_add_eq_or_of_lt v.isLt, ← Nat.shiftLeft_add_eq_or_of_lt addr.isLt]
  simp [Nat.shiftLeft_eq]
  omega

theorem toNat_encodeAccess_rd (addr : Half) : (encodeAccess (.rd addr)).toNat = addr.toNat * 256 := by
  simp only [encodeAccess, BitVec.toNat_append]
  simp [Nat.shiftLeft_eq]

theorem kind_of_word (t : BitVec 25) : t.getLsbD 24 = decide (2 ^ 24 ≤ t.toNat) := BitVec.msb_eq_decide t

theorem toNat_addr_of_word (t : BitVec 25) : (t.extractLsb' 8 16).toNat = t.toNat / 256 % 65536 := by
  rw [BitVec.extractLsb'_toNat, Nat.shiftRight_eq_div_pow]

theorem toNat_data_of_word (t : BitVec 25) : (t.extractLsb' 0 8).toNat = t.toNat % 256 := by
  rw [BitVec.extractLsb'_toNat, Nat.shiftRight_zero]

/-- The word of an access is read back as the access. -/
theorem decodeAccess_encodeAccess (a : Access) : decodeAccess (encodeAccess a) = some a := by
  unfold decodeAccess
  rw [kind_of_word]
  cases a with
  | rd addr =>
    have haddr := addr.isLt
    have hdata : (encodeAccess (.rd addr)).extractLsb' 0 8 = 0#8 := by
      apply BitVec.eq_of_toNat_eq
      rw [toNat_data_of_word, toNat_encodeAccess_rd, BitVec.toNat_ofNat]
      omega
    have hread : (encodeAccess (.rd addr)).extractLsb' 8 16 = addr := by
      apply BitVec.eq_of_toNat_eq
      rw [toNat_addr_of_word, toNat_encodeAccess_rd]
      omega
    rw [toNat_encodeAccess_rd, if_neg (by simp; omega), if_pos hdata, hread]
  | wr addr v =>
    have haddr := addr.isLt
    have hv := v.isLt
    have hdata : (encodeAccess (.wr addr v)).extractLsb' 0 8 = v := by
      apply BitVec.eq_of_toNat_eq
      rw [toNat_data_of_word, toNat_encodeAccess_wr]
      omega
    have hwrite : (encodeAccess (.wr addr v)).extractLsb' 8 16 = addr := by
      apply BitVec.eq_of_toNat_eq
      rw [toNat_addr_of_word, toNat_encodeAccess_wr]
      omega
    rw [toNat_encodeAccess_wr, if_pos (by simp; omega), hdata, hwrite]

/-- A word that stands for an access is the access's own: its kind, address and data make up its number. -/
theorem encodeAccess_of_decodeAccess {t : BitVec 25} {a : Access} (h : decodeAccess t = some a) :
    encodeAccess a = t := by
  have ht := t.isLt
  unfold decodeAccess at h
  rw [kind_of_word] at h
  apply BitVec.eq_of_toNat_eq
  split at h
  · rename_i hkind
    cases h
    rw [toNat_encodeAccess_wr, toNat_addr_of_word, toNat_data_of_word]
    have := of_decide_eq_true hkind
    omega
  · rename_i hkind
    split at h <;> cases h
    rename_i hdata
    have hdata := congrArg BitVec.toNat hdata
    rw [toNat_data_of_word, BitVec.toNat_ofNat] at hdata
    rw [toNat_encodeAccess_rd, toNat_addr_of_word]
    simp at hkind
    omega

/-- Settles O5. -/
theorem transactionWordsRoundTrip : Obligations.TransactionWordsRoundTrip :=
  ⟨decodeAccess_encodeAccess, fun _ _ => encodeAccess_of_decodeAccess,
    fun addr v => ⟨toNat_encodeAccess_wr addr v, toNat_encodeAccess_rd addr⟩, rfl, rfl, rfl⟩

end Sys2Proof
end

section
/-! The step and the instruction it runs (10_state.md R46, R48; 30_encoding.md R90, R91, R100, R101): an operation in
flight (O6), a placed instruction (O7), and the handshake bytes as whole-state steps (O47). -/

namespace Sys2Proof.Machine

/-! ### The block's turn -/

theorem blockStep_of_ready {s : State} (hp : s.phase = .ready) : blockStep s = .next s := by
  rw [blockStep, if_pos hp]

theorem blockStep_of_decodeCmd {s : State} {i : Instr} (hp : s.phase ≠ .ready) (hd : decodeCmd s.op = .ok i) :
    blockStep s = exec i s := by
  simp only [blockStep, if_neg hp, hd]

theorem blockStep_of_reserved {s : State} (hp : s.phase ≠ .ready) (hop : s.op ∉ operationCodes) :
    blockStep s = .next (complete .badOp s) := by
  simp only [blockStep, if_neg hp, (decodeCmd_eq_reserved_iff s.op).2 hop, execReserved]

theorem step_of_decodeCmd {s : State} {i : Instr} (hb : BlockTurn s) (hp : s.phase ≠ .ready)
    (hd : decodeCmd s.op = .ok i) : step s = exec i (afterEvent s) := by
  rw [step_of_block hb, blockStep_of_decodeCmd (s := afterEvent s) hp hd]

/-- With HS_START in flight the block's turn is a step of the handshake (42_handshake.md R173). -/
theorem step_of_hsStart {s : State} (hb : BlockTurn s) (hop : s.op = 0x20) (hp : s.phase ≠ .ready) :
    step s = execHsStart (afterEvent s) :=
  step_of_decodeCmd (i := .hsStart) hb hp (by rw [hop]; rfl)

/-! ### Loads -/

theorem step_load {s : State} {d : DataFormat} {bs : List Byte} {rest : List Event} {i : Instr}
    (he : s.events = .load d bs :: rest) (hd : Sys2Proof.decode Config.wireLayout (.data d) bs = .ok i) :
    step s = exec i (afterEvent s) := by
  rw [step_of_event he]
  simp only [eventStep, loadStep, hd]

/-- Settles O6. -/
theorem stepRunsTheDecodedInstruction : Obligations.StepRunsTheDecodedInstruction := by
  refine ⟨fun _ _ => step_of_decodeCmd, fun s hb hp hop => ?_, fun s hb hp => ?_, fun _ _ _ _ _ => step_load⟩
  · rw [step_of_block hb, blockStep_of_reserved (s := afterEvent s) hp hop]
  · rw [step_of_block hb, blockStep_of_ready (s := afterEvent s) hp]

/-! ### Placed instructions -/

/-- The code that acceptance latches for an operation decodes to it (30_encoding.md R90, R91). -/
theorem decodeCmd_head_encode {i : Instr} (hi : i.format = .cmd8) :
    decodeCmd ((Sys2Proof.encode Config.wireLayout i).headD 0x00) = .ok i := by
  have hd := decode_encode i Config.wireLayout (wf_of_cmd8 hi _)
  rw [hi] at hd
  obtain ⟨b, hb, hcode⟩ := decodeSingle_ok hd
  rw [hb]
  exact hcode

theorem step_placeInstr_cmd8 {i : Instr} (hi : i.format = .cmd8) (s : State) :
    step (placeInstr i s) =
      exec i { accept ((Sys2Proof.encode Config.wireLayout i).headD 0x00) s with events := s.events } := by
  simp only [placeInstr, hi]
  exact step_of_decodeCmd (.inr ⟨s.events, rfl⟩) (nofun) (decodeCmd_head_encode hi)

theorem step_placeInstr_data {i : Instr} {d : DataFormat} (hi : i.format = .data d)
    (hwf : i.wf Config.wireLayout = true) (s : State) : step (placeInstr i s) = exec i s := by
  have hd := decode_encode i Config.wireLayout hwf
  rw [hi] at hd
  simp only [placeInstr, hi]
  exact step_load rfl hd

/-! ### Handshake bytes -/

theorem execHsStart_of_hsWrite {s : State} (hp : s.phase = .hsWrite) :
    execHsStart s = if s.hsState = .idle then exec .start s else exec .ispStart s := by
  simp only [execHsStart, hp, hsWrite, exec, execStart, execIspStart]
  split <;> rfl

theorem execHsStart_of_hsRead {s : State} (hp : s.phase = .hsRead) {bs : List Byte} (ha : nextAnswer s = .bytes bs) :
    execHsStart s = .next (hsReceive (some (bs.take 1)) (dropAnswer s)) := by
  simp only [execHsStart, hp, hsRead, ha, readReply]

/-- Settles O7. -/
theorem placedInstructionRunsNext : Obligations.PlacedInstructionRunsNext := by
  refine ⟨fun s i hi => step_placeInstr_cmd8 hi s, fun s hb hop hp => ?_, fun s bs hb hop hp ha => ?_,
    fun s i d hi hwf => step_placeInstr_data hi hwf s⟩
  · rw [step_of_hsStart hb hop (by simp [hp])]
    exact execHsStart_of_hsWrite hp
  · rw [step_of_hsStart hb hop (by simp [hp]), execHsStart_of_hsRead (s := afterEvent s) hp ha]
    constructor <;> intro hbyte <;> rw [hbyte] <;> rfl

/-- A byte answered OK is recorded, and the attempt goes on to its read (30_encoding.md R101, 42_handshake.md R173). -/
theorem hsSend_of_bytes {s : State} {x : List Byte} (ha : nextAnswer s = .bytes x) (b : Byte) :
    hsSend b s = { dropAnswer s with history := s.history ++ [.write [b] true], phase := .hsRead } := by
  rw [hsSend, tWrite, callThen, ha]
  simp [answerOk, record]

/-- A reply is recorded, and advances the handshake's state (42_handshake.md R173 to R175). -/
theorem hsReceive_some (bs : List Byte) (s : State) :
    hsReceive (some bs) s =
      { s with
        history := s.history ++ [.read 1 (BitVec.ofNat 16 s.hsTmo.toNat) (some bs)]
        hsState := hsAdvance s.hsState bs, phase := .hsCheck } := by
  rw [BitVec.ofNat_toNat]
  rfl

theorem hsAdvance_ack (st : HsState) : hsAdvance st [ackByte] = if st = .idle then .ackReceived else st := by
  cases st <;> rfl

theorem hsAdvance_ispReady (st : HsState) :
    hsAdvance st [ispReadyByte] = if st = .ackReceived then .ispReady else st := by
  cases st <;> rfl

/-- Settles O47. -/
theorem handshakeBytesSendAndReceive : Obligations.HandshakeBytesSendAndReceive := by
  refine fun s => ⟨fun x ha => ⟨?_, ?_⟩, ?_, ?_⟩
  · exact congrArg _ (hsSend_of_bytes ha startByte)
  · exact congrArg _ (hsSend_of_bytes ha ispStartByte)
  · rw [← hsAdvance_ack]
    exact congrArg _ (hsReceive_some [ackByte] s)
  · rw [← hsAdvance_ispReady]
    exact congrArg _ (hsReceive_some [ispReadyByte] s)

end Sys2Proof.Machine
end

section
/-! LDIN as the host's writes one by one (30_encoding.md R105; 10_state.md R42, R47): its expansion (O21), and what the
raw-frame and wire-symbol rows leave in IN_BUF (O50). -/

namespace Sys2Proof.Machine

/-! ### Writes in a row -/

theorem hostWrites_append (xs ys : List Access) (s : State) :
    hostWrites (xs ++ ys) s = hostWrites ys (hostWrites xs s) := by
  induction xs generalizing s with
  | nil => rfl
  | cons x xs ih =>
    cases x with
    | rd a => exact ih s
    | wr a v => exact ih (hostWrite a v s)

/-- An address of IN_BUF's window beyond BUF_DEPTH ignores writes (20_memory.md R61, R63). -/
theorem hostWrite_inAddr_beyond {s : State} {i : Nat} (hc : s.cfg.wf) (hi : s.cfg.bufDepth ≤ i) (h4 : i < 0x4000)
    (v : Byte) : hostWrite (inAddr i) v s = s := by
  refine hostWrite_of_unmapped hc (.inr (.inr (.inl ?_))) v
  rw [toNat_inAddr h4]
  omega

/-- While BUSY = 1 the writes of a byte string leave at most OVR set (10_state.md R47). -/
theorem hostWrites_wrIn_of_busy {s : State} {i : Nat} {bs : List Byte} (hc : s.cfg.wf) (hb : s.busy = true)
    (h4 : i + bs.length ≤ 0x4000) : hostWrites (wrIn i bs) s = s ∨ hostWrites (wrIn i bs) s = dropWrite s := by
  induction bs generalizing i s with
  | nil => exact .inl rfl
  | cons b bs ih =>
    rw [List.length_cons] at h4
    simp only [wrIn, hostWrites]
    by_cases hi : i < s.cfg.bufDepth
    · rw [hostWrite_inAddr hc hi, writeIn_of_busy hb]
      rcases ih (s := dropWrite s) (i := i + 1) hc hb (by omega) with h | h <;> exact .inr h
    · rw [hostWrite_inAddr_beyond hc (by omega) (by omega)]
      exact ih hc hb (by omega)

/-- At rest the writes of a byte string store it as far as IN_BUF reaches (10_state.md R42). -/
theorem hostWrites_wrIn_of_rest {s : State} {i : Nat} {bs : List Byte} (hc : s.cfg.wf) (hb : s.busy = false)
    (h4 : i + bs.length ≤ 0x4000) :
    hostWrites (wrIn i bs) s = { s with inBuf := storeBytes s.inBuf i (bs.take (s.cfg.bufDepth - i)) } := by
  induction bs generalizing i s with
  | nil => simp [wrIn, hostWrites, storeBytes]
  | cons b bs ih =>
    rw [List.length_cons] at h4
    simp only [wrIn, hostWrites]
    by_cases hi : i < s.cfg.bufDepth
    · rw [hostWrite_inAddr hc hi, writeIn_of_rest hb]
      have hleft : s.cfg.bufDepth - i = s.cfg.bufDepth - (i + 1) + 1 := by omega
      rw [hleft]
      exact ih (s := { s with inBuf := memSet s.inBuf i b }) hc hb (by omega)
    · rw [hostWrite_inAddr_beyond hc (by omega) (by omega), ih hc hb (by omega)]
      have hnone : s.cfg.bufDepth - i = 0 := by omega
      have hnone' : s.cfg.bufDepth - (i + 1) = 0 := by omega
      rw [hnone, hnone']
      rfl

/-- `WR16 IN_LEN, n` at rest sets IN_LEN, low byte first (20_memory.md R66). -/
theorem hostWrites_inLen_of_rest {s : State} (hb : s.busy = false) (n : Half) :
    hostWrites (wr16 Reg.inLenLo.addr n) s = { s with inLen := n } := by
  have hlo : hostWrite Reg.inLenLo.addr (lo8 n) s = { s with inLen := setLo s.inLen (lo8 n) } :=
    hostWrite_addr_of_rest .inLenLo hb _
  show hostWrite Reg.inLenHi.addr (hi8 n) (hostWrite Reg.inLenLo.addr (lo8 n) s) = _
  rw [hlo]
  refine (hostWrite_addr_of_rest .inLenHi (s := { s with inLen := setLo s.inLen (lo8 n) }) hb (hi8 n)).trans ?_
  simp [writeRegNow, setHi, setLo]

theorem hostWrites_inLen_of_busy {s : State} (hb : s.busy = true) (n : Half) :
    hostWrites (wr16 Reg.inLenLo.addr n) s = dropWrite s := by
  show hostWrite Reg.inLenHi.addr (hi8 n) (hostWrite Reg.inLenLo.addr (lo8 n) s) = _
  rw [hostWrite_addr .inLenLo, writeReg_of_dropped rfl hb, hostWrite_addr]
  exact writeReg_of_dropped (s := dropWrite s) rfl hb _

/-- Settles O21: with BUSY = 1 every write is dropped, and with BUSY = 0 each one stores its byte. -/
theorem ldinIsItsExpansion : Obligations.LdinIsItsExpansion := by
  intro s bs hc hlen
  have h4 : 0 + bs.length ≤ 0x4000 := by omega
  rw [ldinAccesses, hostWrites_append]
  rcases ldin_cases bs s with ⟨hb, hldin⟩ | ⟨hb, hldin⟩ <;> rw [hldin]
  · rcases hostWrites_wrIn_of_busy hc hb h4 with h | h <;> rw [h]
    · exact hostWrites_inLen_of_busy hb _
    · exact hostWrites_inLen_of_busy (s := dropWrite s) hb _
  · rw [hostWrites_wrIn_of_rest hc hb h4]
    exact hostWrites_inLen_of_rest
      (s := { s with inBuf := storeBytes s.inBuf 0 (bs.take s.cfg.bufDepth) }) hb _

/-! ### Data rows -/

/-- A data row puts its bytes in IN_BUF, or is dropped while BUSY = 1 (30_encoding.md R105; log 8, log 12). -/
theorem exec_data_loads {i : Instr} {d : DataFormat} (hi : i.format = .data d) (s : State) :
    (s.busy = false →
      ∃ t, exec i s = .next t ∧
        Stored s.inBuf t.inBuf ((Sys2Proof.encode Config.wireLayout i).take s.cfg.bufDepth) ∧
        t = { s with
          inBuf := t.inBuf, inLen := BitVec.ofNat 16 (Sys2Proof.encode Config.wireLayout i).length }) ∧
      (s.busy = true → exec i s = .next { s with ovr := true }) := by
  rw [exec_data hi]
  rcases ldin_cases (Sys2Proof.encode Config.wireLayout i) s with ⟨hb, hldin⟩ | ⟨hb, hldin⟩ <;> rw [hldin]
  · exact ⟨fun hfree => by simp [hb] at hfree, fun _ => rfl⟩
  · exact ⟨fun _ => ⟨_, rfl, storeBytes_stored _ _, rfl⟩, fun hbusy => by simp [hb] at hbusy⟩

/-- The bytes of a raw frame (30_encoding.md R95). -/
theorem encode_frameHeader (L : WireLayout) (seq chk : Byte) (len crc : Half) (payload : List Byte) :
    Sys2Proof.encode L (.frameHeader seq len chk payload crc) =
      [0x52, seq, BitVec.ofNat 8 (len.toNat / 256), BitVec.ofNat 8 (len.toNat % 256), chk] ++ payload ++
        [BitVec.ofNat 8 (crc.toNat / 256), BitVec.ofNat 8 (crc.toNat % 256)] := by
  simp only [← hi8_eq_ofNat, ← lo8_eq_ofNat]
  rfl

/-- Settles O50: the bytes are those of the row's encoding. -/
theorem frameSymbolsAreLoaded : Obligations.FrameSymbolsAreLoaded := by
  rintro i bs (⟨rfl, rfl⟩ | ⟨rfl, rfl⟩ | ⟨rfl, rfl⟩ | ⟨rfl, rfl⟩ | ⟨seq, chk, len, crc, payload, rfl, rfl⟩) s
  · exact exec_data_loads rfl s
  · exact exec_data_loads rfl s
  · exact exec_data_loads rfl s
  · exact exec_data_loads rfl s
  · rw [← encode_frameHeader Config.wireLayout]
    exact exec_data_loads rfl s

end Sys2Proof.Machine
end

section
/-! The checksum functions (40_checksums.md R120 to R123): the sums as numbers (O22, O23), the CRC registers one byte at a
time (O25) and their residues (O24), and the operations that set RESULT to them (O26). -/

namespace Sys2Proof.Machine

/-! ### Sums -/

/-- 40_checksums.md R121. -/
theorem toNat_sum8 (xs : List Byte) : (sum8 xs).toNat = 0xFF - (xs.map BitVec.toNat).sum % 256 := by
  rw [sum8, byteSum, BitVec.toNat_ofNat]
  omega

/-- Only the low 8 bits of the sum matter (40_checksums.md R121). -/
theorem sum8_eq_not (xs : List Byte) : sum8 xs = ~~~ BitVec.ofNat 8 (xs.map BitVec.toNat).sum := by
  apply BitVec.eq_of_toNat_eq
  rw [toNat_sum8, BitVec.toNat_not, BitVec.toNat_ofNat]

theorem sum8_eq_zero_iff (xs : List Byte) : sum8 xs = 0x00 ↔ (xs.map BitVec.toNat).sum % 256 = 0xFF := by
  rw [← BitVec.toNat_inj, toNat_sum8, BitVec.ofNat_eq_ofNat, BitVec.toNat_zero]
  omega

/-- Settles O22. -/
theorem sumChecksumIsComplementOfSum : Obligations.SumChecksumIsComplementOfSum :=
  ⟨fun xs => ⟨toNat_sum8 xs, sum8_eq_not xs, sum8_eq_zero_iff xs⟩, rfl, rfl⟩

/-- 40_checksums.md R122. -/
theorem toNat_headerChecksum_twos (xs : List Byte) :
    (headerChecksum .twos xs).toNat = (0x100 - (xs.map BitVec.toNat).sum % 256) % 256 := by
  rw [headerChecksum, byteSum, BitVec.toNat_ofNat, Nat.mod_mod]

theorem headerChecksum_ones (xs : List Byte) : headerChecksum .ones xs = sum8 xs := rfl

theorem headerChecksum_twos_eq_ones_add_one (xs : List Byte) :
    headerChecksum .twos xs = headerChecksum .ones xs + 1 := by
  have hone : (1 : Byte).toNat = 1 := rfl
  apply BitVec.eq_of_toNat_eq
  rw [toNat_headerChecksum_twos, headerChecksum_ones, BitVec.toNat_add, toNat_sum8, hone]
  omega

/-- Settles O23. -/
theorem headerChecksumVariants : Obligations.HeaderChecksumVariants := by
  refine ⟨fun xs => ⟨toNat_headerChecksum_twos xs, headerChecksum_ones xs, ?_, ?_,
    headerChecksum_twos_eq_ones_add_one xs⟩, rfl, rfl⟩
  · rw [toNat_headerChecksum_twos]
    omega
  · rw [headerChecksum_ones, toNat_sum8]
    omega

/-! ### CRC registers, byte by byte -/

theorem crc16_concat (xs : List Byte) (b : Byte) : crc16 (xs ++ [b]) = crc16Byte (crc16 xs) b := List.foldl_concat ..

theorem crc8_concat (xs : List Byte) (b : Byte) : crc8 (xs ++ [b]) = crc8Byte (crc8 xs) b := List.foldl_concat ..

/-- The bit shifted out is 1 when the register is 0x8000 or more (40_checksums.md R120). -/
theorem crc16Bit_eq_ite (c : Half) :
    crc16Bit c = if 0x8000 ≤ c.toNat then (c <<< 1) ^^^ 0x1021#16 else c <<< 1 := by
  have hout : c.getLsbD 15 = decide (0x8000 ≤ c.toNat) := BitVec.msb_eq_decide c
  simp only [crc16Bit, hout, decide_eq_true_eq]

/-- The bit shifted out is 1 when the register is 0x80 or more (40_checksums.md R123). -/
theorem crc8Bit_eq_ite (c : Byte) : crc8Bit c = if 0x80 ≤ c.toNat then (c <<< 1) ^^^ 0xD5#8 else c <<< 1 := by
  have hout : c.getLsbD 7 = decide (0x80 ≤ c.toNat) := BitVec.msb_eq_decide c
  simp only [crc8Bit, hout, decide_eq_true_eq]

theorem crc16Bits_eq_foldl (n : Nat) (c : Half) :
    crc16Bits n c = (List.range n).foldl (fun c _ => crc16Bit c) c := by
  rw [List.foldl_const, List.length_range]
  induction n generalizing c with
  | zero => rfl
  | succ n ih => exact ih (crc16Bit c)

theorem crc8Bits_eq_foldl (n : Nat) (c : Byte) : crc8Bits n c = (List.range n).foldl (fun c _ => crc8Bit c) c := by
  rw [List.foldl_const, List.length_range]
  induction n generalizing c with
  | zero => rfl
  | succ n ih => exact ih (crc8Bit c)

/-- A byte XORed into bits 15:8 stands for 256 times its number. -/
theorem setWidth_shiftLeft_eight (b : Byte) : b.setWidth 16 <<< 8 = BitVec.ofNat 16 (b.toNat * 256) := by
  apply BitVec.eq_of_toNat_eq
  simp [Nat.shiftLeft_eq]

/-- Settles O25. -/
theorem crcRegistersByteByByte : Obligations.CrcRegistersByteByByte := by
  refine ⟨rfl, rfl, fun xs b => ?_, fun xs b => ?_⟩
  · simp only [crc16_concat, crc16Byte, setWidth_shiftLeft_eight, crc16Bits_eq_foldl, crc16Bit_eq_ite]
  · simp only [crc8_concat, crc8Byte, crc8Bits_eq_foldl, crc8Bit_eq_ite]

/-! ### Residues -/

/-- While only zeros leave the register, its bits are shifted and no polynomial is XORed in. -/
theorem crc16Bits_eq_shiftLeft (n : Nat) (c : Half) (hc : c.toNat * 2 ^ n < 2 ^ 16) : crc16Bits n c = c <<< n := by
  induction n generalizing c with
  | zero => exact (BitVec.shiftLeft_zero c).symm
  | succ n ih =>
    rw [Nat.pow_succ', ← Nat.mul_assoc] at hc
    have htop : c.toNat * 2 < 2 ^ 16 := Nat.lt_of_le_of_lt (Nat.le_mul_of_pos_right _ (Nat.two_pow_pos n)) hc
    have hdouble : (c <<< 1).toNat = c.toNat * 2 := by
      rw [BitVec.toNat_shiftLeft, Nat.shiftLeft_eq]
      omega
    rw [crc16Bits, crc16Bit_eq_ite, if_neg (by omega), ih _ (by rwa [hdouble]), ← BitVec.shiftLeft_add, Nat.add_comm 1]

/-- The high byte of the register cancels in bits 15:8. -/
theorem xor_hi8 (c : Half) : c ^^^ ((hi8 c).setWidth 16 <<< 8) = (lo8 c).setWidth 16 := by
  refine BitVec.eq_of_getLsbD_eq fun i hi => ?_
  by_cases h8 : i < 8
  · simp [lo8, h8, hi]
  · have hc : 8 + (i - 8) = i := by omega
    have hlt : i - 8 < 8 := by omega
    simp [hi8, lo8, h8, hi, hc, hlt]

/-- The register's own high byte leaves its low byte, on top. -/
theorem crc16Byte_hi8 (c : Half) : crc16Byte c (hi8 c) = (lo8 c).setWidth 16 <<< 8 := by
  rw [crc16Byte, xor_hi8]
  apply crc16Bits_eq_shiftLeft
  have := (lo8 c).isLt
  rw [BitVec.toNat_setWidth]
  omega

/-- A register that holds one byte on top is cleared by that byte. -/
theorem crc16Byte_of_top (b : Byte) : crc16Byte (b.setWidth 16 <<< 8) b = 0x0000 := by
  rw [crc16Byte, BitVec.xor_self]
  rfl

theorem crc8Byte_self (c : Byte) : crc8Byte c c = 0x00 := by
  rw [crc8Byte, BitVec.xor_self]
  rfl

theorem crc16_append_crc16 (xs : List Byte) : crc16 (xs ++ be16 (crc16 xs)) = 0x0000 := by
  rw [be16, List.append_cons, crc16_concat, crc16_concat, crc16Byte_hi8, crc16Byte_of_top]

theorem crc8_append_crc8 (xs : List Byte) : crc8 (xs ++ [crc8 xs]) = 0x00 := by
  rw [crc8_concat, crc8Byte_self]

/-- Settles O24: the appended bytes meet their own copy in the register, and clear it. -/
theorem appendedCrcGivesZero : Obligations.AppendedCrcGivesZero :=
  ⟨crc16_append_crc16, crc8_append_crc8, fun v seq p => crc16_append_crc16 (frameHead v seq p)⟩

/-! ### Operations -/

/-- With its input written and within range, a checksum operation sets RESULT (40_checksums.md R129). -/
theorem checksumOp_of_holds {s : State} {xs : List Byte} (h : HoldsInput s xs) (f : Config → List Byte → Half) :
    checksumOp f s = .next (complete .none { s with result := f s.cfg xs }) :=
  withInput_of_holds h _

/-- Settles O26. -/
theorem checksumOperationsSetResult : Obligations.ChecksumOperationsSetResult := by
  intro s xs h
  simp only [← toNat_sum8, BitVec.ofNat_toNat]
  exact ⟨checksumOp_of_holds h fun _ xs => (sum8 xs).setWidth 16,
    checksumOp_of_holds h fun c xs => (headerChecksum c.hdrVariant xs).setWidth 16,
    checksumOp_of_holds h fun _ xs => (crc8 xs).setWidth 16, checksumOp_of_holds h fun _ xs => crc16 xs⟩

end Sys2Proof.Machine
end

section
/-! The wire codec (41_frame_codec.md R144 to R150): Encode and Decode as inverses (O27), Encode's tokens (O29) and
lengths (O28), and the errors of Decode in order (O30). -/

namespace Sys2Proof.Machine

/-! ### Escapes -/

theorem escape_cons (b : Byte) (bs : List Byte) : escape (b :: bs) = escapeByte b ++ escape bs := List.flatMap_cons

theorem escape_append (xs ys : List Byte) : escape (xs ++ ys) = escape xs ++ escape ys := List.flatMap_append

theorem escape_singleton (b : Byte) : escape [b] = escapeByte b := List.append_nil _

theorem escapeByte_plain {b : Byte} (h1 : b ≠ delimByte) (h2 : b ≠ escByte) : escapeByte b = [b] := by
  rw [escapeByte, if_neg h1, if_neg h2]

/-- An escaped byte is decoded to itself, whatever follows (30_encoding.md R98, 41_frame_codec.md R148). -/
theorem unescape_escapeByte_append (b : Byte) (w : List Byte) :
    unescape (escapeByte b ++ w) = consDecoded b (unescape w) := by
  by_cases h1 : b = delimByte
  · subst h1
    exact unescape_escDelim w
  · by_cases h2 : b = escByte
    · subst h2
      exact unescape_escEsc w
    · rw [escapeByte_plain h1 h2]
      exact unescape_plain h1 h2 w

theorem unescape_escape_append (r w : List Byte) : unescape (escape r ++ w) = r.foldr consDecoded (unescape w) := by
  induction r with
  | nil => rfl
  | cons b r ih => rw [escape_cons, List.append_assoc, unescape_escapeByte_append, ih, List.foldr_cons]

theorem foldr_consDecoded_ok (r : List Byte) : r.foldr consDecoded (.ok []) = .ok r := by
  induction r with
  | nil => rfl
  | cons b r ih => rw [List.foldr_cons, ih, consDecoded]

theorem foldr_consDecoded_error (r : List Byte) (e : ErrCode) : r.foldr consDecoded (.error e) = .error e := by
  induction r with
  | nil => rfl
  | cons b r ih => rw [List.foldr_cons, ih, consDecoded]

theorem unescape_escape (r : List Byte) : unescape (escape r) = .ok r := by
  rw [← List.append_nil (escape r), unescape_escape_append]
  exact foldr_consDecoded_ok r

/-- A body is an escaped string, or one up to where the loop of Decode meets its first error (41_frame_codec.md R148,
R150). -/
theorem exists_escaped_start (w : List Byte) :
    ∃ r rest, w = escape r ++ rest ∧ (rest = [] ∨ ∃ e, unescape rest = .error e ∧ e ≠ .decDelim) := by
  induction w using unescape.induct with
  | case1 => exact ⟨[], [], rfl, .inl rfl⟩
  | case2 => exact ⟨[], _, rfl, .inr ⟨_, unescape_delim [], by decide⟩⟩
  | case3 => exact ⟨[], _, rfl, .inr ⟨_, unescape_trunc, by decide⟩⟩
  | case4 b h1 h2 => exact ⟨[b], [], by rw [escape_singleton, escapeByte_plain h1 h2]; rfl, .inl rfl⟩
  | case5 c w => exact ⟨[], _, rfl, .inr ⟨_, unescape_delim (c :: w), by decide⟩⟩
  | case6 w _ ih =>
    obtain ⟨r, rest, rfl, hrest⟩ := ih
    exact ⟨delimByte :: r, rest, rfl, hrest⟩
  | case7 w _ _ ih =>
    obtain ⟨r, rest, rfl, hrest⟩ := ih
    exact ⟨escByte :: r, rest, rfl, hrest⟩
  | case8 c w h1 h2 => exact ⟨[], _, rfl, .inr ⟨_, unescape_badEsc h1 h2 w, by decide⟩⟩
  | case9 b c w h1 h2 ih =>
    obtain ⟨r, rest, hw, hrest⟩ := ih
    exact ⟨b :: r, rest, by rw [escape_cons, escapeByte_plain h1 h2, hw]; rfl, hrest⟩

/-- The escaped form is unique, and inside the body no missing delimiter is reported (41_frame_codec.md R148, R149). -/
theorem unescape_cases (w : List Byte) :
    (∃ r, unescape w = .ok r ∧ w = escape r) ∨ ∃ e, unescape w = .error e ∧ e ≠ .decDelim := by
  obtain ⟨r, rest, rfl, rfl | ⟨e, he, hne⟩⟩ := exists_escaped_start w
  · exact .inl ⟨r, by rw [List.append_nil, unescape_escape], List.append_nil _⟩
  · exact .inr ⟨e, by rw [unescape_escape_append, he, foldr_consDecoded_error], hne⟩

/-! ### Bodies -/

/-- What Encode puts between its two delimiters (41_frame_codec.md R144); `wireEncode_eq` ties it to Encode. -/
def encodeBody : List Byte → List Byte
  | [] => []
  | b :: bs => b :: escape bs

theorem wireEncode_eq (r : List Byte) : wireEncode r = delimByte :: (encodeBody r ++ [delimByte]) := by
  cases r <;> rfl

theorem decodeBody_encodeBody (r : List Byte) : decodeBody (encodeBody r) = .ok r := by
  cases r with
  | nil => rfl
  | cons b bs => rw [encodeBody, decodeBody, unescape_escape, consDecoded]

/-- What a body can decode to (41_frame_codec.md R148, R149). -/
theorem decodeBody_cases (w : List Byte) :
    (∃ r, decodeBody w = .ok r ∧ w = encodeBody r) ∨ ∃ e, decodeBody w = .error e ∧ e ≠ .decDelim := by
  cases w with
  | nil => exact .inl ⟨[], rfl, rfl⟩
  | cons b w =>
    rw [decodeBody]
    rcases unescape_cases w with ⟨r, hr, rfl⟩ | ⟨e, he, hne⟩
    · exact .inl ⟨b :: r, by rw [hr, consDecoded], rfl⟩
    · exact .inr ⟨e, by rw [he, consDecoded], hne⟩

theorem eq_encodeBody_of_decodeBody {w r : List Byte} (h : decodeBody w = .ok r) : w = encodeBody r := by
  rcases decodeBody_cases w with ⟨r', hr, hw⟩ | ⟨e, he, -⟩
  · rw [hr] at h
    cases h
    exact hw
  · rw [he] at h
    cases h

theorem decodeBody_ne_decDelim (w : List Byte) : decodeBody w ≠ .error .decDelim := by
  rcases decodeBody_cases w with ⟨r, hr, -⟩ | ⟨e, he, hne⟩
  · rw [hr]
    exact nofun
  · rw [he]
    exact fun h => hne (Except.error.inj h)

/-! ### Decode after Encode, and Encode after Decode -/

/-- Two bytes or more, the first and the last a delimiter (41_frame_codec.md R148). -/
theorem eq_delimited {w : List Byte}
    (h : ¬(w.length < 2 ∨ w.head? ≠ some delimByte ∨ w.getLast? ≠ some delimByte)) :
    ∃ body, w = delimByte :: (body ++ [delimByte]) := by
  simp only [not_or, not_not] at h
  obtain ⟨hlen, hhead, hlast⟩ := h
  obtain ⟨w, rfl⟩ := List.head?_eq_some_iff.1 hhead
  have hne : w ≠ [] := by
    rintro rfl
    exact hlen (by decide)
  rw [List.getLast?_cons_of_ne_nil hne] at hlast
  obtain ⟨body, rfl⟩ := List.getLast?_eq_some_iff.1 hlast
  exact ⟨body, rfl⟩

theorem wireDecode_delimited (body : List Byte) :
    wireDecode (delimByte :: (body ++ [delimByte])) = decodeBody body := by
  have hlast : (delimByte :: (body ++ [delimByte])).getLast? = some delimByte :=
    List.getLast?_concat (l := delimByte :: body)
  rw [wireDecode, if_neg (by simp [hlast]), List.drop_one, List.tail_cons, List.dropLast_concat]

theorem wireDecode_wireEncode (p : List Byte) : wireDecode (wireEncode p) = .ok p := by
  rw [wireEncode_eq, wireDecode_delimited, decodeBody_encodeBody]

theorem eq_delimited_of_wireDecode {w r : List Byte} (h : wireDecode w = .ok r) :
    ∃ body, w = delimByte :: (body ++ [delimByte]) := by
  refine eq_delimited fun hbad => ?_
  rw [wireDecode, if_pos hbad] at h
  cases h

theorem wireEncode_of_wireDecode {w r : List Byte} (h : wireDecode w = .ok r) : wireEncode r = w := by
  obtain ⟨body, rfl⟩ := eq_delimited_of_wireDecode h
  rw [wireDecode_delimited] at h
  rw [wireEncode_eq, ← eq_encodeBody_of_decodeBody h]

/-- Settles O27. -/
theorem wireDecodeInvertsWireEncode : Obligations.WireDecodeInvertsWireEncode := by
  refine ⟨wireDecode_wireEncode, fun w r => wireEncode_of_wireDecode, fun w => ⟨?_, ?_⟩⟩
  · rintro ⟨r, h⟩
    exact ⟨r, (wireEncode_of_wireDecode h).symm⟩
  · rintro ⟨p, rfl⟩
    exact ⟨p, wireDecode_wireEncode p⟩

/-! ### Encode byte by byte -/

theorem encodeBody_concat {r : List Byte} (hr : r ≠ []) (b : Byte) :
    encodeBody (r ++ [b]) = encodeBody r ++ escapeByte b := by
  obtain ⟨a, bs, rfl⟩ := List.exists_cons_of_ne_nil hr
  show a :: escape (bs ++ [b]) = a :: escape bs ++ escapeByte b
  rw [escape_append, escape_singleton, List.cons_append]

theorem dropLast_wireEncode (r : List Byte) : (wireEncode r).dropLast = delimByte :: encodeBody r := by
  rw [wireEncode_eq, ← List.cons_append, List.dropLast_concat]

/-- Settles O29. -/
theorem encodeAppendsOneToken : Obligations.EncodeAppendsOneToken := by
  refine ⟨rfl, fun b => rfl, fun r b hr => ?_⟩
  rw [wireEncode_eq, encodeBody_concat hr, dropLast_wireEncode]
  rfl

/-! ### Lengths -/

/-- The two bytes that Encode escapes (30_encoding.md R98). -/
def escaped (b : Byte) : Bool := b = delimByte || b = escByte

theorem length_escapeByte (b : Byte) : (escapeByte b).length = 1 + if escaped b then 1 else 0 := by
  by_cases h1 : b = delimByte
  · subst h1
    rfl
  · by_cases h2 : b = escByte
    · subst h2
      rfl
    · simp [escapeByte_plain h1 h2, escaped, h1, h2]

theorem length_escape (bs : List Byte) : (escape bs).length = bs.length + bs.countP escaped := by
  induction bs with
  | nil => rfl
  | cons b bs ih =>
    rw [escape_cons, List.length_append, length_escapeByte, ih, List.countP_cons, List.length_cons]
    omega

theorem length_wireEncode_cons (b : Byte) (bs : List Byte) :
    (wireEncode (b :: bs)).length = bs.length + bs.countP escaped + 3 := by
  simp [wireEncode, length_escape]

/-- 41_frame_codec.md R146. -/
theorem length_wireEncode_bounds {r : List Byte} (hr : 1 ≤ r.length) :
    r.length + 2 ≤ (wireEncode r).length ∧ (wireEncode r).length ≤ 2 * r.length + 1 := by
  obtain ⟨b, bs, rfl⟩ := List.exists_cons_of_length_pos hr
  have := bs.countP_le_length (p := escaped)
  rw [length_wireEncode_cons, List.length_cons]
  omega

theorem length_wireEncode_eq_iff {r : List Byte} (hr : 1 ≤ r.length) :
    (wireEncode r).length = 2 * r.length + 1 ↔ ∀ b ∈ r.tail, b = delimByte ∨ b = escByte := by
  obtain ⟨b, bs, rfl⟩ := List.exists_cons_of_length_pos hr
  have hall : bs.countP escaped = bs.length ↔ ∀ b ∈ bs, b = delimByte ∨ b = escByte := by
    simp [List.countP_eq_length, escaped]
  rw [length_wireEncode_cons, List.length_cons, List.tail_cons, ← hall]
  omega

theorem length_frameHead (v : HdrVariant) (seq : Byte) (p : List Byte) : (frameHead v seq p).length = p.length + 5 := by
  simp only [frameHead, List.length_append, length_be16, List.length_cons, List.length_nil]
  omega

theorem length_buildRaw (v : HdrVariant) (seq : Byte) (p : List Byte) : (buildRaw v seq p).length = p.length + 7 := by
  rw [buildRaw, List.length_append, length_frameHead, length_be16]

/-- Settles O28. -/
theorem wireFrameLengthBounds : Obligations.WireFrameLengthBounds := by
  refine ⟨fun r hr => ?_, fun v seq p => ?_⟩
  · obtain ⟨hlo, hhi⟩ := length_wireEncode_bounds hr
    exact ⟨hlo, hhi, length_wireEncode_eq_iff hr⟩
  · have hraw := length_buildRaw v seq p
    obtain ⟨hlo, hhi⟩ := length_wireEncode_bounds (r := buildRaw v seq p) (by omega)
    refine ⟨by omega, by omega, ?_, fun hp => ?_, by omega⟩
    · rintro rfl
      rw [List.length_nil] at hraw
      omega
    · cases p with
      | nil => decide
      | cons b p =>
        have := (length_wireEncode_bounds (r := b :: p) (by simp)).2
        omega

/-! ### Errors -/

theorem wireDecode_eq_decDelim_iff (w : List Byte) :
    wireDecode w = .error .decDelim ↔ w.length < 2 ∨ w.head? ≠ some delimByte ∨ w.getLast? ≠ some delimByte := by
  unfold wireDecode
  split
  case isTrue hbad => exact iff_of_true rfl hbad
  case isFalse hgood => exact iff_of_false (decodeBody_ne_decDelim _) hgood

/-- After a start that decodes, which is an encoded body, the first error is the rest's (41_frame_codec.md R150). -/
theorem wireDecode_error_after {good r w : List Byte} {e : ErrCode} (hne : good ≠ [])
    (hgood : wireDecode (delimByte :: (good ++ [delimByte])) = .ok r) (hw : unescape w = .error e) :
    wireDecode (delimByte :: (good ++ w ++ [delimByte])) = .error e := by
  rw [wireDecode_delimited] at hgood ⊢
  obtain rfl := eq_encodeBody_of_decodeBody hgood
  cases r with
  | nil => exact absurd rfl hne
  | cons b bs =>
    show consDecoded b (unescape (escape bs ++ w)) = .error e
    rw [unescape_escape_append, hw, foldr_consDecoded_error, consDecoded]

/-- Settles O30. -/
theorem decodeErrorsInOrder : Obligations.DecodeErrorsInOrder := by
  refine ⟨wireDecode_eq_decDelim_iff, fun good r tail hne hgood => ⟨?_, fun c h1 h2 => ?_, ?_⟩⟩
  · rw [List.append_assoc good]
    exact wireDecode_error_after hne hgood (unescape_delim tail)
  · rw [List.append_assoc good]
    exact wireDecode_error_after hne hgood (unescape_badEsc h1 h2 tail)
  · exact wireDecode_error_after hne hgood unescape_trunc

end Sys2Proof.Machine
end

section
/-! Verify and the frame codec's operations (41_frame_codec.md): each check of Verify and the built frames that pass
them (O31), and what NOP (O32), BUILD (O33), ENCODE and FRAME (O34), DECODE (O35) and VERIFY (O36) leave. -/

namespace Sys2Proof.Machine

/-! ### Raw frames -/

/-- The raw frame byte by byte (30_encoding.md R95). -/
theorem frameHead_eq (v : HdrVariant) (seq : Byte) (p : List Byte) :
    frameHead v seq p =
      [0x52, seq, BitVec.ofNat 8 (p.length / 256), BitVec.ofNat 8 (p.length % 256),
        headerChecksum v [seq, BitVec.ofNat 8 (p.length / 256), BitVec.ofNat 8 (p.length % 256)]] ++ p := by
  have hhi : hi8 (BitVec.ofNat 16 p.length) = BitVec.ofNat 8 (p.length / 256) := by
    rw [hi8_eq_ofNat]
    apply BitVec.eq_of_toNat_eq
    simp only [BitVec.toNat_ofNat]
    omega
  have hlo : lo8 (BitVec.ofNat 16 p.length) = BitVec.ofNat 8 (p.length % 256) := by
    rw [lo8_eq_ofNat]
    apply BitVec.eq_of_toNat_eq
    simp only [BitVec.toNat_ofNat]
    omega
  rw [← hhi, ← hlo]
  rfl

/-! ### Verify check by check -/

theorem take_two_drop {f : List Byte} {i : Nat} (h : i + 2 ≤ f.length) :
    (f.drop i).take 2 = [f.getD i 0, f.getD (i + 1) 0] := by
  have h0 : i < f.length := by omega
  have h1 : i + 1 < f.length := by omega
  rw [List.drop_eq_getElem_cons h0, List.drop_eq_getElem_cons h1, List.take_succ_cons, List.take_succ_cons,
    List.take_zero, List.getD_eq_getElem _ _ h0, List.getD_eq_getElem _ _ h1]

/-- Two bytes stand for a number, high byte first (00_scope.md R9). -/
theorem high_low_eq_iff (hi lo : Byte) (n : Nat) :
    hi.toNat * 256 + lo.toNat = n ↔ [hi, lo] = [BitVec.ofNat 8 (n / 256), BitVec.ofNat 8 (n % 256)] ∧ n < 65536 := by
  have := hi.isLt
  have := lo.isLt
  simp only [List.cons.injEq, and_true, ← BitVec.toNat_inj, BitVec.toNat_ofNat]
  omega

section
variable {f : List Byte} {n : Nat}

theorem verifyFrame_short (v : HdrVariant) (hf : f.length < 7) : verifyFrame v f = VFlags.zero := if_pos hf

/-- Verify of a frame with `n` payload bytes (41_frame_codec.md R155). -/
theorem verifyFrame_long (v : HdrVariant) (hf : f.length = n + 7) :
    verifyFrame v f =
      let hdr := decide (f.getD 0 0 = headerByte)
      let hchk := decide (f.getD 4 0 = headerChecksum v (f.extract 1 4))
      let len := decide ((f.getD 2 0).toNat * 256 + (f.getD 3 0).toNat = n)
      let crc := decide ((f.getD (n + 5) 0).toNat * 256 + (f.getD (n + 6) 0).toNat = (crc16 (f.take (n + 5))).toNat)
      { hdrOk := hdr, hchkOk := hchk, lenOk := len, crcOk := crc, allOk := hdr && hchk && len && crc
        sizeOk := true } := by
  simp only [verifyFrame, hf, if_neg (show ¬n + 7 < 7 by omega)]
  rfl

theorem verifyFrame_hdrOk (v : HdrVariant) (hf : f.length = n + 7) :
    (verifyFrame v f).hdrOk = true ↔ f[0]? = some 0x52 := by
  rw [verifyFrame_long v hf, decide_eq_true_iff]
  simp [List.getElem?_eq_getElem (show 0 < f.length by omega), headerByte]

theorem verifyFrame_hchkOk (v : HdrVariant) (hf : f.length = n + 7) :
    (verifyFrame v f).hchkOk = true ↔ f[4]? = some (headerChecksum v (f.extract 1 4)) := by
  rw [verifyFrame_long v hf, decide_eq_true_iff]
  simp [List.getElem?_eq_getElem (show 4 < f.length by omega)]

theorem verifyFrame_lenOk (v : HdrVariant) (hf : f.length = n + 7) :
    (verifyFrame v f).lenOk = true ↔
      f.extract 2 4 = [BitVec.ofNat 8 (n / 256), BitVec.ofNat 8 (n % 256)] ∧ n < 65536 := by
  have hfield : f.extract 2 4 = [f.getD 2 0, f.getD 3 0] := take_two_drop (by omega)
  rw [verifyFrame_long v hf, decide_eq_true_iff, high_low_eq_iff, hfield]

theorem verifyFrame_crcOk (v : HdrVariant) (hf : f.length = n + 7) :
    (verifyFrame v f).crcOk = true ↔
      f.drop (n + 5) = [hi8 (crc16 (f.take (n + 5))), lo8 (crc16 (f.take (n + 5)))] := by
  have hlen : (f.drop (n + 5)).length = 2 := by rw [List.length_drop]; omega
  have hfield : f.drop (n + 5) = [f.getD (n + 5) 0, f.getD (n + 6) 0] := by
    rw [← take_two_drop (by omega), List.take_of_length_le hlen.le]
  rw [verifyFrame_long v hf, decide_eq_true_iff, high_low_eq_iff, hfield, hi8_eq_ofNat, lo8_eq_ofNat,
    and_iff_left (BitVec.isLt _)]

theorem verifyFrame_sizeOk (v : HdrVariant) (hf : f.length = n + 7) : (verifyFrame v f).sizeOk = true := by
  rw [verifyFrame_long v hf]

end

/-- Every built frame passes (41_frame_codec.md R155). -/
theorem verifyFrame_buildRaw (v : HdrVariant) (seq : Byte) {p : List Byte} (hp : p.length ≤ 65535) :
    (verifyFrame v (buildRaw v seq p)).toByte = 0x3F := by
  have hlen := length_buildRaw v seq p
  have hhead := length_frameHead v seq p
  have hbytes : buildRaw v seq p = frameHead v seq p ++ be16 (crc16 (frameHead v seq p)) := rfl
  have hdrOk : (verifyFrame v (buildRaw v seq p)).hdrOk = true := (verifyFrame_hdrOk v hlen).2 rfl
  have hchkOk : (verifyFrame v (buildRaw v seq p)).hchkOk = true := (verifyFrame_hchkOk v hlen).2 rfl
  have lenOk : (verifyFrame v (buildRaw v seq p)).lenOk = true := by
    refine (verifyFrame_lenOk v hlen).2 ⟨?_, by omega⟩
    rw [hbytes, frameHead_eq]
    rfl
  have crcOk : (verifyFrame v (buildRaw v seq p)).crcOk = true := by
    rw [verifyFrame_crcOk v hlen, hbytes, ← hhead, List.drop_left, List.take_left]
    rfl
  have sizeOk := verifyFrame_sizeOk v hlen
  have allOk := verifyFrame_allOk v (buildRaw v seq p)
  rw [hdrOk, hchkOk, lenOk, crcOk, sizeOk] at allOk
  rw [VFlags.toByte, hdrOk, hchkOk, lenOk, crcOk, allOk, sizeOk]
  rfl

/-- Settles O31. -/
theorem verifyChecksTheFrame : Obligations.VerifyChecksTheFrame := by
  refine ⟨fun v f hf => ?_, fun v f n hf => ?_, fun v f n hn => getLsbD_vflagsByte _ hn, fun v seq p hp => ?_⟩
  · rw [verifyFrame_short v hf]
    rfl
  · have allOk := verifyFrame_allOk v f
    rw [verifyFrame_sizeOk v hf, Bool.and_true] at allOk
    exact ⟨verifyFrame_hdrOk v hf, verifyFrame_hchkOk v hf, verifyFrame_lenOk v hf, verifyFrame_crcOk v hf,
      verifyFrame_sizeOk v hf, allOk⟩
  · exact verifyFrame_buildRaw v seq hp

/-! ### Operations -/

/-- Settles O32. -/
theorem nopOnlyCompletes : Obligations.NopOnlyCompletes := fun _ => rfl

/-- An output that fits OUT_BUF is committed, and nothing else is written (41_frame_codec.md R141). -/
theorem commit_of_fits {c : ErrCode} {o : List Byte} {s : State} (h : o.length ≤ s.cfg.bufDepth) :
    Stored s.outBuf (commit c o s).outBuf o ∧
      commit c o s = complete c { s with outBuf := (commit c o s).outBuf, outLen := BitVec.ofNat 16 o.length } := by
  rcases commit_cases c o s with ⟨hlong, -⟩ | ⟨-, hcommit⟩
  · omega
  · rw [hcommit]
    exact ⟨storeBytes_stored _ _, rfl⟩

theorem commit_of_overflow {c : ErrCode} {o : List Byte} {s : State} (h : s.cfg.bufDepth < o.length) :
    commit c o s = complete .outOvf s := if_pos h

/-- An operation that commits `o` either stores it or overflows (41_frame_codec.md R141). -/
theorem next_commit {i : Instr} {s : State} {o : List Byte} (h : exec i s = .next (commit .none o s)) :
    (o.length ≤ s.cfg.bufDepth →
      ∃ t, exec i s = .next t ∧ Stored s.outBuf t.outBuf o ∧
        t = complete .none { s with outBuf := t.outBuf, outLen := BitVec.ofNat 16 o.length }) ∧
      (s.cfg.bufDepth < o.length → exec i s = .next (complete .outOvf s)) :=
  ⟨fun hfits => ⟨_, h, commit_of_fits hfits⟩, fun hlong => by rw [h, commit_of_overflow hlong]⟩

theorem exec_build {s : State} {xs : List Byte} (h : HoldsInput s xs) :
    exec .build s = .next (commit .none (buildRaw s.cfg.hdrVariant s.seq xs) s) := by
  show execBuild s = _
  rw [execBuild, withInput_of_holds h]

theorem exec_encode {s : State} {xs : List Byte} (h : HoldsInput s xs) :
    exec .encode s = .next (commit .none (wireEncode xs) s) := by
  show execEncode s = _
  rw [execEncode, withInput_of_holds h]

theorem exec_frame {s : State} {xs : List Byte} (h : HoldsInput s xs) :
    exec .frame s = .next (commit .none (wireEncode (buildRaw s.cfg.hdrVariant s.seq xs)) s) := by
  show execFrame s = _
  rw [execFrame, withInput_of_holds h]

theorem exec_decode_of_error {s : State} {xs : List Byte} {e : ErrCode} (h : HoldsInput s xs)
    (he : wireDecode xs = .error e) : exec .decode s = .next (complete e s) := by
  show execDecode s = _
  rw [execDecode, withInput_of_holds h, he]

theorem exec_decode_of_ok {s : State} {xs r : List Byte} (h : HoldsInput s xs) (hr : wireDecode xs = .ok r) :
    exec .decode s = .next (decodeOk r s) := by
  show execDecode s = _
  rw [execDecode, withInput_of_holds h, hr]

/-- Settles O33. -/
theorem buildWritesTheRawFrame : Obligations.BuildWritesTheRawFrame := by
  intro s xs _ h
  have hcommit := next_commit (exec_build h)
  rw [length_buildRaw, buildRaw, frameHead_eq] at hcommit
  exact hcommit

/-- Settles O34. -/
theorem encodeAndFrameWriteTheWireFrame : Obligations.EncodeAndFrameWriteTheWireFrame := by
  rintro s xs h i o (⟨rfl, rfl⟩ | ⟨rfl, rfl⟩)
  · exact next_commit (exec_encode h)
  · exact next_commit (exec_frame h)

/-- DECODE's end as one commit (41_frame_codec.md R151, R152). -/
theorem decodeOk_eq (r : List Byte) (s : State) :
    decodeOk r s =
      commit (if s.verifyEn = true ∧ (verifyFrame s.cfg.hdrVariant r).allOk = false then .verify else .none) r
        { s with vflags := if s.verifyEn then verifyFrame s.cfg.hdrVariant r else VFlags.zero } := by
  cases hv : s.verifyEn with
  | false => simp [decodeOk, hv]
  | true => cases hall : (verifyFrame s.cfg.hdrVariant r).allOk <;> simp [decodeOk, verifyCode, hv, hall]

/-- Settles O35: the decoded bytes are fewer than the input's, so they fit. -/
theorem decodeCommitsAndOptionallyVerifies : Obligations.DecodeCommitsAndOptionallyVerifies := by
  intro s xs h
  refine ⟨fun e he => exec_decode_of_error h he, fun r hr => ?_⟩
  have hfits : r.length ≤ s.cfg.bufDepth := by
    obtain ⟨-, hin, -⟩ := h
    have := wireDecode_length hr
    omega
  refine ⟨_, exec_decode_of_ok h hr, ?_⟩
  rw [decodeOk_eq]
  exact commit_of_fits (s := { s with vflags := _ }) hfits

/-- Settles O36. -/
theorem verifySetsVflags : Obligations.VerifySetsVflags := by
  intro s xs h
  show execVerify s = _
  rw [execVerify, withInput_of_holds h]
  rfl

end Sys2Proof.Machine
end

section
/-! The handshake (42_handshake.md R170 to R180): each label of HS_START as a whole-state equation (O43), HS_SKIP and
the refusals outside IDLE (O46), the attempts that meet no FAIL (O44, O45), and the end of every handshake that starts
(O48). -/

namespace Sys2Proof.Machine

/-! ### Calls by their answer -/

/-- A write or a buffer reset by its answer (20_memory.md R75, 60_exceptions.md R236). -/
theorem callThen_eq_ite (c : Bool → Call) (k : State → State) (s : State) :
    callThen c k s =
      if nextAnswer s = .fail then
        complete .transport { dropAnswer s with history := s.history ++ [c false], hsState := .failed }
      else k { dropAnswer s with history := s.history ++ [c true] } := by
  rw [← dropAnswer_history s]
  rcases callThen_cases c k s with ⟨ha, h⟩ | ⟨_, ha, h⟩ <;> rw [h, ha]
  · exact (if_pos rfl).symm
  · exact (if_neg nofun).symm

/-! ### The labels -/

theorem hsCheck_of_ready {s : State} (hs : s.hsState = .ispReady) : hsCheck s = complete .none s := if_pos hs

theorem hsCheck_of_spent {s : State} (hs : s.hsState ≠ .ispReady) (hatt : s.hsAtt = s.hsMax) :
    hsCheck s = complete .hsTimeout { s with hsState := .failed } := by
  rw [hsCheck, if_neg hs, if_pos hatt]

theorem hsCheck_of_left {s : State} (hs : s.hsState ≠ .ispReady) (hatt : s.hsAtt ≠ s.hsMax) :
    hsCheck s =
      { s with
        hsAtt := s.hsAtt + 1
        phase := if s.hsState = .idle ∨ s.cfg.hsFlushAck = true then .hsResetIn else .hsWrite } := by
  rw [hsCheck, if_neg hs, if_neg hatt]

theorem hsReset_eq (s : State) :
    hsReset s =
      if nextAnswer s = .fail then
        complete .transport { dropAnswer s with history := s.history ++ [.resetIn false], hsState := .failed }
      else { dropAnswer s with history := s.history ++ [.resetIn true], phase := .hsWrite } := by
  rw [hsReset, tResetIn, callThen_eq_ite]

theorem hsSend_eq (b : Byte) (s : State) :
    hsSend b s =
      if nextAnswer s = .fail then
        complete .transport { dropAnswer s with history := s.history ++ [.write [b] false], hsState := .failed }
      else { dropAnswer s with history := s.history ++ [.write [b] true], phase := .hsRead } := by
  rw [hsSend, tWrite, callThen_eq_ite]

theorem hsRead_of_fail {s : State} (ha : nextAnswer s = .fail) :
    hsRead s =
      complete .transport
        { dropAnswer s with
          history := s.history ++ [.read 1 (BitVec.ofNat 16 s.hsTmo.toNat) none], hsState := .failed } := by
  rw [← dropAnswer_history s, ← dropAnswer_hsTmo s, BitVec.ofNat_toNat, hsRead, ha]
  rfl

theorem hsRead_of_bytes {s : State} {x : List Byte} (ha : nextAnswer s = .bytes x) :
    hsRead s =
      { dropAnswer s with
        history := s.history ++ [.read 1 (BitVec.ofNat 16 s.hsTmo.toNat) (some (x.take 1))]
        hsState := hsAdvance s.hsState (x.take 1), phase := .hsCheck } := by
  rw [← dropAnswer_history s, ← dropAnswer_hsTmo s, ← dropAnswer_hsState s, hsRead, ha]
  exact hsReceive_some ..

theorem hsAdvance_eq_ite (st : HsState) (bs : List Byte) :
    hsAdvance st bs =
      if st = .idle ∧ bs = [ackByte] then .ackReceived
      else if st = .ackReceived ∧ bs = [ispReadyByte] then .ispReady else st := by
  cases st <;> simp [hsAdvance]

theorem exec_hsStart_of_exec {s : State} (hp : s.phase = .exec) : exec .hsStart s = .next (hsBegin s) := by
  simp only [exec, execHsStart, hp]

theorem exec_hsStart_of_hsCheck {s : State} (hp : s.phase = .hsCheck) : exec .hsStart s = .next (hsCheck s) := by
  simp only [exec, execHsStart, hp]

theorem exec_hsStart_of_hsResetIn {s : State} (hp : s.phase = .hsResetIn) : exec .hsStart s = .next (hsReset s) := by
  simp only [exec, execHsStart, hp]

theorem exec_hsStart_of_hsWrite {s : State} (hp : s.phase = .hsWrite) : exec .hsStart s = .next (hsWrite s) := by
  simp only [exec, execHsStart, hp]

theorem exec_hsStart_of_hsRead {s : State} (hp : s.phase = .hsRead) : exec .hsStart s = .next (hsRead s) := by
  simp only [exec, execHsStart, hp]

/-- Settles O43, label by label. -/
theorem hsStartStepSequence : Obligations.HsStartStepSequence := by
  refine fun s => ⟨fun hp => ?exec, fun hp => ?check, fun hp => ?resetIn, fun hp => ?write,
    fun hp => ⟨fun ha => ?readFail, fun x ha => ?readBytes⟩⟩
  case exec => rw [exec_hsStart_of_exec hp, hsBegin, ite_not]
  case check => rw [exec_hsStart_of_hsCheck hp, hsCheck]
  case resetIn => rw [exec_hsStart_of_hsResetIn hp, hsReset_eq]
  case write => rw [exec_hsStart_of_hsWrite hp, hsWrite, hsSend_eq]; rfl
  case readFail => rw [exec_hsStart_of_hsRead hp, hsRead_of_fail ha]
  case readBytes => rw [exec_hsStart_of_hsRead hp, hsRead_of_bytes ha, hsAdvance_eq_ite]; rfl

/-- Settles O46. -/
theorem handshakeOperationsNeedIdle : Obligations.HandshakeOperationsNeedIdle := by
  refine fun s hp => ⟨fun hs => if_neg (not_not.2 hs), fun hs => ⟨if_pos hs, ?_⟩⟩
  rw [exec_hsStart_of_exec hp, hsBegin, if_pos hs]

/-! ### HS_START with only the block moving -/

/-- HS_START is the operation in flight, HS_MAX is `mx`, and only the block moves. -/
structure HsStartAlone (mx : Half) (s : State) : Prop where
  events : s.events = []
  op : s.op = 0x20
  hsMax : s.hsMax = mx

theorem HsStartAlone.afterAnswer {mx : Half} {s : State} (h : HsStartAlone mx s) : HsStartAlone mx (dropAnswer s) :=
  ⟨(dropAnswer_events s).trans h.events, (dropAnswer_op s).trans h.op, (dropAnswer_hsMax s).trans h.hsMax⟩

/-- `s` with what HS_START writes before it ends, but for the transport's answers (42_handshake.md R173). -/
def handshakeAt (s : State) (p : Phase) (st : HsState) (att : Half) (calls : List Call) : State :=
  { s with phase := p, hsState := st, hsAtt := att, history := calls }

theorem eq_handshakeAt {s : State} {p : Phase} {st : HsState} (hp : s.phase = p) (hs : s.hsState = st) :
    s = handshakeAt s p st s.hsAtt s.history := by
  subst hp hs
  rfl

theorem handshakeAt_of_phase {s : State} {p : Phase} (hp : s.phase = p) (st : HsState) (att : Half)
    (calls : List Call) :
    handshakeAt s p st att calls = { s with hsState := st, hsAtt := att, history := calls } := by
  subst hp
  rfl

@[simp] theorem nextAnswer_handshakeAt (s : State) (p : Phase) (st : HsState) (att : Half) (calls : List Call) :
    nextAnswer (handshakeAt s p st att calls) = nextAnswer s := rfl

@[simp] theorem dropAnswer_handshakeAt (s : State) (p : Phase) (st : HsState) (att : Half) (calls : List Call) :
    dropAnswer (handshakeAt s p st att calls) = handshakeAt (dropAnswer s) p st att calls := by
  unfold handshakeAt dropAnswer
  cases s.answers <;> rfl

section
variable {mx : Half} {s : State} (h : HsStartAlone mx s) (st : HsState) (att : Half) (calls : List Call)
include h

/-- A step of HS_START in flight is its meaning (10_state.md R48). -/
theorem HsStartAlone.step_of_exec {p : Phase} (hp : p ≠ .ready) {t : State}
    (ht : exec .hsStart (handshakeAt s p st att calls) = .next t) : step (handshakeAt s p st att calls) = .next t :=
  (step_in_flight (s := handshakeAt s p st att calls) h.events hp (congrArg decodeCmd h.op)).trans ht

theorem HsStartAlone.step_hsCheck :
    step (handshakeAt s .hsCheck st att calls) = .next (hsCheck (handshakeAt s .hsCheck st att calls)) :=
  h.step_of_exec _ _ _ (by decide) (exec_hsStart_of_hsCheck rfl)

/-- The start of an attempt (42_handshake.md R173). -/
theorem HsStartAlone.step_attempt (hs : st ≠ .ispReady) (hatt : att ≠ mx) :
    step (handshakeAt s .hsCheck st att calls) = .next
      (handshakeAt s (if st = .idle ∨ s.cfg.hsFlushAck = true then .hsResetIn else .hsWrite) st (att + 1) calls) := by
  have hleft : att ≠ s.hsMax := h.hsMax ▸ hatt
  rw [h.step_hsCheck, hsCheck_of_left (s := handshakeAt ..) hs hleft]
  rfl

/-- The input reset of an attempt (42_handshake.md R173). -/
theorem HsStartAlone.step_hsResetIn :
    step (handshakeAt s .hsResetIn st att calls) = .next
      (if nextAnswer s = .fail then
        transportFail (handshakeAt (dropAnswer s) .hsResetIn st att (calls ++ [.resetIn false]))
      else handshakeAt (dropAnswer s) .hsWrite st att (calls ++ [.resetIn true])) := by
  refine h.step_of_exec _ _ _ (by decide) ?_
  rw [exec_hsStart_of_hsResetIn rfl, hsReset_eq, dropAnswer_handshakeAt]
  rfl

/-- The byte of an attempt (42_handshake.md R173). -/
theorem HsStartAlone.step_hsWrite :
    step (handshakeAt s .hsWrite st att calls) = .next
      (if nextAnswer s = .fail then
        transportFail (handshakeAt (dropAnswer s) .hsWrite st att
          (calls ++ [.write [if st = .idle then startByte else ispStartByte] false]))
      else
        handshakeAt (dropAnswer s) .hsRead st att
          (calls ++ [.write [if st = .idle then startByte else ispStartByte] true])) := by
  refine h.step_of_exec _ _ _ (by decide) ?_
  rw [exec_hsStart_of_hsWrite rfl, hsWrite, hsSend_eq, dropAnswer_handshakeAt]
  rfl

/-- A read that fails (42_handshake.md R178). -/
theorem HsStartAlone.step_hsRead_of_fail (ha : nextAnswer s = .fail) :
    step (handshakeAt s .hsRead st att calls) = .next
      (transportFail (handshakeAt (dropAnswer s) .hsRead st att
        (calls ++ [.read 1 (BitVec.ofNat 16 s.hsTmo.toNat) none]))) := by
  refine h.step_of_exec _ _ _ (by decide) ?_
  rw [exec_hsStart_of_hsRead rfl, hsRead_of_fail ((nextAnswer_handshakeAt ..).trans ha), dropAnswer_handshakeAt]
  rfl

/-- The reply to an attempt (42_handshake.md R173 to R175). -/
theorem HsStartAlone.step_hsRead_of_bytes {x : List Byte} (ha : nextAnswer s = .bytes x) :
    step (handshakeAt s .hsRead st att calls) = .next
      (handshakeAt (dropAnswer s) .hsCheck (hsAdvance st (x.take 1)) att
        (calls ++ [.read 1 (BitVec.ofNat 16 s.hsTmo.toNat) (some (x.take 1))])) := by
  refine h.step_of_exec _ _ _ (by decide) ?_
  rw [exec_hsStart_of_hsRead rfl, hsRead_of_bytes ((nextAnswer_handshakeAt ..).trans ha), dropAnswer_handshakeAt]
  rfl

end

/-! ### Attempts that meet no FAIL -/

section
variable {mx : Half} {s : State} {x y z : List Byte} {st : HsState} {att : Half} {calls : List Call}

/-- Every attempt ends with its byte and its reply (42_handshake.md R174, R175). -/
theorem HsStartAlone.run_byte_reply (h : HsStartAlone mx s) (ha : nextAnswer s = .bytes x)
    (hb : nextAnswer (dropAnswer s) = .bytes y) :
    Host.Core.run core 2 (handshakeAt s .hsWrite st att calls) = .next
      (handshakeAt (dropAnswer (dropAnswer s)) .hsCheck (hsAdvance st (y.take 1)) att
        (calls ++ [.write [if st = .idle then startByte else ispStartByte] true,
          .read 1 (BitVec.ofNat 16 s.hsTmo.toNat) (some (y.take 1))])) := by
  rw [run_next (h.step_hsWrite ..), ha, if_neg nofun, run_next (h.afterAnswer.step_hsRead_of_bytes _ _ _ hb),
    dropAnswer_hsTmo, List.append_assoc]
  rfl

/-- An attempt that resets the transport input first (42_handshake.md R174, R175). -/
theorem HsStartAlone.run_reset_byte_reply (h : HsStartAlone mx s) (ha : nextAnswer s = .bytes x)
    (hb : nextAnswer (dropAnswer s) = .bytes y) (hc : nextAnswer (dropAnswer (dropAnswer s)) = .bytes z) :
    Host.Core.run core 3 (handshakeAt s .hsResetIn st att calls) = .next
      (handshakeAt (dropAnswer (dropAnswer (dropAnswer s))) .hsCheck (hsAdvance st (z.take 1)) att
        (calls ++ [.resetIn true, .write [if st = .idle then startByte else ispStartByte] true,
          .read 1 (BitVec.ofNat 16 s.hsTmo.toNat) (some (z.take 1))])) := by
  rw [run_next (h.step_hsResetIn ..), ha, if_neg nofun, h.afterAnswer.run_byte_reply hb hc, dropAnswer_hsTmo,
    List.append_assoc]
  rfl

end

/-- Settles O44. -/
theorem idleAttemptMakesThreeCalls : Obligations.IdleAttemptMakesThreeCalls := by
  intro s a1 a2 a3 he hop hp hs hatt h1 h2 h3
  have h : HsStartAlone s.hsMax s := ⟨he, hop, rfl⟩
  have hrun := run_next (h.step_attempt .idle s.hsAtt s.history nofun hatt) 3
  rw [if_pos (.inl rfl), h.run_reset_byte_reply h1 h2 h3, ← eq_handshakeAt hp hs,
    handshakeAt_of_phase (by simp [hp])] at hrun
  exact hrun

/-- Settles O45, by the two values of HS_FLUSH_ACK. -/
theorem ackAttemptMakesItsCalls : Obligations.AckAttemptMakesItsCalls := by
  intro s a1 a2 a3 he hop hp hs hatt h1 h2
  have h : HsStartAlone s.hsMax s := ⟨he, hop, rfl⟩
  refine ⟨fun hflush => ?_, fun hflush h3 => ?_⟩
  · have hrun := run_next (h.step_attempt .ackReceived s.hsAtt s.history nofun hatt) 2
    rw [if_neg (by simp [hflush]), h.run_byte_reply h1 h2, ← eq_handshakeAt hp hs,
      handshakeAt_of_phase (by simp [hp])] at hrun
    exact hrun
  · have hrun := run_next (h.step_attempt .ackReceived s.hsAtt s.history nofun hatt) 3
    rw [if_pos (.inr hflush), h.run_reset_byte_reply h1 h2 h3, ← eq_handshakeAt hp hs,
      handshakeAt_of_phase (by simp [hp])] at hrun
    exact hrun

/-! ### The end of every handshake that starts -/

/-- Within `n` steps of the machine a state is reached that meets `P`. -/
def ReachesWithin (P : State → Prop) (n : Nat) (s : State) : Prop :=
  ∃ k t, k ≤ n ∧ Host.Core.run core k s = .next t ∧ P t

theorem reachesWithin_of_holds {P : State → Prop} {s : State} (h : P s) (n : Nat) : ReachesWithin P n s :=
  ⟨0, s, Nat.zero_le n, rfl, h⟩

theorem reachesWithin_of_step {P : State → Prop} {n : Nat} {s t : State} (hstep : step s = .next t)
    (h : ReachesWithin P n t) : ReachesWithin P (n + 1) s := by
  obtain ⟨k, u, hk, hrun, hu⟩ := h
  exact ⟨k + 1, u, Nat.succ_le_succ hk, (run_next hstep k).trans hrun, hu⟩

theorem ReachesWithin.mono {P : State → Prop} {m n : Nat} {s : State} (h : ReachesWithin P m s) (hmn : m ≤ n) :
    ReachesWithin P n s := by
  obtain ⟨k, t, hk, hrun, ht⟩ := h
  exact ⟨k, t, hk.trans hmn, hrun, ht⟩

/-- A handshake has ended with HS_MAX = `mx` (42_handshake.md R176 to R179). -/
def HandshakeOver (mx : Half) (t : State) : Prop :=
  t.phase = .ready ∧ t.busy = false ∧ t.hsMax = mx ∧ t.hsAtt.toNat ≤ mx.toNat ∧
    ((t.hsState = .ispReady ∧ t.errcode = .none ∧ 2 ≤ t.hsAtt.toNat) ∨
      (t.hsState = .failed ∧ t.errcode = .hsTimeout ∧ t.hsAtt = mx) ∨
      (t.hsState = .failed ∧ t.errcode = .transport))

/-- What HS_CHECK finds after `att` attempts: each advances the link at most once (42_handshake.md R174, R175). -/
def CheckedAfter (att : Half) (st : HsState) : Prop :=
  st = .idle ∨ (st = .ackReceived ∧ 1 ≤ att.toNat) ∨ (st = .ispReady ∧ 2 ≤ att.toNat)

theorem CheckedAfter.next {att att' : Half} {st : HsState} (h : CheckedAfter att st) (hs : st ≠ .ispReady)
    (hatt : att'.toNat = att.toNat + 1) (bs : List Byte) : CheckedAfter att' (hsAdvance st bs) := by
  unfold CheckedAfter
  rcases h with rfl | ⟨rfl, hone⟩ | ⟨rfl, -⟩
  · simp only [hsAdvance]
    split <;> simp [hatt]
  · simp only [hsAdvance]
    split <;> simp [hatt, hone]
  · exact absurd rfl hs

section
variable {mx : Half} {s : State} {st : HsState} {att : Half} {calls : List Call} {n : Nat}

/-- A FAIL ends the handshake (42_handshake.md R178). -/
theorem HsStartAlone.over_of_fail {p : Phase} (h : HsStartAlone mx s) (hle : att.toNat ≤ mx.toNat) :
    HandshakeOver mx (transportFail (handshakeAt s p st att calls)) :=
  ⟨rfl, rfl, h.hsMax, hle, .inr (.inr ⟨rfl, rfl⟩)⟩

/-- HS_CHECK ends the handshake when the link is ready or the budget is used up (42_handshake.md R176, R177). -/
theorem HsStartAlone.over_of_hsCheck (h : HsStartAlone mx s) (hle : att.toNat ≤ mx.toNat) (hst : CheckedAfter att st)
    (hend : st = .ispReady ∨ att = mx) :
    ReachesWithin (HandshakeOver mx) 1 (handshakeAt s .hsCheck st att calls) := by
  refine reachesWithin_of_step (h.step_hsCheck ..) (reachesWithin_of_holds ?_ 0)
  by_cases hs : st = .ispReady
  · obtain ⟨-, htwo⟩ : st = .ispReady ∧ 2 ≤ att.toNat := by simpa [CheckedAfter, hs] using hst
    rw [hsCheck_of_ready hs]
    exact ⟨rfl, rfl, h.hsMax, hle, .inl ⟨hs, rfl, htwo⟩⟩
  · have hatt := hend.resolve_left hs
    rw [hsCheck_of_spent hs (hatt.trans h.hsMax.symm)]
    exact ⟨rfl, rfl, h.hsMax, hle, .inr (.inl ⟨rfl, rfl, hatt⟩)⟩

section
variable (hle : att.toNat ≤ mx.toNat)
  (hnext : ∀ (u : State) (bs : List Byte) (calls : List Call), HsStartAlone mx u →
    ReachesWithin (HandshakeOver mx) n (handshakeAt u .hsCheck (hsAdvance st bs) att calls))
include hle hnext

theorem HsStartAlone.ends_from_hsRead (h : HsStartAlone mx s) :
    ReachesWithin (HandshakeOver mx) (n + 1) (handshakeAt s .hsRead st att calls) := by
  cases ha : nextAnswer s with
  | fail =>
    exact reachesWithin_of_step (h.step_hsRead_of_fail _ _ _ ha)
      (reachesWithin_of_holds (h.afterAnswer.over_of_fail hle) n)
  | bytes x => exact reachesWithin_of_step (h.step_hsRead_of_bytes _ _ _ ha) (hnext _ _ _ h.afterAnswer)

theorem HsStartAlone.ends_from_hsWrite (h : HsStartAlone mx s) :
    ReachesWithin (HandshakeOver mx) (n + 2) (handshakeAt s .hsWrite st att calls) := by
  refine reachesWithin_of_step (h.step_hsWrite ..) ?_
  split
  · exact reachesWithin_of_holds (h.afterAnswer.over_of_fail hle) _
  · exact h.afterAnswer.ends_from_hsRead hle hnext

theorem HsStartAlone.ends_from_hsResetIn (h : HsStartAlone mx s) :
    ReachesWithin (HandshakeOver mx) (n + 3) (handshakeAt s .hsResetIn st att calls) := by
  refine reachesWithin_of_step (h.step_hsResetIn ..) ?_
  split
  · exact reachesWithin_of_holds (h.afterAnswer.over_of_fail hle) _
  · exact h.afterAnswer.ends_from_hsWrite hle hnext

end
end

/-- With `n` attempts left the handshake ends within their four steps each and one more HS_CHECK (42_handshake.md R177,
70_reset_and_hazards.md R282). -/
theorem HsStartAlone.ends_from_hsCheck {mx : Half} (n : Nat) {s : State} {st : HsState} {att : Half} {calls : List Call}
    (h : HsStartAlone mx s) (hleft : att.toNat + n = mx.toNat) (hst : CheckedAfter att st) :
    ReachesWithin (HandshakeOver mx) (4 * n + 1) (handshakeAt s .hsCheck st att calls) := by
  induction n generalizing s st att calls with
  | zero => exact h.over_of_hsCheck hleft.le hst (.inr (BitVec.eq_of_toNat_eq hleft))
  | succ n ih =>
    by_cases hs : st = .ispReady
    · exact (h.over_of_hsCheck (by omega) hst (.inl hs)).mono (by omega)
    have hatt : att ≠ mx := by rintro rfl; omega
    have hcount : (att + 1).toNat = att.toNat + 1 :=
      BitVec.toNat_add_of_lt (y := 1) (show att.toNat + 1 < 2 ^ 16 by have := mx.isLt; omega)
    have hle : (att + 1).toNat ≤ mx.toNat := by omega
    have hnext (u : State) (bs : List Byte) (calls : List Call) (hu : HsStartAlone mx u) :
        ReachesWithin (HandshakeOver mx) (4 * n + 1) (handshakeAt u .hsCheck (hsAdvance st bs) (att + 1) calls) :=
      ih hu (by omega) (hst.next hs hcount bs)
    refine reachesWithin_of_step (h.step_attempt _ _ _ hs hatt) ?_
    split
    · exact h.ends_from_hsResetIn hle hnext
    · exact (h.ends_from_hsWrite hle hnext).mono (by omega)

/-- Settles O48: after EXEC, an induction on the attempts left. -/
theorem handshakeEndsReadyOrFailed : Obligations.HandshakeEndsReadyOrFailed := by
  intro s he hop hp hs
  have h : HsStartAlone s.hsMax s := ⟨he, hop, rfl⟩
  have hbegin : step s = .next (handshakeAt s .hsCheck .idle 0 s.history) := by
    rw [step_in_flight he (by simp [hp]) (i := .hsStart) (by rw [hop]; rfl), exec_hsStart_of_exec hp, hsBegin,
      if_neg (not_not.2 hs), ← hs]
    rfl
  have hend := reachesWithin_of_step hbegin (h.ends_from_hsCheck s.hsMax.toNat (Nat.zero_add _) (.inl rfl))
  exact hend.mono (by omega)

end Sys2Proof.Machine
end

section
/-! The transport operations (43_transport_ops.md R190 to R196): the gating of SEND and RECV (O38), both steps of SEND
(O39), of RECV (O40) and of the FLUSH operations (O41), and the output they leave (O42). -/

namespace Sys2Proof.Machine

/-! ### The two steps of an operation -/

theorem exec_send_eq_ite (s : State) :
    exec .send s = if s.phase = .tCall then sendCall s else .next (sendFirst s) := by
  show execSend s = _
  unfold execSend
  cases s.phase <;> rfl

theorem exec_recv_eq_ite (s : State) :
    exec .recv s = .next (if s.phase = .tCall then recvCall s else recvFirst s) := by
  show execRecv s = _
  unfold execRecv
  cases s.phase <;> rfl

theorem flushOp_eq_ite (call : State → State) (s : State) :
    flushOp call s = .next (if s.phase = .tCall then call s else { s with phase := .tCall }) := by
  unfold flushOp
  cases s.phase <;> rfl

theorem exec_send_of_exec {s : State} (hp : s.phase = .exec) : exec .send s = .next (sendFirst s) := by
  rw [exec_send_eq_ite, hp, if_neg nofun]

theorem exec_recv_of_exec {s : State} (hp : s.phase = .exec) : exec .recv s = .next (recvFirst s) := by
  rw [exec_recv_eq_ite, hp, if_neg nofun]

theorem flushOp_of_exec {s : State} (hp : s.phase = .exec) (call : State → State) :
    flushOp call s = .next { s with phase := .tCall } := by
  rw [flushOp_eq_ite, hp, if_neg nofun]

theorem exec_send_of_tCall {s : State} {bs : List Byte} (hp : s.phase = .tCall) (hout : HoldsOutput s bs) :
    exec .send s = .next (callThen (.write bs) (complete .none) s) := by
  rw [exec_send_eq_ite, if_pos hp, sendCall, holdsOutput_iff.1 hout]
  rfl

theorem exec_recv_of_tCall {s : State} (hp : s.phase = .tCall) : exec .recv s = .next (recvCall s) := by
  rw [exec_recv_eq_ite, if_pos hp]

theorem flushOp_of_tCall {s : State} (hp : s.phase = .tCall) (call : State → State) :
    flushOp call s = .next (call s) := by
  rw [flushOp_eq_ite, if_pos hp]

/-! ### Gating -/

theorem sendFirst_of_not_ready {s : State} (hs : s.hsState ≠ .ispReady) :
    sendFirst s = complete .notReady s := if_pos hs

theorem recvFirst_of_not_ready {s : State} (hs : s.hsState ≠ .ispReady) :
    recvFirst s = complete .notReady s := if_pos hs

/-- Settles O38. -/
theorem sendAndRecvAreGated : Obligations.SendAndRecvAreGated := by
  refine fun s hp => ⟨fun hs => ⟨?send, ?recv⟩, fun i hi => ?flush, rfl⟩
  case send => rw [exec_send_of_exec hp, sendFirst_of_not_ready hs]
  case recv => rw [exec_recv_of_exec hp, recvFirst_of_not_ready hs]
  case flush =>
    simp only [List.mem_cons, List.not_mem_nil, or_false] at hi
    rcases hi with rfl | rfl | rfl <;> exact flushOp_of_exec hp _

/-! ### Calls with a known answer -/

theorem callThen_of_fail {s : State} (ha : nextAnswer s = .fail) (c : Bool → Call) (k : State → State) :
    callThen c k s =
      complete .transport { dropAnswer s with history := s.history ++ [c false], hsState := .failed } := by
  rw [callThen_eq_ite, if_pos ha]

theorem callThen_of_bytes {s : State} {x : List Byte} (ha : nextAnswer s = .bytes x) (c : Bool → Call)
    (k : State → State) : callThen c k s = k { dropAnswer s with history := s.history ++ [c true] } := by
  rw [callThen_eq_ite, ha, if_neg nofun]

theorem tRead_of_fail {s : State} (ha : nextAnswer s = .fail) (n : Nat) (tmo : Half)
    (k : List Byte → State → State) :
    tRead n tmo k s =
      complete .transport { dropAnswer s with history := s.history ++ [.read n tmo none], hsState := .failed } := by
  rw [← dropAnswer_history s, tRead, ha]
  rfl

theorem tRead_of_bytes {s : State} {x : List Byte} (ha : nextAnswer s = .bytes x) (n : Nat) (tmo : Half)
    (k : List Byte → State → State) :
    tRead n tmo k s =
      k (x.take n) { dropAnswer s with history := s.history ++ [.read n tmo (some (x.take n))] } := by
  rw [← dropAnswer_history s, tRead, ha]
  rfl

/-! ### SEND -/

theorem outLen_eq_zero_iff {s : State} {bs : List Byte} (hout : HoldsOutput s bs) : s.outLen = 0 ↔ bs = [] := by
  rw [← List.length_eq_zero_iff, ← hout.1]
  exact (BitVec.toNat_inj (y := 0)).symm

theorem sendFirst_of_ready {s : State} {bs : List Byte} (hs : s.hsState = .ispReady) (hout : HoldsOutput s bs) :
    sendFirst s = if bs = [] then complete .none s else { s with phase := .tCall } := by
  simp only [sendFirst, if_neg (not_not.2 hs), outLen_eq_zero_iff hout]

/-- Settles O39. -/
theorem sendTransmitsTheOutput : Obligations.SendTransmitsTheOutput := by
  refine fun s bs hout => ⟨fun hp hs => ?first, fun hp x ha => ?answered, fun hp ha => ?failed⟩
  case first => rw [exec_send_of_exec hp, sendFirst_of_ready hs hout]
  case answered => rw [exec_send_of_tCall hp hout, callThen_of_bytes ha]
  case failed => rw [exec_send_of_tCall hp hout, callThen_of_fail ha]

/-! ### RECV -/

theorem recvFirst_of_ready {s : State} (hs : s.hsState = .ispReady) :
    recvFirst s =
      if s.cfg.bufDepth < s.rxReq.toNat then complete .rxReq s
      else if s.rxReq = 0 then complete .none { s with inLen := 0 } else { s with phase := .tCall } := by
  rw [recvFirst, if_neg (not_not.2 hs)]

/-- The first step of RECV in ISP_READY, by the value of RX_REQ; a request of 0 bytes is in range
whatever BUF_DEPTH is (43_transport_ops.md R193). -/
theorem recv_first_step {s : State} (hp : s.phase = .exec) (hs : s.hsState = .ispReady) :
    (s.cfg.bufDepth < s.rxReq.toNat → exec .recv s = .next (complete .rxReq s)) ∧
      (s.rxReq = 0 → exec .recv s = .next (complete .none { s with inLen := 0 })) ∧
      (s.rxReq ≠ 0 → s.rxReq.toNat ≤ s.cfg.bufDepth → exec .recv s = .next { s with phase := .tCall }) := by
  rw [exec_recv_of_exec hp, recvFirst_of_ready hs]
  refine ⟨fun hlong => ?_, fun hzero => ?_, fun hne hfits => ?_⟩
  · rw [if_pos hlong]
  · have hfits : ¬ s.cfg.bufDepth < s.rxReq.toNat := by rw [hzero]; exact Nat.not_lt_zero _
    rw [if_neg hfits, if_pos hzero]
  · rw [if_neg (Nat.not_lt.2 hfits), if_neg hne]

/-- Settles O40. -/
theorem recvStoresTheAnswer : Obligations.RecvStoresTheAnswer := by
  refine fun s _ => ⟨recv_first_step, fun hp x ha => ?answered, fun hp ha => ?failed⟩
  case answered =>
    refine ⟨_, by rw [exec_recv_of_tCall hp, recvCall, tRead_of_bytes ha], ?_⟩
    rw [← dropAnswer_inBuf s]
    exact ⟨storeBytes_stored _ _, rfl⟩
  case failed => rw [exec_recv_of_tCall hp, recvCall, tRead_of_fail ha]

/-! ### The FLUSH operations -/

theorem flushOp_callThen_of_fail {s : State} (hp : s.phase = .tCall) (ha : nextAnswer s = .fail) (c : Bool → Call)
    (k : State → State) :
    flushOp (callThen c k) s =
      .next (complete .transport { dropAnswer s with history := s.history ++ [c false], hsState := .failed }) := by
  rw [flushOp_of_tCall hp, callThen_of_fail ha]

theorem flushOp_callThen_of_bytes {s : State} {x : List Byte} (hp : s.phase = .tCall) (ha : nextAnswer s = .bytes x)
    (c : Bool → Call) (k : State → State) :
    flushOp (callThen c k) s = .next (k { dropAnswer s with history := s.history ++ [c true] }) := by
  rw [flushOp_of_tCall hp, callThen_of_bytes ha]

theorem nextAnswer_with_history (s : State) (calls : List Call) :
    nextAnswer { s with history := calls } = nextAnswer s := rfl

theorem dropAnswer_with_history (s : State) (calls : List Call) :
    dropAnswer { s with history := calls } = { dropAnswer s with history := calls } := by
  unfold dropAnswer
  cases s.answers <;> rfl

/-- FLUSH_ALL's second call is that of the state its first one leaves (43_transport_ops.md R196). -/
theorem exec_flushAll_of_bytes {s : State} {x : List Byte} (hp : s.phase = .tCall) (ha : nextAnswer s = .bytes x) :
    exec .flushAll s =
      .next (callThen .resetOut (complete .none) { dropAnswer s with history := s.history ++ [.resetIn true] }) :=
  flushOp_callThen_of_bytes hp ha .resetIn (callThen .resetOut (complete .none))

/-- Settles O41. -/
theorem flushCallsResetTheBuffers : Obligations.FlushCallsResetTheBuffers := by
  refine fun s hp => ⟨fun x ha => ⟨?rx, ?tx, fun y hb => ?all, fun hb => ?allSecondFails⟩,
    fun ha => ⟨?rxFails, ?txFails, ?allFirstFails⟩⟩
  case rx | tx => exact flushOp_callThen_of_bytes hp ha _ _
  case all =>
    rw [exec_flushAll_of_bytes hp ha, callThen_of_bytes ((nextAnswer_with_history ..).trans hb),
      dropAnswer_with_history, List.append_assoc]
    rfl
  case allSecondFails =>
    rw [exec_flushAll_of_bytes hp ha, callThen_of_fail ((nextAnswer_with_history ..).trans hb),
      dropAnswer_with_history, List.append_assoc]
    rfl
  case rxFails | txFails | allFirstFails => exact flushOp_callThen_of_fail hp ha _ _

/-! ### The output is kept -/

/-- OUT_BUF and OUT_LEN are those of `s` (43_transport_ops.md R192). -/
def SameOutput (s t : State) : Prop := t.outBuf = s.outBuf ∧ t.outLen = s.outLen

theorem SameOutput.holdsOutput_iff {s t : State} (h : SameOutput s t) (bs : List Byte) :
    HoldsOutput s bs ↔ HoldsOutput t bs := by
  obtain ⟨hbuf, hlen⟩ := h
  rw [HoldsOutput, HoldsOutput, hbuf, hlen]

theorem sameOutput_complete (code : ErrCode) (s : State) : SameOutput s (complete code s) := ⟨rfl, rfl⟩

/-- A call that fails leaves the output, and so does one that is answered, if what follows it does. -/
theorem sameOutput_callThen {k : State → State} (hk : ∀ s, SameOutput s (k s)) (c : Bool → Call) (s : State) :
    SameOutput s (callThen c k s) := by
  have hdrop : SameOutput s (dropAnswer s) := ⟨dropAnswer_outBuf s, dropAnswer_outLen s⟩
  rcases callThen_cases c k s with ⟨-, h⟩ | ⟨_, -, h⟩ <;> rw [h]
  · exact hdrop
  · obtain ⟨hbuf, hlen⟩ := hk (record (c true) (dropAnswer s))
    exact ⟨hbuf.trans hdrop.1, hlen.trans hdrop.2⟩

theorem sameOutput_sendFirst (s : State) : SameOutput s (sendFirst s) := by
  unfold sendFirst
  split_ifs <;> exact ⟨rfl, rfl⟩

theorem sameOutput_recvFirst (s : State) : SameOutput s (recvFirst s) := by
  unfold recvFirst
  split_ifs <;> exact ⟨rfl, rfl⟩

theorem sameOutput_recvCall (s : State) : SameOutput s (recvCall s) := by
  unfold recvCall
  rcases tRead_cases s.rxReq.toNat s.rxTmo recvStore s with ⟨-, h⟩ | ⟨_, -, h⟩ <;> rw [h] <;>
    exact ⟨dropAnswer_outBuf s, dropAnswer_outLen s⟩

theorem sameOutput_send {s t : State} (h : exec .send s = .next t) : SameOutput s t := by
  rw [exec_send_eq_ite] at h
  split at h
  · unfold sendCall at h
    split at h <;> cases h
    exact sameOutput_callThen (sameOutput_complete .none) _ s
  · cases h
    exact sameOutput_sendFirst s

theorem sameOutput_recv {s t : State} (h : exec .recv s = .next t) : SameOutput s t := by
  rw [exec_recv_eq_ite] at h
  cases h
  split
  · exact sameOutput_recvCall s
  · exact sameOutput_recvFirst s

theorem sameOutput_flushOp {call : State → State} (hcall : ∀ s, SameOutput s (call s)) {s t : State}
    (h : flushOp call s = .next t) : SameOutput s t := by
  rw [flushOp_eq_ite] at h
  cases h
  split
  · exact hcall s
  · exact ⟨rfl, rfl⟩

/-- Settles O42. -/
theorem transportOperationsKeepTheOutput : Obligations.TransportOperationsKeepTheOutput := by
  intro i hi s t h
  have hreset (c : Bool → Call) : ∀ u, SameOutput u (callThen c (complete .none) u) :=
    sameOutput_callThen (sameOutput_complete .none) c
  have hsame : SameOutput s t := by
    simp only [List.mem_cons, List.not_mem_nil, or_false] at hi
    rcases hi with rfl | rfl | rfl | rfl | rfl
    · exact sameOutput_send h
    · exact sameOutput_recv h
    · exact sameOutput_flushOp (hreset .resetIn) h
    · exact sameOutput_flushOp (hreset .resetOut) h
    · exact sameOutput_flushOp (sameOutput_callThen (hreset .resetOut) .resetIn) h
  exact ⟨hsame.1, hsame.2, hsame.holdsOutput_iff⟩

end Sys2Proof.Machine
end

section
/-! The wire commands (44_wire_commands.md R210 to R220; 30_encoding.md R102, R105): the bytes of the rows with operands
of any length, and what each of the ten rows leaves in IN_BUF (O51). -/

namespace Sys2Proof.Machine

/-! ### The bytes of a payload -/

theorem encode_legacyKeyWrite (L : WireLayout) (before kv : List Byte) :
    Sys2Proof.encode L (.legacyKeyWrite before kv) = 0x09 :: (before ++ kv ++ [crc8 kv]) := by
  rw [List.append_assoc]
  rfl

/-- The offset's bytes stand in the payload as they are, when they are as many as the layout gives it (log 11). -/
theorem encode_writeOtpRegister {L : WireLayout} {off : List Byte} (hoff : off.length = L.otpRegister.offsetBytes)
    (option chk : Byte) (value : List Byte) :
    Sys2Proof.encode L (.writeOtpRegister option chk (natOfBytes off) value) =
      [0x11, option, chk] ++ off ++ value ++ [crc8 value] := by
  simp only [Sys2Proof.encode, ← hoff, bytesOfNat_natOfBytes, List.append_assoc, List.cons_append, List.nil_append]

theorem encode_writeOtpKey {L : WireLayout} {off : List Byte} (hoff : off.length = L.otpKey.offsetBytes)
    (option chk : Byte) (key : List Byte) :
    Sys2Proof.encode L (.writeOtpKey option chk (natOfBytes off) key) = [0x12, option, chk] ++ off ++ key := by
  simp only [Sys2Proof.encode, ← hoff, bytesOfNat_natOfBytes, List.cons_append, List.nil_append]

/-! ### The load of a payload -/

/-- `exec_data_loads` for a row whose bytes are known. -/
theorem exec_data_loads_bytes {i : Instr} {d : DataFormat} {p : List Byte} (hi : i.format = .data d)
    (hp : Sys2Proof.encode Config.wireLayout i = p) (s : State) :
    (s.busy = false →
      ∃ t, exec i s = .next t ∧ Stored s.inBuf t.inBuf (p.take s.cfg.bufDepth) ∧
        t = { s with inBuf := t.inBuf, inLen := BitVec.ofNat 16 p.length }) ∧
      (s.busy = true → exec i s = .next { s with ovr := true }) := by
  subst hp
  exact exec_data_loads hi s

/-- Settles O51: each command is a data row, and the payload is its encoding. -/
theorem wireCommandPayloadsAreLoaded : Obligations.WireCommandPayloadsAreLoaded := by
  rintro i p (⟨a, rfl, rfl⟩ | ⟨a, v, rfl, rfl⟩ | ⟨rfl, rfl⟩ | ⟨rfl, rfl⟩ | ⟨before, kv, rfl, rfl⟩ | ⟨rfl, rfl⟩ |
    ⟨rfl, rfl⟩ | ⟨r, sig, rfl, rfl⟩ | ⟨option, chk, off, value, hoff, rfl, rfl⟩ |
    ⟨option, chk, off, key, hoff, rfl, rfl⟩) s
  · exact exec_data_loads_bytes rfl rfl s
  · exact exec_data_loads_bytes rfl rfl s
  · exact exec_data_loads_bytes rfl rfl s
  · exact exec_data_loads_bytes rfl rfl s
  · exact exec_data_loads_bytes rfl (encode_legacyKeyWrite _ before kv) s
  · exact exec_data_loads_bytes rfl rfl s
  · exact exec_data_loads_bytes rfl rfl s
  · exact exec_data_loads_bytes rfl rfl s
  · exact exec_data_loads_bytes rfl (encode_writeOtpRegister hoff option chk value) s
  · exact exec_data_loads_bytes rfl (encode_writeOtpKey hoff option chk key) s

end Sys2Proof.Machine
end

section
/-! Acceptance, completion and the errors of an operation (60_exceptions.md R230 to R242): a CMD write (O9), what a
completion writes and how long it holds (O10, O11), the reserved codes (O12), the checks of the input (O37), the one
fault of a block step (O54), and FAILED until reset (O60). -/

namespace Sys2Proof.Machine

/-! ### Acceptance -/

/-- A CMD write at rest is an acceptance (60_exceptions.md R239). -/
theorem step_cmdWrite_of_rest {s : State} {v : Byte} {rest : List Event} (he : s.events = .write 0x0000 [v] :: rest)
    (hb : s.busy = false) : step s = .next (accept v { s with events := rest }) := by
  rw [step_write he]
  exact congrArg _ (hostWrite_addr_of_rest (s := { s with events := rest }) .cmd hb v)

theorem step_cmdWrite_of_busy {s : State} {v : Byte} {rest : List Event} (he : s.events = .write 0x0000 [v] :: rest)
    (hb : s.busy = true) : step s = .next (dropWrite { s with events := rest }) := by
  rw [step_write he]
  exact congrArg _ ((hostWrite_addr .cmd v _).trans (writeReg_of_dropped (s := { s with events := rest }) rfl hb v))

/-- Settles O9. -/
theorem cmdWriteAcceptsOrIsDropped : Obligations.CmdWriteAcceptsOrIsDropped := fun _ _ _ he =>
  ⟨step_cmdWrite_of_rest he, step_cmdWrite_of_busy he⟩

/-! ### Completion -/

/-- STATUS after a completion: DONE, ERR by the code, and OVR and HS_READY as they were (10_state.md R25,
60_exceptions.md R240). -/
theorem statusByte_complete (code : ErrCode) (s : State) :
    statusByte (complete code s) =
      (if code = .none then 0x02 else 0x06) ||| (if s.ovr then 0x08 else 0x00) |||
        (if s.hsState = .ispReady then 0x10 else 0x00) := by
  have hend : flagBit false 0 ||| flagBit true 1 ||| flagBit (decide (code ≠ .none)) 2 =
      if code = .none then 0x02 else 0x06 := by
    by_cases hc : code = .none <;> simp [flagBit, hc]
  have hready : flagBit (decide (s.hsState = .ispReady)) 4 = if s.hsState = .ispReady then 0x10 else 0x00 := by
    simp [flagBit]
  rw [← hend, ← hready]
  rfl

/-- The fields that acceptance and completion write are kept (60_exceptions.md R239, R240). -/
structure KeepsProgress (s t : State) : Prop where
  phase : t.phase = s.phase
  busy : t.busy = s.busy
  done : t.done = s.done
  err : t.err = s.err
  errcode : t.errcode = s.errcode

/-- Of the host's steps, only an accepted CMD write changes where the operation in flight stands. -/
theorem step_block_or_accepts_or_keepsProgress {s t : State} (h : step s = .next t) (hr : ¬ ResetNext s) :
    (BlockTurn s ∧ BlockMove (afterEvent s) t) ∨
      (∃ v rest, s.events = .write 0x0000 [v] :: rest ∧ s.busy = false ∧ t = accept v (afterEvent s)) ∨
      KeepsProgress s t := by
  rcases step_shape h with hblock | ⟨hreset, -⟩ | ⟨-, -, ⟨_, _, rfl⟩ | ⟨-, _, rfl⟩ | haccept | ⟨_, _, -, -, rfl⟩ |
    ⟨-, _, _, _, _, _, _, _, _, _, -, -, rfl⟩⟩
  · exact .inl hblock
  · exact absurd hreset hr
  · exact .inr (.inr ⟨rfl, rfl, rfl, rfl, rfl⟩)
  · exact .inr (.inr ⟨rfl, rfl, rfl, rfl, rfl⟩)
  · exact .inr (.inl haccept)
  all_goals exact .inr (.inr ⟨rfl, rfl, rfl, rfl, rfl⟩)

/-- Settles O10: at rest the block's turn does nothing. -/
theorem completionFields : Obligations.CompletionFields := by
  refine ⟨fun code s => ⟨rfl, statusByte_complete code s⟩, fun s t hp hstep hr => ?_⟩
  rcases step_block_or_accepts_or_keepsProgress hstep hr with ⟨hb, -⟩ | haccept | hkeep
  · rw [step_of_block hb, blockStep_of_ready (s := afterEvent s) hp] at hstep
    cases hstep
    exact .inl ⟨hp, rfl, rfl, rfl, rfl⟩
  · exact .inr haccept
  · exact .inl ⟨hkeep.phase.trans hp, hkeep.busy, hkeep.done, hkeep.err, hkeep.errcode⟩

/-- An operation leaves the flight by a completion only (60_exceptions.md R240). -/
theorem BlockMove.eq_complete {s t : State} (hm : BlockMove s t) (hp : s.phase ≠ .ready) (ht : t.phase = .ready) :
    ∃ code u, t = complete code u := by
  cases hm with
  | rest hready => exact absurd hready hp
  | toCall | hsBegin | hsReset | hsSent | hsReplied => cases ht
  | hsAttempt _ _ _ _ _ hp' => rcases hp' with rfl | rfl <;> cases ht
  | _ => exact ⟨_, _, rfl⟩

theorem ErrCode.code_ne_zero_iff (code : ErrCode) : code.code ≠ 0x00 ↔ code ≠ .none := by
  cases code <;> decide

/-- Settles O11: only the block's turn ends an operation, and it does so by a completion. -/
theorem everyEndSetsDoneAndErr : Obligations.EveryEndSetsDoneAndErr := by
  intro s t hstep hp ht hr
  rcases step_block_or_accepts_or_keepsProgress hstep hr with ⟨-, hm⟩ | ⟨_, _, -, -, rfl⟩ | hkeep
  · obtain ⟨code, u, rfl⟩ := hm.eq_complete hp ht
    exact ⟨rfl, rfl, rfl, decide_eq_true_iff.trans code.code_ne_zero_iff.symm⟩
  · cases ht
  · exact absurd (hkeep.phase.symm.trans ht) hp

/-! ### Reserved codes -/

theorem readReg_with_op (r : Reg) (s : State) (v : Byte) : readReg r { s with op := v } = readReg r s := by
  cases r <;> rfl

/-- The latched `op` is no part of what the host reads (10_state.md R46). -/
theorem hostRead_with_op (a : Half) (s : State) (v : Byte) : hostRead a { s with op := v } = hostRead a s := by
  simp only [hostRead, readReg_with_op]

/-- Settles O12. -/
theorem reservedCodeEndsWithBadOp : Obligations.ReservedCodeEndsWithBadOp := by
  refine ⟨fun s v rest _ => step_cmdWrite_of_rest, fun s hb hp hop => ?_, rfl, fun s a v => hostRead_with_op a s v⟩
  rw [step_of_block hb, blockStep_of_reserved (s := afterEvent s) (ne_of_eq_of_ne hp (by decide)) hop]
  rfl

/-! ### The checks of the input -/

/-- A load fails exactly when a byte of its range is unwritten (10_state.md R44). -/
theorem loadBytes_eq_none_iff {m : Memory} {a n : Nat} :
    loadBytes m a n = none ↔ ∃ j, j < n ∧ memGet m (a + j) = none := by
  induction n generalizing a with
  | zero => simp [loadBytes]
  | succ n ih =>
    have hshift : (∃ j, j < n + 1 ∧ memGet m (a + j) = none) ↔
        memGet m a = none ∨ ∃ j, j < n ∧ memGet m (a + 1 + j) = none := by
      simp only [Nat.exists_lt_succ_left, Nat.add_zero, Nat.add_right_comm a 1, Nat.add_assoc]
    rw [hshift, ← ih, loadBytes]
    cases memGet m a <;> cases loadBytes m (a + 1) n <;> simp

/-- An unwritten byte of an input within range is UNINIT_READ (60_exceptions.md R242). -/
theorem withInput_of_unwritten {s : State} {j : Nat} (hlen : s.inLen.toNat ≤ s.cfg.bufDepth)
    (hj : j < s.inLen.toNat) (hget : memGet s.inBuf j = none) (k : List Byte → State → State) :
    withInput k s = .fault .uninitRead := by
  have hload : loadBytes s.inBuf 0 s.inLen.toNat = none :=
    loadBytes_eq_none_iff.2 ⟨j, hj, by rwa [Nat.zero_add]⟩
  simp only [withInput, if_neg (Nat.not_lt.2 hlen), hload]

/-- The operations that consume IN[0..IN_LEN) (60_exceptions.md R242): `exec_eq_withInput`. -/
def inputOperations : List Instr := [.build, .encode, .frame, .decode, .verify, .sum8, .hchk, .crc8, .crc16]

/-- Their meanings open alike, whatever they do with the input (40_checksums.md R129, 41_frame_codec.md R140). -/
theorem exec_eq_withInput {i : Instr} (hi : i ∈ inputOperations) :
    ∃ k : List Byte → State → State, ∀ s, exec i s = withInput k s := by
  simp only [inputOperations, List.mem_cons, List.not_mem_nil, or_false] at hi
  rcases hi with rfl | rfl | rfl | rfl | rfl | rfl | rfl | rfl | rfl <;> exact ⟨_, fun _ => rfl⟩

/-- Settles O37. -/
theorem inputChecksComeFirst : Obligations.InputChecksComeFirst := by
  intro i hi s
  obtain ⟨k, hk⟩ := exec_eq_withInput hi
  rw [hk]
  exact ⟨fun hlong => withInput_of_long hlong k, fun hlen j hj hget => withInput_of_unwritten hlen hj hget k⟩

/-! ### The one fault of a block step -/

/-- OUT[0..OUT_LEN) is written, so SEND has its bytes (43_transport_ops.md R191). -/
theorem Inv.exists_outBytes {s : State} (h : Inv s) : ∃ bs, outBytes s = some bs := by
  refine Option.ne_none_iff_exists'.1 fun hnone => ?_
  obtain ⟨j, hj, hget⟩ := loadBytes_eq_none_iff.1 hnone
  have hwritten := h.outWritten j hj
  rw [Nat.zero_add] at hget
  simp [hget] at hwritten

theorem Inv.exec_send_next {s : State} (h : Inv s) : ∃ t, exec .send s = .next t := by
  obtain ⟨bs, hbs⟩ := h.exists_outBytes
  rw [exec_send_eq_ite, sendCall, hbs]
  split <;> exact ⟨_, rfl⟩

/-- An operation that does not consume the input answers a next state. -/
theorem Inv.exec_next {s : State} (h : Inv s) {i : Instr} (hi : i.format = .cmd8) (hin : i ∉ inputOperations) :
    ∃ t, exec i s = .next t := by
  cases i with
  | nop => exact ⟨_, rfl⟩
  | send => exact h.exec_send_next
  | recv => exact ⟨_, exec_recv_eq_ite s⟩
  | flushRx | flushTx | flushAll => exact ⟨_, flushOp_eq_ite _ s⟩
  | hsStart =>
    show ∃ t, execHsStart s = .next t
    unfold execHsStart
    cases s.phase <;> exact ⟨_, rfl⟩
  | hsSkip =>
    show ∃ t, execHsSkip s = .next t
    unfold execHsSkip
    split <;> exact ⟨_, rfl⟩
  | build | encode | frame | decode | verify | sum8 | hchk | crc8 | crc16 => exact absurd (by decide) hin
  | _ => cases hi

/-- The CMD values of the operations that consume the input (30_encoding.md R91). -/
theorem mem_inputCodes_of_decodeCmd {v : Byte} {i : Instr} (hd : decodeCmd v = .ok i) (hi : i ∈ inputOperations) :
    v ∈ [0x01, 0x02, 0x03, 0x04, 0x05, 0x08, 0x09, 0x0A, 0x0B] := by
  have hbytes := (decodeCmd_isRow (L := Config.wireLayout) hd).bytes
  have hmem := List.mem_map_of_mem (f := Sys2Proof.encode Config.wireLayout) hi
  rw [hbytes] at hmem
  simpa [inputOperations, Sys2Proof.encode] using hmem

/-- A block step answers a next state, or opens on the input of one of the nine operations that consume it. -/
theorem Inv.blockStep_next_or_input {s : State} (h : Inv s) :
    (∃ t, blockStep s = .next t) ∨
      s.op ∈ [0x01, 0x02, 0x03, 0x04, 0x05, 0x08, 0x09, 0x0A, 0x0B] ∧ ∃ k, blockStep s = withInput k s := by
  by_cases hp : s.phase = .ready
  · exact .inl ⟨s, blockStep_of_ready hp⟩
  cases hd : decodeCmd s.op with
  | error e => exact .inl ⟨complete .badOp s, by simp only [blockStep, if_neg hp, hd, execReserved]⟩
  | ok i =>
    rw [blockStep_of_decodeCmd hp hd]
    by_cases hin : i ∈ inputOperations
    · obtain ⟨k, hk⟩ := exec_eq_withInput hin
      exact .inr ⟨mem_inputCodes_of_decodeCmd hd hin, k, hk s⟩
    · exact .inl (h.exec_next (decodeCmd_isRow (L := Config.wireLayout) hd).format hin)

/-- Settles O54: of the three ways an input can open, only an unwritten byte is a fault. -/
theorem blockFaultsOnlyOnUnwrittenInput : Obligations.BlockFaultsOnlyOnUnwrittenInput := by
  intro s h hb
  rw [step_of_block hb]
  rcases h.afterEvent.blockStep_next_or_input with hnext | ⟨hop, k, hk⟩
  · exact .inl hnext
  rw [hk]
  rcases withInput_cases k (afterEvent s) with ⟨-, hnext⟩ | ⟨hlen, hload, hfault⟩ | ⟨_, -, hnext⟩
  · exact .inl ⟨_, hnext⟩
  · obtain ⟨j, hj, hget⟩ := loadBytes_eq_none_iff.1 hload
    rw [Nat.zero_add] at hget
    exact .inr ⟨hfault, hop, hlen, j, hj, hget⟩
  · exact .inl ⟨_, hnext⟩

/-! ### FAILED until reset -/

/-- No block step leaves FAILED: a reply does not, and HS_SKIP needs IDLE (60_exceptions.md R236). -/
theorem BlockMove.keeps_failed {s t : State} (hm : BlockMove s t) (hs : s.hsState = .failed) : t.hsState = .failed := by
  cases hm with
  | failed | hsTimeout => rfl
  | hsReplied bs => exact congrArg (hsAdvance · bs) hs
  | skip _ _ hidle => rw [hs] at hidle; cases hidle
  | _ => exact hs

/-- In FAILED neither SEND nor RECV reaches its call (43_transport_ops.md R190). -/
theorem Inv.not_callStep_of_failed {s : State} (h : Inv s) (hs : s.hsState = .failed)
    (hop : s.op = 0x10 ∨ s.op = 0x11) : ¬ CallStep s := by
  rintro (⟨hp, -⟩ | ⟨-, hhs⟩)
  · have hready : s.hsState = .ispReady :=
      hop.elim (fun hsend => (h.sendCallOk hp hsend).1) fun hrecv => (h.recvCallOk hp hrecv).1
    rw [hs] at hready
    cases hready
  · simp [hhs] at hop

/-- Settles O60: no host step writes HS_STATE, and a call would be one that `CallStep` admits. -/
theorem failedIsStickyUntilReset : Obligations.FailedIsStickyUntilReset := by
  refine fun s t hs hstep hr => ⟨?_, fun hinv hop => ?_⟩
  · rcases step_block_or_keepsResults hstep hr with ⟨-, hm⟩ | hkeep
    · exact hm.keeps_failed hs
    · exact hkeep.hsState.trans hs
  · obtain ⟨calls, happ, -, -, hcall⟩ := transportCallsAreLegalAndOnlyAppended s t hinv hstep
    have hnone : calls = [] := not_not.1 fun hne => hinv.not_callStep_of_failed hs hop (hcall hne).2
    rw [happ, hnone, List.append_nil]

end Sys2Proof.Machine
end

section
/-! Reset (70_reset_and_hazards.md R260 to R263; O8), and the bound on every operation (R282; O59): a count of the block
steps left, which each move of an operation in flight lowers. -/

namespace Sys2Proof.Machine

/-! ### Reset -/

/-- A register of the block's own reads its reset value (70_reset_and_hazards.md R260). -/
theorem hostRead_resetBlock {r : Reg} (hr : r ∉ [.cfg, .depthLo, .depthHi]) (s : State) :
    hostRead r.addr (resetBlock s) = hostRead r.addr State.reset := by
  rw [hostRead_addr, hostRead_addr]
  cases r with
  | cfg | depthLo | depthHi => exact absurd (by decide) hr
  | _ => rfl

/-- CFG and DEPTH read as before: what they show is constant (10_state.md R39, R40). -/
theorem hostRead_resetBlock_of_const {r : Reg} (hr : r ∈ [.cfg, .depthLo, .depthHi]) (s : State) :
    hostRead r.addr (resetBlock s) = hostRead r.addr s := by
  rw [hostRead_addr, hostRead_addr]
  fin_cases hr <;> rfl

/-- Settles O8: the reset column is what the host reads in `State.reset`. -/
theorem resetLeavesTheResetValues : Obligations.ResetLeavesTheResetValues := by
  intro s hr
  have hconst {r : Reg} (hmem : r ∈ [.cfg, .depthLo, .depthHi]) :
      hostRead r.addr (resetBlock (afterEvent s)) = hostRead r.addr s :=
    (hostRead_resetBlock_of_const hmem _).trans (hostRead_afterEvent ..)
  refine ⟨resetBlock (afterEvent s), step_of_reset hr, ?_, hconst (by decide), hconst (by decide), hconst (by decide),
    rfl, rfl, rfl, rfl, rfl, fun _ => ⟨rfl, rfl⟩, rfl, rfl, rfl, rfl, rfl, rfl⟩
  refine (List.map_congr_left (g := fun r => hostRead r.addr State.reset) fun r hmem => ?_).trans (by decide)
  exact hostRead_resetBlock (by revert r; decide) _

/-! ### The steps left to an operation -/

/-- The most block steps that the operation in flight still takes: an attempt of HS_START takes four, its budget is
HS_MAX, and one more HS_CHECK ends it (42_handshake.md R173, R177; 70_reset_and_hazards.md R282). -/
def stepsLeft (s : State) : Nat :=
  match s.phase with
  | .ready => 0
  | .exec => stepBound s.op s.hsMax
  | .tCall => 1
  | .hsCheck => 4 * (s.hsMax.toNat - s.hsAtt.toNat) + 1
  | .hsResetIn => 4 * (s.hsMax.toNat - s.hsAtt.toNat) + 4
  | .hsWrite => 4 * (s.hsMax.toNat - s.hsAtt.toNat) + 3
  | .hsRead => 4 * (s.hsMax.toNat - s.hsAtt.toNat) + 2

theorem stepsLeft_of_exec {s : State} (hp : s.phase = .exec) : stepsLeft s = stepBound s.op s.hsMax := by
  simp only [stepsLeft, hp]

theorem stepsLeft_of_tCall {s : State} (hp : s.phase = .tCall) : stepsLeft s = 1 := by
  simp only [stepsLeft, hp]

theorem stepsLeft_of_hsCheck {s : State} (hp : s.phase = .hsCheck) :
    stepsLeft s = 4 * (s.hsMax.toNat - s.hsAtt.toNat) + 1 := by
  simp only [stepsLeft, hp]

theorem stepBound_pos (op : Byte) (mx : Half) : 0 < stepBound op mx := by
  unfold stepBound
  split
  · decide
  · split <;> omega

theorem stepsLeft_pos {s : State} (hp : s.phase ≠ .ready) : 0 < stepsLeft s := by
  unfold stepsLeft
  split
  · exact absurd ‹_› hp
  · exact stepBound_pos ..
  all_goals omega

/-- An operation other than HS_START is in its first step or in its call (10_state.md R46). -/
theorem Inv.exec_of_not_tCall {s : State} (h : Inv s) (hp : s.phase ≠ .ready) (hp' : s.phase ≠ .tCall)
    (hop : s.op ≠ 0x20) : s.phase = .exec := by
  have hhs : inHandshake s.phase ≠ true := fun hin => hop (h.hsOp hin)
  cases hph : s.phase with
  | exec => rfl
  | ready => exact absurd hph hp
  | tCall => exact absurd hph hp'
  | hsCheck | hsResetIn | hsWrite | hsRead => exact absurd (by rw [hph]; rfl) hhs

/-- Each block step of an operation in flight leaves fewer steps to it: an attempt counts one in HS_ATT, and that pays
for its four steps (42_handshake.md R173). -/
theorem BlockMove.stepsLeft_lt {s t : State} (hm : BlockMove s t) (h : Inv s) (hp : s.phase ≠ .ready) :
    stepsLeft t < stepsLeft s := by
  cases hm with
  | rest hready => exact absurd hready hp
  | toCall _ hp' hop =>
    have hop' : s.op ≠ 0x20 := fun he => absurd (he ▸ hop) (by decide)
    rw [stepsLeft_of_exec (h.exec_of_not_tCall hp hp' hop'), stepBound, if_pos hop]
    exact Nat.one_lt_two
  | hsBegin hp' hop =>
    have hno : s.op ∉ transportCodes := by rw [hop]; decide
    have hexec : s.phase = .exec := hp'.resolve_right fun hc => hno (h.callOp hc)
    rw [stepsLeft_of_exec hexec, stepBound, if_neg hno, if_pos hop, stepsLeft_of_hsCheck rfl]
    show 4 * (s.hsMax.toNat - 0) + 1 < 2 + 4 * s.hsMax.toNat
    omega
  | hsAttempt p hp' _ _ hatt hnext =>
    have hle := h.attemptsLe (by rw [hp']; rfl)
    have hne : s.hsAtt.toNat ≠ s.hsMax.toNat := fun he => hatt (BitVec.eq_of_toNat_eq he)
    have hcount : (s.hsAtt + 1).toNat = s.hsAtt.toNat + 1 :=
      BitVec.toNat_add_of_lt (y := 1) (show s.hsAtt.toNat + 1 < 2 ^ 16 by have := s.hsMax.isLt; omega)
    rw [stepsLeft_of_hsCheck hp']
    rcases hnext with rfl | rfl <;> simp only [stepsLeft, hcount] <;> omega
  | hsReset _ _ hp' => simp only [stepsLeft, hp']; omega
  | hsSent _ _ hp' => simp only [stepsLeft, hp']; omega
  | hsReplied _ _ _ hp' => simp only [stepsLeft, hp']; omega
  | _ => exact stepsLeft_pos hp

/-! ### The end of every operation -/

/-- Within `n` steps of the machine the block is at rest with DONE = 1, or the run stops with UNINIT_READ. -/
def EndsWithin (n : Nat) (s : State) : Prop :=
  ∃ k, k ≤ n ∧
    ((∃ t, Host.Core.run core k s = .next t ∧ t.phase = .ready ∧ t.busy = false ∧ t.done = true) ∨
      Host.Core.run core k s = .fault .uninitRead)

theorem endsWithin_of_fault {s : State} (hf : step s = .fault .uninitRead) (n : Nat) : EndsWithin (n + 1) s :=
  ⟨1, Nat.le_add_left .., .inr (run_fault hf 0)⟩

theorem endsWithin_of_complete {s u : State} {c : ErrCode} (hstep : step s = .next (complete c u)) (n : Nat) :
    EndsWithin (n + 1) s :=
  ⟨1, Nat.le_add_left .., .inl ⟨_, run_next hstep 0, rfl, rfl, rfl⟩⟩

theorem endsWithin_of_step {s t : State} {n : Nat} (hstep : step s = .next t) (h : EndsWithin n t) :
    EndsWithin (n + 1) s := by
  obtain ⟨k, hk, hend⟩ := h
  exact ⟨k + 1, Nat.succ_le_succ hk, by rwa [run_next hstep]⟩

/-- No block step writes the pending events. -/
theorem BlockMove.events {s t : State} (hm : BlockMove s t) : t.events = s.events := by
  cases hm <;> rfl

/-- An operation in flight ends within the steps left to it, by induction on their number. -/
theorem endsWithin_of_stepsLeft_le {n : Nat} {s : State} (h : Inv s) (he : s.events = []) (hp : s.phase ≠ .ready)
    (hn : stepsLeft s ≤ n) : EndsWithin n s := by
  induction n generalizing s with
  | zero => exact absurd (stepsLeft_pos hp) (Nat.not_lt.2 hn)
  | succ n ih =>
    have hturn : BlockTurn s := .inl he
    rcases blockFaultsOnlyOnUnwrittenInput s h hturn with ⟨t, hstep⟩ | ⟨hfault, -⟩
    · have hm : BlockMove (afterEvent s) t := blockStep_moves ((step_of_block hturn).symm.trans hstep)
      by_cases ht : t.phase = .ready
      · obtain ⟨c, u, rfl⟩ := hm.eq_complete hp ht
        exact endsWithin_of_complete hstep n
      · have hlt : stepsLeft t < stepsLeft s := hm.stepsLeft_lt h.afterEvent hp
        have het : t.events = [] := hm.events.trans (congrArg List.tail he)
        exact endsWithin_of_step hstep
          (ih (everyStepKeepsTheInvariant s t h hstep) het ht (Nat.le_of_lt_succ (hlt.trans_le hn)))
    · exact endsWithin_of_fault hfault n

/-- Settles O59: at acceptance the steps left are the bound of 70_reset_and_hazards.md R282. -/
theorem everyOperationEndsWithinItsBound : Obligations.EveryOperationEndsWithinItsBound := fun _ h he hp =>
  endsWithin_of_stepsLeft_le h he (ne_of_eq_of_ne hp (by decide)) (stepsLeft_of_exec hp).le

end Sys2Proof.Machine
end
